-- ==== Sys2Proof/Word.lean ====
section
/-! DEFINITION. The word type of V8C-1: one byte.

00_scope.md rule R6: every register, memory cell, video-memory cell, operand byte and
program-counter value is an unsigned integer in [0,255]. -/

namespace Sys2Proof

/-- `Byte` of 00_scope.md rule R15: an unsigned integer in [0,255], with arithmetic modulo 256. -/
abbrev Byte := BitVec 8

end Sys2Proof
end

