-- ==== Sys2Proof/Config.lean ====
section
/-! DEFINITION. What is fixed for one machine and is not state (10_state.md rule R42):
the one open parameter of the spec, `CALL_STACK_DEPTH`.

The other configuration of rule R42, the instruction ROM, is the constant `Sys2Proof.rom` of
Sys2Proof/Decode.lean. The spec leaves no value free (93_implementation_defined.md section 2), so
this file holds no opaque constant. -/

namespace Sys2Proof

/-- The configuration of a machine. 00_scope.md rule R10: `CALL_STACK_DEPTH` is "any integer ≥ 1"
(92_eei_decisions.md D9). -/
structure Config where
  callStackDepth : Nat
  deriving DecidableEq, Repr

/-- The legal configurations (00_scope.md rule R10). -/
def Config.valid (c : Config) : Bool := decide (1 ≤ c.callStackDepth)

/-- The default configuration, `CALL_STACK_DEPTH = 16` (00_scope.md rule R10). -/
def Config.default : Config := { callStackDepth := 16 }

end Sys2Proof
end

