-- ==== Sys2Proof/Syntax.lean ====
section
/-! DEFINITION. The instructions of V8C-1 as syntax: operand kinds, operands, ROM descriptors and one
constructor of `Instr` for each of the 45 rows of spec/opcode_table.json (30_encoding.md rule R80). -/

namespace Sys2Proof

/-- A general-register index, 0 to 7 (10_state.md rules R21, R22: an index outside [0,7] never
reaches the register file). -/
abbrev Reg := Fin 8

/-- The four operand kinds C, R, M, P of 30_encoding.md rule R71. -/
inductive OperandKind where
  | constant
  | register
  | memoryAddress
  | registerPair
  deriving DecidableEq, Repr

/-- An operand byte read as its kind (30_encoding.md rules R71, R72, R75). The first and second
register of a pair are in assembly order. -/
inductive Operand where
  | constant (c : Byte)
  | register (r : Reg)
  | address (m : Byte)
  | pair (first second : Reg)
  deriving DecidableEq, Repr

/-- The kind of an operand. -/
def Operand.kind : Operand → OperandKind
  | .constant _ => .constant
  | .register _ => .register
  | .address _ => .memoryAddress
  | .pair _ _ => .registerPair

/-- The assembler's operand token types (30_encoding.md rule R93). -/
inductive TokenType where
  | constant
  | register
  | memoryReference
  | registerIndirect
  | target
  deriving DecidableEq, Repr

/-- One entry of the instruction ROM (30_encoding.md rule R76): mnemonic, assembly form, operand
kinds in fetch order, and the token types of the assembly column of rule R80. The entry's `exec` is
the meaning of the `Instr` that `Sys2Proof.build` makes of the opcode and its operands. -/
structure Descriptor where
  mnemonic : String
  form : String
  kinds : List OperandKind
  tokens : List TokenType
  deriving DecidableEq, Repr

/-- `n`, the number of operand bytes of a descriptor (30_encoding.md rules R76, R79). -/
def Descriptor.n (d : Descriptor) : Nat := d.kinds.length

/-- An instruction as bytes: an opcode byte and the operand bytes after it, not yet checked. -/
structure RawInstr where
  opcode : Byte
  operands : List Byte
  deriving DecidableEq, Repr

/-- The instructions, one constructor per row of 30_encoding.md rule R80. Arguments stand in fetch
order, which is assembly order (92_eei_decisions.md D4). -/
inductive Instr where
  /-- 0x00 `NOP` -/
  | nop
  /-- 0x10 `MOV Rs Rd` -/
  | movRegReg (rs rd : Reg)
  /-- 0x11 `MOV NUMc Rd` -/
  | movConstReg (c : Byte) (rd : Reg)
  /-- 0x12 `MOV [m] Rd` -/
  | movMemReg (m : Byte) (rd : Reg)
  /-- 0x13 `MOV Rs [m]` -/
  | movRegMem (rs : Reg) (m : Byte)
  /-- 0x14 `MOV NUMc [m]` -/
  | movConstMem (c m : Byte)
  /-- 0x15 `MOV [Ra] Rd` -/
  | movIndReg (ra rd : Reg)
  /-- 0x16 `MOV Rs [Ra]` -/
  | movRegInd (rs ra : Reg)
  /-- 0x18 `VMOV [m] Rd` -/
  | vmovMemReg (m : Byte) (rd : Reg)
  /-- 0x19 `VMOV Rs [m]` -/
  | vmovRegMem (rs : Reg) (m : Byte)
  /-- 0x1A `VMOV NUMc [m]` -/
  | vmovConstMem (c m : Byte)
  /-- 0x1B `VMOV [Ra] Rd` -/
  | vmovIndReg (ra rd : Reg)
  /-- 0x1C `VMOV Rs [Ra]` -/
  | vmovRegInd (rs ra : Reg)
  /-- 0x20 `ADD Rs Rd` -/
  | addReg (rs rd : Reg)
  /-- 0x21 `ADD NUMc Rd` -/
  | addConst (c : Byte) (rd : Reg)
  /-- 0x22 `SUB Rs Rd` -/
  | subReg (rs rd : Reg)
  /-- 0x23 `SUB NUMc Rd` -/
  | subConst (c : Byte) (rd : Reg)
  /-- 0x24 `MUL Rs Rd` -/
  | mulReg (rs rd : Reg)
  /-- 0x25 `DIV Rs Rd` -/
  | divReg (rs rd : Reg)
  /-- 0x26 `MOD Rs Rd` -/
  | modReg (rs rd : Reg)
  /-- 0x27 `INC Rd` -/
  | inc (rd : Reg)
  /-- 0x28 `DEC Rd` -/
  | dec (rd : Reg)
  /-- 0x30 `AND Rs Rd` -/
  | andReg (rs rd : Reg)
  /-- 0x31 `OR Rs Rd` -/
  | orReg (rs rd : Reg)
  /-- 0x32 `XOR Rs Rd` -/
  | xorReg (rs rd : Reg)
  /-- 0x33 `NOT Rd` -/
  | notReg (rd : Reg)
  /-- 0x34 `SHL Rd` -/
  | shl (rd : Reg)
  /-- 0x35 `SHR Rd` -/
  | shr (rd : Reg)
  /-- 0x40 `EQ Ra Rb` -/
  | eqReg (ra rb : Reg)
  /-- 0x41 `EQ Ra NUMc` -/
  | eqConst (ra : Reg) (c : Byte)
  /-- 0x42 `LT Ra Rb` -/
  | ltReg (ra rb : Reg)
  /-- 0x43 `LT Ra NUMc` -/
  | ltConst (ra : Reg) (c : Byte)
  /-- 0x44 `GT Ra Rb` -/
  | gtReg (ra rb : Reg)
  /-- 0x45 `GT Ra NUMc` -/
  | gtConst (ra : Reg) (c : Byte)
  /-- 0x46 `SETC` -/
  | setc
  /-- 0x47 `CLRC` -/
  | clrc
  /-- 0x50 `JMP t` -/
  | jmp (t : Byte)
  /-- 0x51 `JMP Rr` -/
  | jmpReg (rr : Reg)
  /-- 0x52 `JC t` -/
  | jc (t : Byte)
  /-- 0x53 `JNC t` -/
  | jnc (t : Byte)
  /-- 0x54 `CALL t` -/
  | call (t : Byte)
  /-- 0x55 `RET` -/
  | ret
  /-- 0x60 `PRINT Rr` -/
  | print (rr : Reg)
  /-- 0x61 `BANK NUMc` -/
  | bank (c : Byte)
  /-- 0x62 `PALETTE NUMc` -/
  | palette (c : Byte)
  deriving DecidableEq, Repr

end Sys2Proof
end

