-- ==== Sys2Proof/Decode.lean ====
section
/-! DEFINITION. The instruction ROM, the decoder and the encoder (30_encoding.md rules R71 to R83).

The decoder is total on any list of bytes and rejects by name. The cycle machine of
Sys2Proof/Machine/Cycle.lean uses the same ROM, the same acceptance predicate and the same reading of
operands, so there is one decoder. -/

namespace Sys2Proof

/-! ## The instruction ROM -/

/-- The System rows of 30_encoding.md rule R80. -/
def romSystem : List (Byte × Descriptor) :=
  [(0x00#8, ⟨"NOP", "NOP", [], []⟩),
   (0x60#8, ⟨"PRINT", "PRINT Rr", [.register], [.register]⟩),
   (0x61#8, ⟨"BANK", "BANK NUMc", [.constant], [.constant]⟩),
   (0x62#8, ⟨"PALETTE", "PALETTE NUMc", [.constant], [.constant]⟩)]

/-- The DataMovement rows of 30_encoding.md rule R80. -/
def romDataMovement : List (Byte × Descriptor) :=
  [(0x10#8, ⟨"MOV", "MOV Rs Rd", [.register, .register], [.register, .register]⟩),
   (0x11#8, ⟨"MOV", "MOV NUMc Rd", [.constant, .register], [.constant, .register]⟩),
   (0x12#8, ⟨"MOV", "MOV [m] Rd", [.memoryAddress, .register], [.memoryReference, .register]⟩),
   (0x13#8, ⟨"MOV", "MOV Rs [m]", [.register, .memoryAddress], [.register, .memoryReference]⟩),
   (0x14#8, ⟨"MOV", "MOV NUMc [m]", [.constant, .memoryAddress], [.constant, .memoryReference]⟩),
   (0x15#8, ⟨"MOV", "MOV [Ra] Rd", [.registerPair], [.registerIndirect, .register]⟩),
   (0x16#8, ⟨"MOV", "MOV Rs [Ra]", [.registerPair], [.register, .registerIndirect]⟩),
   (0x18#8, ⟨"VMOV", "VMOV [m] Rd", [.memoryAddress, .register], [.memoryReference, .register]⟩),
   (0x19#8, ⟨"VMOV", "VMOV Rs [m]", [.register, .memoryAddress], [.register, .memoryReference]⟩),
   (0x1A#8, ⟨"VMOV", "VMOV NUMc [m]", [.constant, .memoryAddress], [.constant, .memoryReference]⟩),
   (0x1B#8, ⟨"VMOV", "VMOV [Ra] Rd", [.registerPair], [.registerIndirect, .register]⟩),
   (0x1C#8, ⟨"VMOV", "VMOV Rs [Ra]", [.registerPair], [.register, .registerIndirect]⟩)]

/-- The Arithmetic rows of 30_encoding.md rule R80. -/
def romArithmetic : List (Byte × Descriptor) :=
  [(0x20#8, ⟨"ADD", "ADD Rs Rd", [.register, .register], [.register, .register]⟩),
   (0x21#8, ⟨"ADD", "ADD NUMc Rd", [.constant, .register], [.constant, .register]⟩),
   (0x22#8, ⟨"SUB", "SUB Rs Rd", [.register, .register], [.register, .register]⟩),
   (0x23#8, ⟨"SUB", "SUB NUMc Rd", [.constant, .register], [.constant, .register]⟩),
   (0x24#8, ⟨"MUL", "MUL Rs Rd", [.register, .register], [.register, .register]⟩),
   (0x25#8, ⟨"DIV", "DIV Rs Rd", [.register, .register], [.register, .register]⟩),
   (0x26#8, ⟨"MOD", "MOD Rs Rd", [.register, .register], [.register, .register]⟩),
   (0x27#8, ⟨"INC", "INC Rd", [.register], [.register]⟩),
   (0x28#8, ⟨"DEC", "DEC Rd", [.register], [.register]⟩)]

/-- The Logic rows of 30_encoding.md rule R80. -/
def romLogic : List (Byte × Descriptor) :=
  [(0x30#8, ⟨"AND", "AND Rs Rd", [.register, .register], [.register, .register]⟩),
   (0x31#8, ⟨"OR", "OR Rs Rd", [.register, .register], [.register, .register]⟩),
   (0x32#8, ⟨"XOR", "XOR Rs Rd", [.register, .register], [.register, .register]⟩),
   (0x33#8, ⟨"NOT", "NOT Rd", [.register], [.register]⟩),
   (0x34#8, ⟨"SHL", "SHL Rd", [.register], [.register]⟩),
   (0x35#8, ⟨"SHR", "SHR Rd", [.register], [.register]⟩)]

/-- The Compare rows of 30_encoding.md rule R80. -/
def romCompare : List (Byte × Descriptor) :=
  [(0x40#8, ⟨"EQ", "EQ Ra Rb", [.register, .register], [.register, .register]⟩),
   (0x41#8, ⟨"EQ", "EQ Ra NUMc", [.register, .constant], [.register, .constant]⟩),
   (0x42#8, ⟨"LT", "LT Ra Rb", [.register, .register], [.register, .register]⟩),
   (0x43#8, ⟨"LT", "LT Ra NUMc", [.register, .constant], [.register, .constant]⟩),
   (0x44#8, ⟨"GT", "GT Ra Rb", [.register, .register], [.register, .register]⟩),
   (0x45#8, ⟨"GT", "GT Ra NUMc", [.register, .constant], [.register, .constant]⟩),
   (0x46#8, ⟨"SETC", "SETC", [], []⟩),
   (0x47#8, ⟨"CLRC", "CLRC", [], []⟩)]

/-- The Control rows of 30_encoding.md rule R80. -/
def romControl : List (Byte × Descriptor) :=
  [(0x50#8, ⟨"JMP", "JMP t", [.memoryAddress], [.target]⟩),
   (0x51#8, ⟨"JMP", "JMP Rr", [.register], [.register]⟩),
   (0x52#8, ⟨"JC", "JC t", [.memoryAddress], [.target]⟩),
   (0x53#8, ⟨"JNC", "JNC t", [.memoryAddress], [.target]⟩),
   (0x54#8, ⟨"CALL", "CALL t", [.memoryAddress], [.target]⟩),
   (0x55#8, ⟨"RET", "RET", [], []⟩)]

/-- The instruction ROM: the 45 bound slots of 30_encoding.md rule R80, each an opcode byte with its
descriptor (log 13). -/
def rom : List (Byte × Descriptor) :=
  romSystem ++ romDataMovement ++ romArithmetic ++ romLogic ++ romCompare ++ romControl

/-- `lookup(opcode)` of 30_encoding.md rule R77: total on all 256 byte values; `none` is not-found. -/
def lookup (opcode : Byte) : Option Descriptor :=
  (rom.find? (fun row => row.1 == opcode)).map Prod.snd

/-- The error of a ROM's construction, "DuplicateOpcode" (30_encoding.md rule R78). -/
inductive RomError where
  | duplicateOpcode (opcode : Byte)
  deriving DecidableEq, Repr

/-- Binding one more opcode while a ROM is constructed: refused when the opcode is already bound
(30_encoding.md rule R78). -/
def bindOpcode (rows : List (Byte × Descriptor)) (opcode : Byte) (d : Descriptor) :
    Except RomError (List (Byte × Descriptor)) :=
  if rows.any (fun row => row.1 == opcode) then .error (.duplicateOpcode opcode)
  else .ok (rows ++ [(opcode, d)])

/-- Constructing a ROM from bindings in order, onto the rows already bound: a binding list with a
duplicate opcode is refused (30_encoding.md rule R78). -/
def constructRom (bound : List (Byte × Descriptor)) :
    List (Byte × Descriptor) → Except RomError (List (Byte × Descriptor))
  | [] => .ok bound
  | row :: rest =>
    match bindOpcode bound row.1 row.2 with
    | .error e => .error e
    | .ok bound' => constructRom bound' rest

/-! ## Operand bytes -/

/-- The acceptance predicate of 30_encoding.md rule R73. -/
def accepts : OperandKind → Byte → Bool
  | .constant, _ => true
  | .memoryAddress, _ => true
  | .register, b => decide (b.toNat ≤ 7)
  | .registerPair, b => b &&& 0x88#8 == 0#8

/-- The first register of a pair byte, `b[6:4]` (30_encoding.md rule R72). -/
def pairFirst (b : Byte) : Reg := (b.extractLsb' 4 3).toFin

/-- The second register of a pair byte, `b[2:0]` (30_encoding.md rule R72). -/
def pairSecond (b : Byte) : Reg := (b.extractLsb' 0 3).toFin

/-- A pair byte, `(first << 4) OR second` (30_encoding.md rule R95). -/
def pairByte (first second : Reg) : Byte :=
  (BitVec.ofNat 8 first.val <<< 4) ||| BitVec.ofNat 8 second.val

/-- An operand byte read as its kind; `none` when the kind rejects it. A register byte above 7 is
rejected, never clamped or reduced (10_state.md rule R22, 30_encoding.md rules R73, R75). -/
def decodeOperand (k : OperandKind) (b : Byte) : Option Operand :=
  match k with
  | .constant => some (.constant b)
  | .memoryAddress => some (.address b)
  | .register => if h : b.toNat < 8 then some (.register ⟨b.toNat, h⟩) else none
  | .registerPair =>
    if accepts .registerPair b then some (.pair (pairFirst b) (pairSecond b)) else none

/-- The byte of an operand (30_encoding.md rules R75, R93, R95). -/
def Operand.byte : Operand → Byte
  | .constant c => c
  | .register r => BitVec.ofNat 8 r.val
  | .address m => m
  | .pair first second => pairByte first second

/-! ## From an opcode and its operands to an instruction -/

/-- An instruction with no operand (format F0). -/
def formNone (i : Instr) : List Operand → Option Instr
  | [] => some i
  | _ => none

/-- One register operand (format F1). -/
def formR (i : Reg → Instr) : List Operand → Option Instr
  | [.register r] => some (i r)
  | _ => none

/-- One address operand (format F1). -/
def formM (i : Byte → Instr) : List Operand → Option Instr
  | [.address m] => some (i m)
  | _ => none

/-- One constant operand (format F1). -/
def formC (i : Byte → Instr) : List Operand → Option Instr
  | [.constant c] => some (i c)
  | _ => none

/-- One register-pair operand (format F1). -/
def formP (i : Reg → Reg → Instr) : List Operand → Option Instr
  | [.pair first second] => some (i first second)
  | _ => none

/-- Two register operands (format F2). -/
def formRR (i : Reg → Reg → Instr) : List Operand → Option Instr
  | [.register r, .register r'] => some (i r r')
  | _ => none

/-- A constant, then a register (format F2). -/
def formCR (i : Byte → Reg → Instr) : List Operand → Option Instr
  | [.constant c, .register r] => some (i c r)
  | _ => none

/-- An address, then a register (format F2). -/
def formMR (i : Byte → Reg → Instr) : List Operand → Option Instr
  | [.address m, .register r] => some (i m r)
  | _ => none

/-- A register, then an address (format F2). -/
def formRM (i : Reg → Byte → Instr) : List Operand → Option Instr
  | [.register r, .address m] => some (i r m)
  | _ => none

/-- A constant, then an address (format F2). -/
def formCM (i : Byte → Byte → Instr) : List Operand → Option Instr
  | [.constant c, .address m] => some (i c m)
  | _ => none

/-- A register, then a constant (format F2). -/
def formRC (i : Reg → Byte → Instr) : List Operand → Option Instr
  | [.register r, .constant c] => some (i r c)
  | _ => none

/-- The instruction an opcode byte names with its operands: the `exec` column of the ROM
(30_encoding.md rules R76, R80). `none` for an unbound opcode or operands of other kinds than the
descriptor lists. -/
def build (opcode : Byte) (ops : List Operand) : Option Instr :=
  match opcode.toNat with
  | 0x00 => formNone .nop ops
  | 0x10 => formRR .movRegReg ops
  | 0x11 => formCR .movConstReg ops
  | 0x12 => formMR .movMemReg ops
  | 0x13 => formRM .movRegMem ops
  | 0x14 => formCM .movConstMem ops
  | 0x15 => formP .movIndReg ops
  | 0x16 => formP .movRegInd ops
  | 0x18 => formMR .vmovMemReg ops
  | 0x19 => formRM .vmovRegMem ops
  | 0x1A => formCM .vmovConstMem ops
  | 0x1B => formP .vmovIndReg ops
  | 0x1C => formP .vmovRegInd ops
  | 0x20 => formRR .addReg ops
  | 0x21 => formCR .addConst ops
  | 0x22 => formRR .subReg ops
  | 0x23 => formCR .subConst ops
  | 0x24 => formRR .mulReg ops
  | 0x25 => formRR .divReg ops
  | 0x26 => formRR .modReg ops
  | 0x27 => formR .inc ops
  | 0x28 => formR .dec ops
  | 0x30 => formRR .andReg ops
  | 0x31 => formRR .orReg ops
  | 0x32 => formRR .xorReg ops
  | 0x33 => formR .notReg ops
  | 0x34 => formR .shl ops
  | 0x35 => formR .shr ops
  | 0x40 => formRR .eqReg ops
  | 0x41 => formRC .eqConst ops
  | 0x42 => formRR .ltReg ops
  | 0x43 => formRC .ltConst ops
  | 0x44 => formRR .gtReg ops
  | 0x45 => formRC .gtConst ops
  | 0x46 => formNone .setc ops
  | 0x47 => formNone .clrc ops
  | 0x50 => formM .jmp ops
  | 0x51 => formR .jmpReg ops
  | 0x52 => formM .jc ops
  | 0x53 => formM .jnc ops
  | 0x54 => formM .call ops
  | 0x55 => formNone .ret ops
  | 0x60 => formR .print ops
  | 0x61 => formC .bank ops
  | 0x62 => formC .palette ops
  | _ => none

/-! ## The decoder -/

/-- Why the decoder rejects a list of bytes. -/
inductive DecodeReject where
  /-- There is no opcode byte. -/
  | noByte
  /-- The opcode byte is unbound (30_encoding.md rule R82). -/
  | unboundOpcode (b : Byte)
  /-- The bytes end before the instruction's last operand byte. -/
  | missingOperand (opcode : Byte)
  /-- An operand byte its kind rejects (30_encoding.md rules R73, R83). -/
  | operandRejected (opcode b : Byte) (expected : OperandKind)
  deriving DecidableEq, Repr

/-- Reads operand bytes in fetch order against the descriptor's kinds; answers the operands and the
bytes left over. Operands are checked one at a time (60_exceptions.md rule R239). -/
def decodeOperands (opcode : Byte) :
    List OperandKind → List Byte → Except DecodeReject (List Operand × List Byte)
  | [], bs => .ok ([], bs)
  | _ :: _, [] => .error (.missingOperand opcode)
  | k :: ks, b :: bs =>
    match decodeOperand k b with
    | none => .error (.operandRejected opcode b k)
    | some o =>
      match decodeOperands opcode ks bs with
      | .error e => .error e
      | .ok (os, rest) => .ok (o :: os, rest)

/-- The decoder: an opcode byte looked up in the ROM, then one byte per operand kind
(30_encoding.md rules R74, R77, R79). The opcode byte alone selects the descriptor. -/
def decode : List Byte → Except DecodeReject (Instr × List Byte)
  | [] => .error .noByte
  | b :: bs =>
    match lookup b with
    | none => .error (.unboundOpcode b)
    | some d =>
      match decodeOperands b d.kinds bs with
      | .error e => .error e
      | .ok (ops, rest) =>
        match build b ops with
        | some i => .ok (i, rest)
        | none => .error (.unboundOpcode b)

/-! ## The encoder -/

/-- The opcode byte of an instruction (30_encoding.md rule R80). -/
def Instr.opcode : Instr → Byte
  | .nop => 0x00#8
  | .movRegReg _ _ => 0x10#8
  | .movConstReg _ _ => 0x11#8
  | .movMemReg _ _ => 0x12#8
  | .movRegMem _ _ => 0x13#8
  | .movConstMem _ _ => 0x14#8
  | .movIndReg _ _ => 0x15#8
  | .movRegInd _ _ => 0x16#8
  | .vmovMemReg _ _ => 0x18#8
  | .vmovRegMem _ _ => 0x19#8
  | .vmovConstMem _ _ => 0x1A#8
  | .vmovIndReg _ _ => 0x1B#8
  | .vmovRegInd _ _ => 0x1C#8
  | .addReg _ _ => 0x20#8
  | .addConst _ _ => 0x21#8
  | .subReg _ _ => 0x22#8
  | .subConst _ _ => 0x23#8
  | .mulReg _ _ => 0x24#8
  | .divReg _ _ => 0x25#8
  | .modReg _ _ => 0x26#8
  | .inc _ => 0x27#8
  | .dec _ => 0x28#8
  | .andReg _ _ => 0x30#8
  | .orReg _ _ => 0x31#8
  | .xorReg _ _ => 0x32#8
  | .notReg _ => 0x33#8
  | .shl _ => 0x34#8
  | .shr _ => 0x35#8
  | .eqReg _ _ => 0x40#8
  | .eqConst _ _ => 0x41#8
  | .ltReg _ _ => 0x42#8
  | .ltConst _ _ => 0x43#8
  | .gtReg _ _ => 0x44#8
  | .gtConst _ _ => 0x45#8
  | .setc => 0x46#8
  | .clrc => 0x47#8
  | .jmp _ => 0x50#8
  | .jmpReg _ => 0x51#8
  | .jc _ => 0x52#8
  | .jnc _ => 0x53#8
  | .call _ => 0x54#8
  | .ret => 0x55#8
  | .print _ => 0x60#8
  | .bank _ => 0x61#8
  | .palette _ => 0x62#8

/-- The operands of an instruction, in fetch order (30_encoding.md rule R80). -/
def Instr.operands : Instr → List Operand
  | .nop => []
  | .movRegReg r1 r2 => [.register r1, .register r2]
  | .movConstReg c r => [.constant c, .register r]
  | .movMemReg m r => [.address m, .register r]
  | .movRegMem r m => [.register r, .address m]
  | .movConstMem c m => [.constant c, .address m]
  | .movIndReg r1 r2 => [.pair r1 r2]
  | .movRegInd r1 r2 => [.pair r1 r2]
  | .vmovMemReg m r => [.address m, .register r]
  | .vmovRegMem r m => [.register r, .address m]
  | .vmovConstMem c m => [.constant c, .address m]
  | .vmovIndReg r1 r2 => [.pair r1 r2]
  | .vmovRegInd r1 r2 => [.pair r1 r2]
  | .addReg r1 r2 => [.register r1, .register r2]
  | .addConst c r => [.constant c, .register r]
  | .subReg r1 r2 => [.register r1, .register r2]
  | .subConst c r => [.constant c, .register r]
  | .mulReg r1 r2 => [.register r1, .register r2]
  | .divReg r1 r2 => [.register r1, .register r2]
  | .modReg r1 r2 => [.register r1, .register r2]
  | .inc r => [.register r]
  | .dec r => [.register r]
  | .andReg r1 r2 => [.register r1, .register r2]
  | .orReg r1 r2 => [.register r1, .register r2]
  | .xorReg r1 r2 => [.register r1, .register r2]
  | .notReg r => [.register r]
  | .shl r => [.register r]
  | .shr r => [.register r]
  | .eqReg r1 r2 => [.register r1, .register r2]
  | .eqConst r c => [.register r, .constant c]
  | .ltReg r1 r2 => [.register r1, .register r2]
  | .ltConst r c => [.register r, .constant c]
  | .gtReg r1 r2 => [.register r1, .register r2]
  | .gtConst r c => [.register r, .constant c]
  | .setc => []
  | .clrc => []
  | .jmp m => [.address m]
  | .jmpReg r => [.register r]
  | .jc m => [.address m]
  | .jnc m => [.address m]
  | .call m => [.address m]
  | .ret => []
  | .print r => [.register r]
  | .bank c => [.constant c]
  | .palette c => [.constant c]

/-- An instruction as raw bytes. -/
def Instr.raw (i : Instr) : RawInstr := ⟨i.opcode, i.operands.map Operand.byte⟩

/-- The bytes of an instruction: the opcode, then its operand bytes in order (30_encoding.md rules
R74, R80, R95). -/
def encode (i : Instr) : List Byte := i.opcode :: i.operands.map Operand.byte

/-- The length of an instruction in bytes, `1 + n` (30_encoding.md rule R79). -/
def Instr.length (i : Instr) : Nat := 1 + i.operands.length

/-! ## Opcode-table words -/

/-- The bytes of a table word: bit 0 of the word is the least significant bit of the first byte, and
bits from `nbits` up are 0. Three bytes, the longest instruction (00_scope.md rule R12). -/
def tableBytes (nbits w : Nat) : List Byte :=
  let v := w % 2 ^ nbits
  [BitVec.ofNat 8 v, BitVec.ofNat 8 (v / 256), BitVec.ofNat 8 (v / 65536)]

/-- The instruction the decoder reads from a word numbered as spec/opcode_table.json numbers it. -/
def decodeTableWord (nbits w : Nat) : Option Instr :=
  match decode (tableBytes nbits w) with
  | .ok (i, _) => some i
  | .error _ => none

end Sys2Proof
end

