-- ==== Sys2Proof/Machine/State.lean ====
section
/-! DEFINITION. The state of the machine (10_state.md), its events, and its state after reset. -/

namespace Sys2Proof.Machine

/-! ## Memories -/

/-- A byte space of 256 addresses (10_state.md rule R34): the addresses that do not hold 0, in rising
order, each with its byte. An address that is not listed reads as 0, the value every cell has at
power-on (10_state.md rule R43; log 9). -/
abbrev Memory := List Host.Cell

/-- The canonical form of a list whose addresses are all at least `low`: addresses strictly rising
and below 256, no listed byte 0. -/
def Memory.wfFrom (low : Nat) : Memory → Bool
  | [] => true
  | (a, v) :: rest =>
    decide (low ≤ a) && decide (a < 256) && (v != 0#8) && Memory.wfFrom (a + 1) rest

/-- The canonical form of a memory. Equal memories in this form are equal lists. -/
def Memory.wf (m : Memory) : Bool := Memory.wfFrom 0 m

/-! ## Events -/

/-- What an `Error` event records (60_exceptions.md rule R233): its kind with that kind's detail. -/
inductive ErrorReport where
  /-- A register or pair operand byte its kind rejects (40_decode_execute.md rule R117). -/
  | operandError (opcode byte : Byte) (expected : OperandKind) (position : Byte)
  /-- DIV or MOD with a zero divisor (42_arithmetic.md rules R166, R167). -/
  | divideByZero (opcode position : Byte)
  /-- CALL at maximum depth (45_control.md rule R207). -/
  | callStackOverflow (opcode position : Byte) (depth : Nat)
  /-- RET with an empty call stack (45_control.md rule R209). -/
  | callStackUnderflow (opcode position : Byte)
  deriving DecidableEq, Repr

/-- The event kinds and their payloads, the whole list of 10_state.md rule R35. -/
inductive Event where
  | memoryChanged (address value : Byte)
  | registerChanged (register : Reg) (value : Byte)
  | programCounterChanged (value : Byte)
  | instructionParseBegun (opcode position : Byte)
  | parameterParsed (kind : OperandKind) (byte position : Byte)
  | instructionExecuted (opcode : Byte)
  | invalidByteParsed (byte position : Byte)
  | printRequested (text : String)
  | reset
  | error (report : ErrorReport)
  deriving DecidableEq, Repr

/-! ## The state -/

/-- The pending instruction (10_state.md rule R33). Its `desc` and `n` are functions of `opcode`
through the fixed ROM, so they are computed (`Pending.desc`, `Pending.n`), not stored a second time
(log 6). -/
structure Pending where
  opcode : Byte
  collected : List Byte
  position : Byte
  deriving DecidableEq, Repr

/-- The state of the machine: the attributes listed at the head of 10_state.md, the decoder state of
rule R33, the cycle's suppress flag (40_decode_execute.md rule R112), and, not state of the block,
its output so far (`trace`, log 3) and its fixed configuration (`config`, log 4). -/
structure State where
  /-- `CALL_STACK_DEPTH`; no instruction and no host port changes it (10_state.md rule R42). -/
  config : Config
  /-- `x[0]` to `x[7]` (10_state.md rule R21). -/
  regs : Vector Byte 8
  /-- The program counter (10_state.md rules R23, R24). -/
  pc : Byte
  /-- The carry flag (10_state.md rule R26). -/
  carry : Bool
  /-- `bank_selector` (10_state.md rule R27). -/
  bankSelector : Byte
  /-- `color_palette_id` (10_state.md rule R28). -/
  colorPaletteId : Byte
  /-- The call stack, its last element the top (10_state.md rule R30). -/
  callStack : List Byte
  /-- `none` is the phase Idle, `some p` the phase Collecting (10_state.md rule R33). -/
  pending : Option Pending
  /-- The suppress flag of the cycle (40_decode_execute.md rules R112, R121; log 5). -/
  suppressed : Bool
  /-- Main memory (10_state.md rule R34). -/
  memory : Memory
  /-- Video memory (10_state.md rule R34). -/
  videoMemory : Memory
  /-- Every event published so far, oldest first (10_state.md rule R35). Nothing reads it. -/
  trace : List Event
  deriving DecidableEq, Repr

/-- Why a step can stop with a fault. The machine itself never stops: every error of the spec is an
event and a next state (60_exceptions.md rules R236, R237). -/
inductive Fault where
  /-- Raised by `cycle` in a decoder state that 40_decode_execute.md rule R124 rules out: a pending
  instruction whose opcode is unbound, which has already collected all its operands, or which has
  collected a byte its kind rejects. No run from reset and no host port reaches one. Safe. -/
  | decoderCorrupt
  deriving DecidableEq, Repr

/-- Why a step can be refused. -/
inductive Refusal where
  /-- Raised by `exec` for an instruction that has no meaning yet. No arm raises it. Safe. -/
  | notModelled (mnemonic : String)
  deriving DecidableEq, Repr

/-- The outcome of an instruction or a cycle. -/
abbrev Result := Host.Outcome State Fault Refusal

/-- The machine of configuration `c` right after construction (70_reset_and_hazards.md rule R261):
everything 0, false or empty, the decoder Idle, no event published. -/
def State.powerOn (c : Config) : State :=
  { config := c
    regs := Vector.replicate 8 0#8
    pc := 0#8
    carry := false
    bankSelector := 0#8
    colorPaletteId := 0#8
    callStack := []
    pending := none
    suppressed := false
    memory := []
    videoMemory := []
    trace := [] }

/-- The machine right after reset, with the default configuration (70_reset_and_hazards.md rules
R261, R264; 00_scope.md rule R10). -/
def State.reset : State := State.powerOn Config.default

end Sys2Proof.Machine
end

