-- ==== Sys2Proof/Machine/Ops.lean ====
section
/-! DEFINITION. The named operations over registers, memories, the call stack, the program counter and
the event trace: the pseudocode primitives of 00_scope.md rule R16, each with the event it publishes
(10_state.md rule R36). -/

namespace Sys2Proof.Machine

/-! ## Byte spaces -/

/-- The byte at address `a`; an address that is not listed reads as 0 (10_state.md rule R43). -/
def Memory.read : Memory → Nat → Byte
  | [], _ => 0#8
  | (k, w) :: rest, a => if k = a then w else Memory.read rest a

/-- Writes `v` at address `a`, keeping the canonical form: writing 0 removes the entry. -/
def Memory.write : Memory → Nat → Byte → Memory
  | [], a, v => if v = 0#8 then [] else [(a, v)]
  | (k, w) :: rest, a, v =>
    if a < k then
      if v = 0#8 then (k, w) :: rest else (a, v) :: (k, w) :: rest
    else if a = k then
      if v = 0#8 then rest else (a, v) :: rest
    else (k, w) :: Memory.write rest a v

/-- The memory that holds `bytes` from address `a` on and 0 elsewhere, in canonical form. -/
def Memory.ofBytesFrom (a : Nat) : List Byte → Memory
  | [] => []
  | b :: bs =>
    if b = 0#8 then Memory.ofBytesFrom (a + 1) bs else (a, b) :: Memory.ofBytesFrom (a + 1) bs

/-! ## The event trace -/

/-- `emit E` (00_scope.md rule R16): appends one event to the trace (10_state.md rule R35). -/
def State.emit (e : Event) (s : State) : State := { s with trace := s.trace ++ [e] }

/-- `raise K(detail)` (00_scope.md rule R16, 60_exceptions.md rule R232): publishes the Error event.
This is the machine's whole "exception entry": no error saves state, changes mode, masks anything or
transfers control (60_exceptions.md rule R240), so there is nothing to return from (rule R241). The
meaning that raises writes nothing after it; the cycle then completes as usual
(40_decode_execute.md rules R119 to R121). -/
def State.raise (report : ErrorReport) (s : State) : State := s.emit (.error report)

/-! ## Registers, flag, control registers -/

/-- `x[i]` (00_scope.md rule R16). -/
def State.readReg (r : Reg) (s : State) : Byte := s.regs[r]

/-- `x[i] <- v`, publishing RegisterChanged even when the value is unchanged (00_scope.md rule R16,
10_state.md rule R36). -/
def State.writeReg (r : Reg) (v : Byte) (s : State) : State :=
  { s with regs := s.regs.set r.val v r.isLt }.emit (.registerChanged r v)

/-- `carry <- b`; no event (10_state.md rule R36). -/
def State.setCarry (b : Bool) (s : State) : State := { s with carry := b }

/-- `bank_selector <- v`; no event (10_state.md rules R27, R36). -/
def State.setBank (v : Byte) (s : State) : State := { s with bankSelector := v }

/-- `color_palette_id <- v`; no event (10_state.md rules R28, R36). -/
def State.setPalette (v : Byte) (s : State) : State := { s with colorPaletteId := v }

/-! ## Memory accesses -/

/-- `MemRead(a, 1)` (20_memory.md rule R45); no side effect (rule R51). -/
def State.memRead (a : Byte) (s : State) : Byte := s.memory.read a.toNat

/-- `MemWrite(a, 1, v)`, publishing MemoryChanged (20_memory.md rule R45). -/
def State.memWrite (a v : Byte) (s : State) : State :=
  { s with memory := s.memory.write a.toNat v }.emit (.memoryChanged a v)

/-- `VidRead(a, 1)` (20_memory.md rule R45). -/
def State.vidRead (a : Byte) (s : State) : Byte := s.videoMemory.read a.toNat

/-- `VidWrite(a, 1, v)`; no event (20_memory.md rule R45, 10_state.md rule R36). -/
def State.vidWrite (a v : Byte) (s : State) : State :=
  { s with videoMemory := s.videoMemory.write a.toNat v }

/-! ## The program counter -/

/-- `pc <- t`, publishing ProgramCounterChanged (00_scope.md rule R16). -/
def State.writePc (t : Byte) (s : State) : State :=
  { s with pc := t }.emit (.programCounterChanged t)

/-- `suppress_advance()` (00_scope.md rule R16, 40_decode_execute.md rule R121). -/
def State.suppressAdvance (s : State) : State := { s with suppressed := true }

/-- A taken control transfer: `suppress_advance(); pc <- t` (45_control.md rule R201). -/
def State.transferTo (t : Byte) (s : State) : State := s.suppressAdvance.writePc t

/-- `start`: the address the executing instruction's opcode was read from, the pending instruction's
`position` (00_scope.md rule R16). Without a pending instruction, which no cycle has while it
executes, it is `pc` (log 8). -/
def State.start (s : State) : Byte :=
  match s.pending with
  | some p => p.position
  | none => s.pc

/-! ## The call stack -/

/-- `push(v)` (10_state.md rule R31); `none` is CallStackOverflow, which changes nothing. A stack
that no run reaches, longer than the depth, counts as full (log 14). -/
def State.push (v : Byte) (s : State) : Option State :=
  if s.config.callStackDepth ≤ s.callStack.length then none
  else some { s with callStack := s.callStack ++ [v] }

/-- `pop()` (10_state.md rule R31); `none` is CallStackUnderflow, which changes nothing. -/
def State.pop (s : State) : Option (Byte × State) :=
  match s.callStack.getLast? with
  | none => none
  | some v => some (v, { s with callStack := s.callStack.dropLast })

/-! ## Error kinds -/

/-- The error kinds of 60_exceptions.md rule R233. -/
inductive ErrorKind where
  | decodeError
  | operandError
  | divideByZero
  | callStackOverflow
  | callStackUnderflow
  deriving DecidableEq, Repr

/-- The engine's three error classes (60_exceptions.md rule R231). -/
inductive ErrorClass where
  | decodeError
  | operandError
  | runtimeError
  deriving DecidableEq, Repr

/-- The numeric codes of 60_exceptions.md rule R233 (the spec's labels for a model's enumeration). -/
def ErrorKind.code : ErrorKind → Nat
  | .decodeError => 0
  | .operandError => 1
  | .divideByZero => 2
  | .callStackOverflow => 3
  | .callStackUnderflow => 4

/-- The class of an error kind (60_exceptions.md rules R231, R233). -/
def ErrorKind.errorClass : ErrorKind → ErrorClass
  | .decodeError => .decodeError
  | .operandError => .operandError
  | .divideByZero => .runtimeError
  | .callStackOverflow => .runtimeError
  | .callStackUnderflow => .runtimeError

/-- The kind an Error event carries (60_exceptions.md rule R233). -/
def ErrorReport.kind : ErrorReport → ErrorKind
  | .operandError _ _ _ _ => .operandError
  | .divideByZero _ _ => .divideByZero
  | .callStackOverflow _ _ _ => .callStackOverflow
  | .callStackUnderflow _ _ => .callStackUnderflow

/-- The error an event reports, if any: InvalidByteParsed reports a DecodeError, an Error event its
kind (60_exceptions.md rules R233, R237). -/
def Event.errorKind : Event → Option ErrorKind
  | .invalidByteParsed _ _ => some .decodeError
  | .error report => some report.kind
  | .memoryChanged _ _ => none
  | .registerChanged _ _ => none
  | .programCounterChanged _ => none
  | .instructionParseBegun _ _ => none
  | .parameterParsed _ _ _ => none
  | .instructionExecuted _ => none
  | .printRequested _ => none
  | .reset => none

end Sys2Proof.Machine
end

