-- ==== Sys2Proof/Machine/Flags.lean ====
section
/-! DEFINITION. The results and the carry of every arithmetic, logic, shift and compare operation, on
the values alone: `a` is the destination's (or the first operand's) value before the write, `b` the
source's (42_arithmetic.md rules R160, R170; 43_logic.md; 44_compare_carry.md).

The exact result is computed on natural numbers and narrowed modulo 256 at the end (rule R160). -/

namespace Sys2Proof.Machine

/-- The low byte of an exact result, `t mod 256` (42_arithmetic.md rule R160). -/
def narrow (t : Nat) : Byte := BitVec.ofNat 8 t

/-- ADD's result (42_arithmetic.md rules R161, R162). -/
def addResult (a b : Byte) : Byte := narrow (a.toNat + b.toNat)

/-- ADD's carry: the exact sum is at least 256 (10_state.md rule R26). -/
def addCarry (a b : Byte) : Bool := decide (256 ≤ a.toNat + b.toNat)

/-- SUB's result, `a - b` modulo 256 (42_arithmetic.md rules R163, R164). -/
def subResult (a b : Byte) : Byte := narrow (a.toNat + 256 - b.toNat)

/-- SUB's carry, the borrow: the subtrahend exceeds the minuend (10_state.md rule R26). -/
def subBorrow (a b : Byte) : Bool := decide (a.toNat < b.toNat)

/-- MUL's result, the low byte of the product (42_arithmetic.md rule R165). -/
def mulResult (a b : Byte) : Byte := narrow (a.toNat * b.toNat)

/-- MUL's carry: the exact product is at least 256 (10_state.md rule R26). -/
def mulCarry (a b : Byte) : Bool := decide (256 ≤ a.toNat * b.toNat)

/-- DIV's unsigned quotient, for a nonzero divisor `b` (42_arithmetic.md rule R166). -/
def divResult (a b : Byte) : Byte := narrow (a.toNat / b.toNat)

/-- MOD's unsigned remainder, for a nonzero divisor `b` (42_arithmetic.md rule R167). -/
def modResult (a b : Byte) : Byte := narrow (a.toNat % b.toNat)

/-- INC's result (42_arithmetic.md rule R168). -/
def incResult (a : Byte) : Byte := narrow (a.toNat + 1)

/-- INC's carry: the old value was 255 (42_arithmetic.md rule R168). -/
def incCarry (a : Byte) : Bool := decide (a.toNat = 255)

/-- DEC's result, `x + 255` modulo 256 (42_arithmetic.md rule R169). -/
def decResult (a : Byte) : Byte := narrow (a.toNat + 255)

/-- DEC's carry, the borrow: the old value was 0 (42_arithmetic.md rule R169). -/
def decBorrow (a : Byte) : Bool := decide (a.toNat = 0)

/-- AND, bit by bit (43_logic.md rules R171, R172). -/
def andResult (a b : Byte) : Byte := a &&& b

/-- OR, bit by bit (43_logic.md rules R171, R173). -/
def orResult (a b : Byte) : Byte := a ||| b

/-- XOR, bit by bit (43_logic.md rules R171, R174). -/
def xorResult (a b : Byte) : Byte := a ^^^ b

/-- NOT, `255 - x` (43_logic.md rule R175). -/
def notResult (a : Byte) : Byte := narrow (255 - a.toNat)

/-- SHL's result, `x * 2` modulo 256 (43_logic.md rule R177). -/
def shlResult (a : Byte) : Byte := narrow (a.toNat * 2)

/-- SHL's carry, the old bit 7 (43_logic.md rule R177). -/
def shlCarry (a : Byte) : Bool := a.getLsbD 7

/-- SHR's result, `floor(x / 2)` (43_logic.md rule R178). -/
def shrResult (a : Byte) : Byte := narrow (a.toNat / 2)

/-- SHR's carry, the old bit 0 (43_logic.md rule R178). -/
def shrCarry (a : Byte) : Bool := a.getLsbD 0

/-- EQ's truth value (44_compare_carry.md rules R182, R183). -/
def eqTruth (a b : Byte) : Bool := decide (a.toNat = b.toNat)

/-- LT's truth value, unsigned (44_compare_carry.md rules R181, R184, R185). -/
def ltTruth (a b : Byte) : Bool := decide (a.toNat < b.toNat)

/-- GT's truth value, unsigned (44_compare_carry.md rules R181, R186, R187). -/
def gtTruth (a b : Byte) : Bool := decide (b.toNat < a.toNat)

end Sys2Proof.Machine
end

