-- ==== Sys2Proof/Machine/Operands.lean ====
section
/-! DEFINITION. The operand forms of 41_data_movement.md rule R155: the value or the effective address
each addressing mode gives in a state, and the loads and stores over an effective address.

There is no displacement, scaling or base update (rule R155). A value is read before the instruction
writes (rule R141, 00_scope.md rule R17). -/

namespace Sys2Proof.Machine

/-- Register mode: the value of `x[r]` (41_data_movement.md rule R155). -/
def valueRegister (r : Reg) (s : State) : Byte := s.readReg r

/-- Immediate mode: the constant itself, in any state (41_data_movement.md rule R155). -/
def valueConstant (c : Byte) (_ : State) : Byte := c

/-- Absolute mode: the effective address is the operand byte (41_data_movement.md rule R155). -/
def addressAbsolute (m : Byte) (_ : State) : Byte := m

/-- Register-indirect mode: the effective address is `x[r]` (41_data_movement.md rule R155). -/
def addressIndirect (r : Reg) (s : State) : Byte := s.readReg r

/-- `x[d] <- v` for a value read in the state before the write (41_data_movement.md rule R141). -/
def moveToRegister (rd : Reg) (value : State → Byte) (s : State) : State :=
  s.writeReg rd (value s)

/-- `x[d] <- MemRead(ea, 1)`. -/
def loadMain (rd : Reg) (address : State → Byte) (s : State) : State :=
  s.writeReg rd (s.memRead (address s))

/-- `MemWrite(ea, 1, v)`. -/
def storeMain (address value : State → Byte) (s : State) : State :=
  s.memWrite (address s) (value s)

/-- `x[d] <- VidRead(ea, 1)`. -/
def loadVideo (rd : Reg) (address : State → Byte) (s : State) : State :=
  s.writeReg rd (s.vidRead (address s))

/-- `VidWrite(ea, 1, v)`. -/
def storeVideo (address value : State → Byte) (s : State) : State :=
  s.vidWrite (address s) (value s)

end Sys2Proof.Machine
end

