-- ==== Sys2Proof/Machine/Arithmetic.lean ====
section
/-! DEFINITION. Arithmetic: ADD, SUB, MUL, DIV, MOD, INC, DEC (42_arithmetic.md). The destination is the
last register operand and none suppresses the advance (rule R160). -/

namespace Sys2Proof.Machine

/-- `x[d] <- result(x[d], v); carry <- flag(x[d], v)`, both computed on the values before the write
(42_arithmetic.md rules R161 to R165). -/
def arithmetic (result : Byte → Byte → Byte) (flag : Byte → Byte → Bool) (rd : Reg)
    (value : State → Byte) (s : State) : State :=
  (s.writeReg rd (result (s.readReg rd) (value s))).setCarry (flag (s.readReg rd) (value s))

/-- `x[d] <- result(x[d]); carry <- flag(x[d])` on the value before the write (42_arithmetic.md rules
R168, R169; 43_logic.md rules R177, R178). -/
def unaryWithCarry (result : Byte → Byte) (flag : Byte → Bool) (rd : Reg) (s : State) : State :=
  (s.setCarry (flag (s.readReg rd))).writeReg rd (result (s.readReg rd))

/-- `if x[s] = 0 then raise DivideByZero; x[d] <- result(x[d], x[s])`, carry unchanged
(42_arithmetic.md rules R166, R167). -/
def division (opcode : Byte) (result : Byte → Byte → Byte) (rs rd : Reg) (s : State) : State :=
  if s.readReg rs = 0#8 then s.raise (.divideByZero opcode s.start)
  else s.writeReg rd (result (s.readReg rd) (s.readReg rs))

/-- `ADD Rs Rd` (42_arithmetic.md rule R161). -/
def execAddReg (rs rd : Reg) (s : State) : Result :=
  .next (arithmetic addResult addCarry rd (valueRegister rs) s)

/-- `ADD NUMc Rd` (42_arithmetic.md rule R162). -/
def execAddConst (c : Byte) (rd : Reg) (s : State) : Result :=
  .next (arithmetic addResult addCarry rd (valueConstant c) s)

/-- `SUB Rs Rd` (42_arithmetic.md rule R163). -/
def execSubReg (rs rd : Reg) (s : State) : Result :=
  .next (arithmetic subResult subBorrow rd (valueRegister rs) s)

/-- `SUB NUMc Rd` (42_arithmetic.md rule R164). -/
def execSubConst (c : Byte) (rd : Reg) (s : State) : Result :=
  .next (arithmetic subResult subBorrow rd (valueConstant c) s)

/-- `MUL Rs Rd` (42_arithmetic.md rule R165). -/
def execMulReg (rs rd : Reg) (s : State) : Result :=
  .next (arithmetic mulResult mulCarry rd (valueRegister rs) s)

/-- `DIV Rs Rd`, unsigned quotient (42_arithmetic.md rule R166). -/
def execDivReg (rs rd : Reg) (s : State) : Result :=
  .next (division 0x25#8 divResult rs rd s)

/-- `MOD Rs Rd`, unsigned remainder (42_arithmetic.md rule R167). -/
def execModReg (rs rd : Reg) (s : State) : Result :=
  .next (division 0x26#8 modResult rs rd s)

/-- `INC Rd` (42_arithmetic.md rule R168). -/
def execInc (rd : Reg) (s : State) : Result :=
  .next (unaryWithCarry incResult incCarry rd s)

/-- `DEC Rd` (42_arithmetic.md rule R169). -/
def execDec (rd : Reg) (s : State) : Result :=
  .next (unaryWithCarry decResult decBorrow rd s)

end Sys2Proof.Machine
end

