-- ==== Sys2Proof/Machine/CompareCarry.lean ====
section
/-! DEFINITION. Compares and carry control: EQ, LT, GT, SETC, CLRC (44_compare_carry.md). A compare
writes only carry (rule R181). -/

namespace Sys2Proof.Machine

/-- `carry <- truth(x[a], v)`; writes nothing else (44_compare_carry.md rule R181). -/
def compareOp (truth : Byte → Byte → Bool) (ra : Reg) (value : State → Byte) (s : State) : State :=
  s.setCarry (truth (s.readReg ra) (value s))

/-- `EQ Ra Rb` (44_compare_carry.md rule R182). -/
def execEqReg (ra rb : Reg) (s : State) : Result := .next (compareOp eqTruth ra (valueRegister rb) s)

/-- `EQ Ra NUMc` (44_compare_carry.md rule R183). -/
def execEqConst (ra : Reg) (c : Byte) (s : State) : Result :=
  .next (compareOp eqTruth ra (valueConstant c) s)

/-- `LT Ra Rb` (44_compare_carry.md rule R184). -/
def execLtReg (ra rb : Reg) (s : State) : Result := .next (compareOp ltTruth ra (valueRegister rb) s)

/-- `LT Ra NUMc` (44_compare_carry.md rule R185). -/
def execLtConst (ra : Reg) (c : Byte) (s : State) : Result :=
  .next (compareOp ltTruth ra (valueConstant c) s)

/-- `GT Ra Rb` (44_compare_carry.md rule R186). -/
def execGtReg (ra rb : Reg) (s : State) : Result := .next (compareOp gtTruth ra (valueRegister rb) s)

/-- `GT Ra NUMc` (44_compare_carry.md rule R187). -/
def execGtConst (ra : Reg) (c : Byte) (s : State) : Result :=
  .next (compareOp gtTruth ra (valueConstant c) s)

/-- `SETC`: `carry <- true` (44_compare_carry.md rule R188). -/
def execSetc (s : State) : Result := .next (s.setCarry true)

/-- `CLRC`: `carry <- false` (44_compare_carry.md rule R189). -/
def execClrc (s : State) : Result := .next (s.setCarry false)

end Sys2Proof.Machine
end

