-- ==== Sys2Proof/Machine/Control.lean ====
section
/-! DEFINITION. Control transfer: JMP, JC, JNC, CALL, RET (45_control.md). A taken transfer suppresses
the advance and writes pc (rule R201); none writes carry or a general register. During a meaning `pc`
is the address of the instruction's final byte (10_state.md rule R24). -/

namespace Sys2Proof.Machine

/-- A transfer taken only when `taken` holds; otherwise nothing is written and no event is published
(45_control.md rules R204, R205). -/
def transferIf (taken : Bool) (t : Byte) (s : State) : State := if taken then s.transferTo t else s

/-- `JMP t` (45_control.md rule R202). -/
def execJmp (t : Byte) (s : State) : Result := .next (s.transferTo t)

/-- `JMP Rr`: the target is `x[r]` (45_control.md rule R203). -/
def execJmpReg (rr : Reg) (s : State) : Result := .next (s.transferTo (valueRegister rr s))

/-- `JC t`: taken when carry is true (45_control.md rule R204). -/
def execJc (t : Byte) (s : State) : Result := .next (transferIf s.carry t s)

/-- `JNC t`: taken when carry is false (45_control.md rule R205). -/
def execJnc (t : Byte) (s : State) : Result := .next (transferIf (!s.carry) t s)

/-- The return address of a CALL, the address after its last byte (45_control.md rule R206). -/
def returnAddress (s : State) : Byte := s.pc + 1#8

/-- `CALL t` (45_control.md rules R206, R207): at maximum depth it raises CallStackOverflow before
`suppress_advance()` and writes nothing. -/
def execCall (t : Byte) (s : State) : Result :=
  match s.push (returnAddress s) with
  | none => .next (s.raise (.callStackOverflow 0x54#8 s.start s.config.callStackDepth))
  | some s' => .next (s'.transferTo t)

/-- `RET` (45_control.md rules R208, R209): it suppresses the advance before it pops, so on an empty
stack it raises CallStackUnderflow and pc stays at the RET. -/
def execRet (s : State) : Result :=
  match s.suppressAdvance.pop with
  | none => .next (s.suppressAdvance.raise (.callStackUnderflow 0x55#8 s.start))
  | some (v, s') => .next (s'.writePc v)

end Sys2Proof.Machine
end

