-- ==== Sys2Proof/Machine/DataMovement.lean ====
section
/-! DEFINITION. Data movement: the seven MOV forms and the five VMOV forms (41_data_movement.md). None
writes carry, suppresses the advance or raises (rule R141). -/

namespace Sys2Proof.Machine

/-- `MOV Rs Rd`: `x[d] <- x[s]` (41_data_movement.md rule R142). -/
def execMovRegReg (rs rd : Reg) (s : State) : Result :=
  .next (moveToRegister rd (valueRegister rs) s)

/-- `MOV NUMc Rd`: `x[d] <- c` (41_data_movement.md rule R143). -/
def execMovConstReg (c : Byte) (rd : Reg) (s : State) : Result :=
  .next (moveToRegister rd (valueConstant c) s)

/-- `MOV [m] Rd`: `x[d] <- MemRead(m, 1)` (41_data_movement.md rule R144). -/
def execMovMemReg (m : Byte) (rd : Reg) (s : State) : Result :=
  .next (loadMain rd (addressAbsolute m) s)

/-- `MOV Rs [m]`: `MemWrite(m, 1, x[s])` (41_data_movement.md rule R145). -/
def execMovRegMem (rs : Reg) (m : Byte) (s : State) : Result :=
  .next (storeMain (addressAbsolute m) (valueRegister rs) s)

/-- `MOV NUMc [m]`: `MemWrite(m, 1, c)` (41_data_movement.md rule R146). -/
def execMovConstMem (c m : Byte) (s : State) : Result :=
  .next (storeMain (addressAbsolute m) (valueConstant c) s)

/-- `MOV [Ra] Rd`: `x[d] <- MemRead(x[a], 1)` (41_data_movement.md rule R147). -/
def execMovIndReg (ra rd : Reg) (s : State) : Result :=
  .next (loadMain rd (addressIndirect ra) s)

/-- `MOV Rs [Ra]`: `MemWrite(x[a], 1, x[s])` (41_data_movement.md rule R148). -/
def execMovRegInd (rs ra : Reg) (s : State) : Result :=
  .next (storeMain (addressIndirect ra) (valueRegister rs) s)

/-- `VMOV [m] Rd`: `x[d] <- VidRead(m, 1)` (41_data_movement.md rule R150). -/
def execVmovMemReg (m : Byte) (rd : Reg) (s : State) : Result :=
  .next (loadVideo rd (addressAbsolute m) s)

/-- `VMOV Rs [m]`: `VidWrite(m, 1, x[s])` (41_data_movement.md rule R151). -/
def execVmovRegMem (rs : Reg) (m : Byte) (s : State) : Result :=
  .next (storeVideo (addressAbsolute m) (valueRegister rs) s)

/-- `VMOV NUMc [m]`: `VidWrite(m, 1, c)` (41_data_movement.md rule R152). -/
def execVmovConstMem (c m : Byte) (s : State) : Result :=
  .next (storeVideo (addressAbsolute m) (valueConstant c) s)

/-- `VMOV [Ra] Rd`: `x[d] <- VidRead(x[a], 1)` (41_data_movement.md rule R153). -/
def execVmovIndReg (ra rd : Reg) (s : State) : Result :=
  .next (loadVideo rd (addressIndirect ra) s)

/-- `VMOV Rs [Ra]`: `VidWrite(x[a], 1, x[s])` (41_data_movement.md rule R154). -/
def execVmovRegInd (rs ra : Reg) (s : State) : Result :=
  .next (storeVideo (addressIndirect ra) (valueRegister rs) s)

end Sys2Proof.Machine
end

