-- ==== Sys2Proof/Machine/Logic.lean ====
section
/-! DEFINITION. Logic and shifts: AND, OR, XOR, NOT, SHL, SHR (43_logic.md). None suppresses the
advance or raises (rule R171); the bitwise four leave carry unchanged (rule R176). -/

namespace Sys2Proof.Machine

/-- `x[d] <- result(x[d], x[s])`, carry unchanged (43_logic.md rules R172 to R174, R176). -/
def bitwise (result : Byte → Byte → Byte) (rs rd : Reg) (s : State) : State :=
  s.writeReg rd (result (s.readReg rd) (s.readReg rs))

/-- `AND Rs Rd` (43_logic.md rule R172). -/
def execAndReg (rs rd : Reg) (s : State) : Result := .next (bitwise andResult rs rd s)

/-- `OR Rs Rd` (43_logic.md rule R173). -/
def execOrReg (rs rd : Reg) (s : State) : Result := .next (bitwise orResult rs rd s)

/-- `XOR Rs Rd` (43_logic.md rule R174). -/
def execXorReg (rs rd : Reg) (s : State) : Result := .next (bitwise xorResult rs rd s)

/-- `NOT Rd`: `x[d] <- 255 - x[d]` (43_logic.md rule R175). -/
def execNotReg (rd : Reg) (s : State) : Result :=
  .next (s.writeReg rd (notResult (s.readReg rd)))

/-- `SHL Rd` (43_logic.md rule R177). -/
def execShl (rd : Reg) (s : State) : Result :=
  .next (unaryWithCarry shlResult shlCarry rd s)

/-- `SHR Rd` (43_logic.md rule R178). -/
def execShr (rd : Reg) (s : State) : Result :=
  .next (unaryWithCarry shrResult shrCarry rd s)

end Sys2Proof.Machine
end

