-- ==== Sys2Proof/Machine/System.lean ====
section
/-! DEFINITION. System instructions: NOP, PRINT, BANK, PALETTE (46_system.md). None writes carry, a
general register or memory, suppresses the advance or raises (rule R211). -/

namespace Sys2Proof.Machine

/-- The ASCII digit of a number below 10. -/
def digit (n : Nat) : Char := Char.ofNat (48 + n)

/-- The decimal digits of a byte, without leading zeros (46_system.md rule R214). -/
def decimalDigits (v : Byte) : List Char :=
  let n := v.toNat
  if n < 10 then [digit n]
  else if n < 100 then [digit (n / 10), digit (n % 10)]
  else [digit (n / 100), digit (n / 10 % 10), digit (n % 10)]

/-- `decimal(v)` of 46_system.md rule R214: the unsigned decimal numeral in ASCII digits
(log 11). -/
def decimal (v : Byte) : String := String.ofList (decimalDigits v)

/-- `NOP`: nothing (46_system.md rule R212). -/
def execNop (s : State) : Result := .next s

/-- `PRINT Rr`: `emit PrintRequested{text = decimal(x[r])}` (46_system.md rule R213). -/
def execPrint (rr : Reg) (s : State) : Result :=
  .next (s.emit (.printRequested (decimal (valueRegister rr s))))

/-- `BANK NUMc`: `bank_selector <- c` (46_system.md rule R216). -/
def execBank (c : Byte) (s : State) : Result := .next (s.setBank (valueConstant c s))

/-- `PALETTE NUMc`: `color_palette_id <- c` (46_system.md rule R217). -/
def execPalette (c : Byte) (s : State) : Result := .next (s.setPalette (valueConstant c s))

end Sys2Proof.Machine
end

