-- ==== Sys2Proof/Machine/Dispatch.lean ====
section
/-! DEFINITION. The execute stage: which meaning each instruction has, one arm per constructor
(40_decode_execute.md rule R118). -/

namespace Sys2Proof.Machine

def exec (i : Instr) (s : State) : Host.Outcome State Fault Refusal :=
  match i with
  | .nop => Sys2Proof.Machine.execNop s
  | .movRegReg rs rd => Sys2Proof.Machine.execMovRegReg rs rd s
  | .movConstReg c rd => Sys2Proof.Machine.execMovConstReg c rd s
  | .movMemReg m rd => Sys2Proof.Machine.execMovMemReg m rd s
  | .movRegMem rs m => Sys2Proof.Machine.execMovRegMem rs m s
  | .movConstMem c m => Sys2Proof.Machine.execMovConstMem c m s
  | .movIndReg ra rd => Sys2Proof.Machine.execMovIndReg ra rd s
  | .movRegInd rs ra => Sys2Proof.Machine.execMovRegInd rs ra s
  | .vmovMemReg m rd => Sys2Proof.Machine.execVmovMemReg m rd s
  | .vmovRegMem rs m => Sys2Proof.Machine.execVmovRegMem rs m s
  | .vmovConstMem c m => Sys2Proof.Machine.execVmovConstMem c m s
  | .vmovIndReg ra rd => Sys2Proof.Machine.execVmovIndReg ra rd s
  | .vmovRegInd rs ra => Sys2Proof.Machine.execVmovRegInd rs ra s
  | .addReg rs rd => Sys2Proof.Machine.execAddReg rs rd s
  | .addConst c rd => Sys2Proof.Machine.execAddConst c rd s
  | .subReg rs rd => Sys2Proof.Machine.execSubReg rs rd s
  | .subConst c rd => Sys2Proof.Machine.execSubConst c rd s
  | .mulReg rs rd => Sys2Proof.Machine.execMulReg rs rd s
  | .divReg rs rd => Sys2Proof.Machine.execDivReg rs rd s
  | .modReg rs rd => Sys2Proof.Machine.execModReg rs rd s
  | .inc rd => Sys2Proof.Machine.execInc rd s
  | .dec rd => Sys2Proof.Machine.execDec rd s
  | .andReg rs rd => Sys2Proof.Machine.execAndReg rs rd s
  | .orReg rs rd => Sys2Proof.Machine.execOrReg rs rd s
  | .xorReg rs rd => Sys2Proof.Machine.execXorReg rs rd s
  | .notReg rd => Sys2Proof.Machine.execNotReg rd s
  | .shl rd => Sys2Proof.Machine.execShl rd s
  | .shr rd => Sys2Proof.Machine.execShr rd s
  | .eqReg ra rb => Sys2Proof.Machine.execEqReg ra rb s
  | .eqConst ra c => Sys2Proof.Machine.execEqConst ra c s
  | .ltReg ra rb => Sys2Proof.Machine.execLtReg ra rb s
  | .ltConst ra c => Sys2Proof.Machine.execLtConst ra c s
  | .gtReg ra rb => Sys2Proof.Machine.execGtReg ra rb s
  | .gtConst ra c => Sys2Proof.Machine.execGtConst ra c s
  | .setc => Sys2Proof.Machine.execSetc s
  | .clrc => Sys2Proof.Machine.execClrc s
  | .jmp t => Sys2Proof.Machine.execJmp t s
  | .jmpReg rr => Sys2Proof.Machine.execJmpReg rr s
  | .jc t => Sys2Proof.Machine.execJc t s
  | .jnc t => Sys2Proof.Machine.execJnc t s
  | .call t => Sys2Proof.Machine.execCall t s
  | .ret => Sys2Proof.Machine.execRet s
  | .print rr => Sys2Proof.Machine.execPrint rr s
  | .bank c => Sys2Proof.Machine.execBank c s
  | .palette c => Sys2Proof.Machine.execPalette c s

end Sys2Proof.Machine
end

