-- ==== Sys2Proof/WellFormed.lean ====
section
/-! DEFINITION. Which raw instructions are well-formed: the checks of 30_encoding.md rules R73, R74
and R77 on an opcode byte and its operand bytes, and the check of rule R78 on a ROM.

`Instr` itself cannot hold a register index above 7 (`Reg` is `Fin 8`), so the checks are about the
bytes an instruction is read from; `Instr.wellFormed` is the same check on the bytes of `i`. -/

namespace Sys2Proof

/-- Every operand byte is accepted by the kind at its position, and there is one byte per kind. -/
def operandsAccepted : List OperandKind → List Byte → Bool
  | [], [] => true
  | k :: ks, b :: bs => accepts k b && operandsAccepted ks bs
  | _, _ => false

/-- A raw instruction is well-formed when its opcode is bound, it has exactly `n` operand bytes, and
each is accepted by its kind (30_encoding.md rules R73, R74, R77). -/
def RawInstr.wellFormed (r : RawInstr) : Bool :=
  match lookup r.opcode with
  | none => false
  | some d => operandsAccepted d.kinds r.operands

/-- The same check on an instruction's own bytes. -/
def Instr.wellFormed (i : Instr) : Bool := i.raw.wellFormed

/-- A ROM is a valid configuration when no opcode is bound twice and no descriptor has more than two
operands (30_encoding.md rules R76, R78; 00_scope.md rule R12). -/
def romValid (rows : List (Byte × Descriptor)) : Bool :=
  (rows.all fun row => decide (row.2.n ≤ 2)) &&
    (match constructRom [] rows with
     | .ok _ => true
     | .error _ => false)

end Sys2Proof
end

