-- ==== Sys2Proof/Machine/Cycle.lean ====
section
/-! DEFINITION. The decode/execute cycle (40_decode_execute.md): one call consumes exactly one byte
(rule R111). The parts follow the pseudocode of rule R123. -/

namespace Sys2Proof.Machine

/-! ## The decoder state -/

/-- The decoder's two phases between cycles (10_state.md rule R33). The source's third phase, Ready,
never persists between cycles. -/
inductive Phase where
  | idle
  | collecting
  deriving DecidableEq, Repr

/-- The phase of a state (10_state.md rule R33). -/
def State.phase (s : State) : Phase :=
  match s.pending with
  | none => .idle
  | some _ => .collecting

/-- `desc`, the ROM entry of the pending opcode (10_state.md rule R33). -/
def Pending.desc (p : Pending) : Option Descriptor := lookup p.opcode

/-- `n`, the number of operand bytes required (10_state.md rule R33). -/
def Pending.n (p : Pending) : Nat :=
  match p.desc with
  | none => 0
  | some d => d.n

/-- `desc.kinds[len(collected)]`, the kind the next operand byte is expected to have
(40_decode_execute.md rule R115). -/
def Pending.expectedKind (p : Pending) : Option OperandKind :=
  match p.desc with
  | none => none
  | some d => d.kinds[p.collected.length]?

/-- The instruction a pending instruction has become once its last operand is collected; the bytes are
the latched ones (20_memory.md rule R58), read by the one decoder of Sys2Proof/Decode.lean. -/
def Pending.instr (p : Pending) : Option Instr :=
  match decode (p.opcode :: p.collected) with
  | .ok (i, []) => some i
  | _ => none

/-- 40_decode_execute.md rule R124 on a pending instruction: fewer operands collected than required,
and every collected byte accepted by the kind at its position. -/
def Pending.ok (p : Pending) : Bool :=
  match p.desc with
  | none => false
  | some d =>
    decide (p.collected.length < d.n) &&
      operandsAccepted (d.kinds.take p.collected.length) p.collected

/-- 40_decode_execute.md rule R124 on the decoder state. -/
def State.decoderOk (s : State) : Bool :=
  match s.pending with
  | none => true
  | some p => p.ok

/-! ## The parts of a cycle -/

/-- The end-of-cycle advance (40_decode_execute.md rule R121). It also lowers the suppress flag, so
that the flag is down between cycles (log 5). -/
def State.endCycle (s : State) : State :=
  if s.suppressed then { s with suppressed := false } else s.writePc (s.pc + 1#8)

/-- After the semantics, normally or by a raise: publish InstructionExecuted, discard the pending
instruction (40_decode_execute.md rule R119), then the advance. -/
def State.finishInstr (opcode : Byte) (s : State) : State :=
  { s.emit (.instructionExecuted opcode) with pending := none }.endCycle

/-- A pending instruction `{opcode = b, collected = [], position = pc}` is created and
InstructionParseBegun published (40_decode_execute.md rule R113). -/
def State.beginInstr (b : Byte) (s : State) : State :=
  { s with pending := some ⟨b, [], s.pc⟩ }.emit (.instructionParseBegun b s.pc)

/-- The accepted byte is appended to `collected` and ParameterParsed published
(40_decode_execute.md rule R116). -/
def State.collect (p : Pending) (k : OperandKind) (b : Byte) (s : State) : State :=
  { s with pending := some { p with collected := p.collected ++ [b] } }.emit
    (.parameterParsed k b s.pc)

/-- The rejected byte: the OperandError is published and the pending instruction discarded
(40_decode_execute.md rule R117). -/
def State.rejectOperand (p : Pending) (k : OperandKind) (b : Byte) (s : State) : State :=
  { s.raise (.operandError p.opcode b k s.pc) with pending := none }

/-- Execution of a complete instruction, in the cycle of its last byte, followed by what comes after
it (40_decode_execute.md rules R118, R119, R121). -/
def execute (p : Pending) (s : State) : Result :=
  match p.instr with
  | none => .fault .decoderCorrupt
  | some i =>
    match exec i s with
    | .next t => .next (t.finishInstr p.opcode)
    | .fault f => .fault f
    | .refused r => .refused r

/-- A cycle in the phase Idle that reads the byte `b` (40_decode_execute.md rules R113, R114). -/
def cycleIdle (b : Byte) (s : State) : Result :=
  match lookup b with
  | none => .next (s.emit (.invalidByteParsed b s.pc)).endCycle
  | some d =>
    if d.n = 0 then execute ⟨b, [], s.pc⟩ (s.beginInstr b)
    else .next (s.beginInstr b).endCycle

/-- A cycle in the phase Collecting that reads the byte `b` (40_decode_execute.md rules R115 to
R117). A pending instruction that expects no operand is a decoder state rule R124 rules out (log 7). -/
def cycleCollecting (p : Pending) (b : Byte) (s : State) : Result :=
  match p.expectedKind with
  | none => .fault .decoderCorrupt
  | some k =>
    if accepts k b then
      if (p.collected ++ [b]).length = p.n then
        execute { p with collected := p.collected ++ [b] } (s.collect p k b)
      else .next (s.collect p k b).endCycle
    else .next (s.rejectOperand p k b).endCycle

/-- The start of a cycle clears the suppress flag (40_decode_execute.md rule R112). -/
def State.beginCycle (s : State) : State := { s with suppressed := false }

/-- The fetch: the byte of main memory at `pc`, as memory stands at the start of the cycle; no event
(40_decode_execute.md rule R112, 20_memory.md rule R57). -/
def State.fetch (s : State) : Byte := s.memRead s.pc

/-- `cycle()`, the block's only step (40_decode_execute.md rules R111, R123). -/
def cycle (s : State) : Result :=
  match s.pending with
  | none => cycleIdle s.fetch s.beginCycle
  | some p => cycleCollecting p s.fetch s.beginCycle

/-! ## The end of a run -/

/-- The self-loop of 40_decode_execute.md rule R127, the end of a run: Idle, and `JMP p` stands at
`p = pc`. Nothing stops there. -/
def State.atSelfLoop (s : State) : Bool :=
  s.pending.isNone && s.memRead s.pc == 0x50#8 && s.memRead (s.pc + 1#8) == s.pc

/-! ## Placing one instruction to be run next -/

/-- Stores bytes at ascending addresses modulo 256 from `a` on (20_memory.md rule R47), without
events: what a load from outside the machine does. -/
def State.placeBytes (a : Byte) : List Byte → State → State
  | [], s => s
  | b :: bs, s =>
    State.placeBytes (a + 1#8) bs { s with memory := s.memory.write a.toNat b }

/-- The decoder as it stands when every byte of an instruction at `a` but its last has been
consumed: `taken` accepted operand bytes collected, pc at the next byte. -/
def State.decoderAt (a opcode : Byte) (taken : List Byte) (s : State) : State :=
  { s with
    pending := some ⟨opcode, taken, a⟩
    pc := a + 1#8 + BitVec.ofNat 8 taken.length
    suppressed := false }

/-- The bytes of a table word placed at `pc`, with the decoder at the instruction's last byte, so that
the very next cycle executes it (log 2). An instruction of one byte, or an unbound byte, is fetched
by the next cycle itself; when the first of two operand bytes is one its kind rejects, the decoder
stands at that byte and the next cycle rejects it. -/
def State.placeInstr (bytes : List Byte) (s : State) : State :=
  let placed := { s.placeBytes s.pc bytes with pending := none, suppressed := false }
  match bytes with
  | [] => placed
  | b :: operands =>
    match lookup b with
    | none => placed
    | some d =>
      match d.kinds, operands with
      | [], _ => placed
      | k :: _ :: _, o :: _ => placed.decoderAt s.pc b (if accepts k o then [o] else [])
      | _, _ => placed.decoderAt s.pc b []

end Sys2Proof.Machine
end

