-- ==== Sys2Proof/Machine/Step.lean ====
section
/-! DEFINITION. The machine's step: one `cycle()`, one byte (40_decode_execute.md rule R111; log 1). -/

namespace Sys2Proof.Machine

/-- One step of the machine is one cycle (40_decode_execute.md rule R111). -/
def step (s : State) : Host.Outcome State Fault Refusal := cycle s

/-- `s` with the instruction of an opcode-table word stored at `pc` and the decoder at its last byte,
so that the next step executes it (log 2). -/
def State.withFetchWord (s : State) (nbits w : Nat) : State := s.placeInstr (tableBytes nbits w)

end Sys2Proof.Machine
end

