-- ==== Sys2Proof/Machine/Assembler.lean ====
section
/-! DEFINITION. The assembler's text form of the encoding (30_encoding.md rules R90 to R99): a total
function from source text to bytes or to an error with its line number. Text is handled as a list of
characters. What the rules leave open (line splitting, which letters, the first line's number, which
of several errors is reported) is log 12. -/

namespace Sys2Proof.Machine.Assembler

/-! ## Errors -/

/-- What an assembly can fail with (30_encoding.md rules R92, R94, R96, R97). -/
inductive ErrorKind where
  /-- A token of no spelling of rules R92 and R93. -/
  | malformedToken
  /-- A numeric literal (or label offset) above 255 (rule R92). -/
  | literalOutOfRange
  /-- A register number 8 or 9 (rule R93). -/
  | registerOutOfRange
  /-- A mnemonic that no row has, or not with these token types (rule R94). -/
  | invalidOperandCombination
  /-- A label declared twice (rule R96). -/
  | duplicateLabel
  /-- A reference to a label that is not declared (rule R96). -/
  | labelNotFound
  /-- An output of more than 256 bytes (rule R97). -/
  | outputTooLong
  deriving DecidableEq, Repr

/-- An error with its source line number, the first line being 1 (30_encoding.md rule R97). -/
structure Error where
  kind : ErrorKind
  line : Nat
  deriving DecidableEq, Repr

/-! ## Characters, lines and tokens -/

/-- A space or a tab (30_encoding.md rules R90, R91). -/
def isBlank (c : Char) : Bool := c == ' ' || c == '\t'

/-- A decimal digit. -/
def isDigit (c : Char) : Bool := decide (48 ≤ c.toNat) && decide (c.toNat ≤ 57)

/-- An ASCII letter (log 12). -/
def isLetter (c : Char) : Bool :=
  (decide (65 ≤ c.toNat) && decide (c.toNat ≤ 90)) ||
    (decide (97 ≤ c.toNat) && decide (c.toNat ≤ 122))

/-- An ASCII letter in upper case; any other character unchanged. -/
def upper (c : Char) : Char :=
  if decide (97 ≤ c.toNat) && decide (c.toNat ≤ 122) then Char.ofNat (c.toNat - 32) else c

/-- The pieces of a text between the characters that `sep` holds for. -/
def splitOn (sep : Char → Bool) : List Char → List (List Char)
  | [] => [[]]
  | c :: cs =>
    if sep c then [] :: splitOn sep cs
    else
      match splitOn sep cs with
      | [] => [[c]]
      | piece :: pieces => (c :: piece) :: pieces

/-- The lines of a source text (30_encoding.md rule R90). -/
def lines (src : List Char) : List (List Char) := splitOn (fun c => c == '\n') src

/-- The tokens of a line, separated by one or more blanks; leading and trailing blanks fall away
(30_encoding.md rules R90, R91). -/
def words (line : List Char) : List (List Char) := (splitOn isBlank line).filter fun w => !w.isEmpty

/-- A label name: a letter or `_`, then letters, digits or `_` (30_encoding.md rule R92). -/
def isLabelName : List Char → Bool
  | [] => false
  | c :: cs => (isLetter c || c == '_') && cs.all fun d => isLetter d || isDigit d || d == '_'

/-! ## Values and operand tokens -/

/-- The value of a digit in base 16 or below, if the character is one. -/
def digitValue (c : Char) : Option Nat :=
  if isDigit c then some (c.toNat - 48)
  else if decide (65 ≤ (upper c).toNat) && decide ((upper c).toNat ≤ 70) then
    some ((upper c).toNat - 55)
  else none

/-- The number a non-empty list of digits of the base writes, after the digits read so far. -/
def digitsValue (base acc : Nat) : List Char → Option Nat
  | [] => some acc
  | c :: cs =>
    match digitValue c with
    | none => none
    | some d => if d < base then digitsValue base (acc * base + d) cs else none

/-- A numeric literal's number: `0x` or `0X` and hexadecimal digits, or decimal digits
(30_encoding.md rule R92). -/
def literalNumber : List Char → Option Nat
  | [] => none
  | '0' :: 'x' :: h :: hs => digitsValue 16 0 (h :: hs)
  | '0' :: 'X' :: h :: hs => digitsValue 16 0 (h :: hs)
  | c :: cs => digitsValue 10 0 (c :: cs)

/-- A literal or a label reference, which may stand anywhere a literal may (30_encoding.md rule
R92). -/
inductive Value where
  | literal (b : Byte)
  | label (name : List Char)
  deriving DecidableEq, Repr

/-- Reads a literal or a label reference (30_encoding.md rule R92). -/
def parseValue : List Char → Except ErrorKind Value
  | ':' :: name => if isLabelName name then .ok (.label name) else .error .malformedToken
  | cs =>
    match literalNumber cs with
    | none => .error .malformedToken
    | some n => if n < 256 then .ok (.literal (BitVec.ofNat 8 n)) else .error .literalOutOfRange

/-- An operand token (30_encoding.md rule R93). -/
inductive Token where
  | constant (v : Value)
  | register (r : Reg)
  | memoryReference (v : Value)
  | registerIndirect (r : Reg)
  | target (v : Value)
  deriving DecidableEq, Repr

/-- The type of an operand token. -/
def Token.type : Token → TokenType
  | .constant _ => .constant
  | .register _ => .register
  | .memoryReference _ => .memoryReference
  | .registerIndirect _ => .registerIndirect
  | .target _ => .target

/-- Whether a text begins as a register token does. -/
def isRegisterLike : List Char → Bool
  | c :: _ => upper c == 'R'
  | [] => false

/-- Reads a register token: `R` or `r` and one digit 0 to 7; 8 and 9 are out of range
(30_encoding.md rule R93). -/
def parseRegister : List Char → Except ErrorKind Reg
  | [_, d] =>
    if isDigit d then
      if h : d.toNat - 48 < 8 then .ok ⟨d.toNat - 48, h⟩ else .error .registerOutOfRange
    else .error .malformedToken
  | _ => .error .malformedToken

/-- Reads what stands inside the brackets of a `[...]` token (30_encoding.md rule R93). -/
def parseBracket (inner : List Char) : Except ErrorKind Token :=
  if isRegisterLike inner then (parseRegister inner).map Token.registerIndirect
  else (parseValue inner).map Token.memoryReference

/-- What follows a `NUM` prefix in any case, if the text has one. -/
def afterNum : List Char → Option (List Char)
  | a :: b :: c :: rest =>
    if upper a == 'N' && upper b == 'U' && upper c == 'M' then some rest else none
  | _ => none

/-- Reads an operand token by its spelling (30_encoding.md rule R93). -/
def parseToken (cs : List Char) : Except ErrorKind Token :=
  match cs with
  | '[' :: rest =>
    if rest.getLast? == some ']' then parseBracket rest.dropLast else .error .malformedToken
  | _ =>
    if isRegisterLike cs then (parseRegister cs).map Token.register
    else
      match afterNum cs with
      | some rest => (parseValue rest).map Token.constant
      | none => (parseValue cs).map Token.target

/-- Reads the operand tokens of a line, left to right. -/
def parseTokens : List (List Char) → Except ErrorKind (List Token)
  | [] => .ok []
  | w :: ws =>
    match parseToken w with
    | .error e => .error e
    | .ok t =>
      match parseTokens ws with
      | .error e => .error e
      | .ok ts => .ok (t :: ts)

/-! ## Lines -/

/-- The ROM row a mnemonic (in any case) and its operands' token types choose, if one does
(30_encoding.md rules R91, R94). -/
def chooseRow (mnemonic : List Char) (types : List TokenType) : Option (Byte × Descriptor) :=
  rom.find? fun row => row.2.mnemonic.toList == mnemonic.map upper && row.2.tokens == types

/-- What one source line is (30_encoding.md rule R90). -/
inductive Line where
  | nothing
  | label (name : List Char)
  | instruction (opcode : Byte) (kinds : List OperandKind) (operands : List Token)
  deriving DecidableEq, Repr

/-- Reads an instruction line from its tokens (30_encoding.md rules R91, R94). -/
def parseInstruction (mnemonic : List Char) (operands : List (List Char)) : Except ErrorKind Line :=
  match parseTokens operands with
  | .error e => .error e
  | .ok ts =>
    match chooseRow mnemonic (ts.map Token.type) with
    | none => .error .invalidOperandCombination
    | some row => .ok (.instruction row.1 row.2.kinds ts)

/-- Reads one line: empty, a comment, a label declaration, otherwise an instruction line
(30_encoding.md rule R90). -/
def parseLine (line : List Char) : Except ErrorKind Line :=
  match words line with
  | [] => .ok .nothing
  | (';' :: _) :: _ => .ok .nothing
  | [':' :: name] =>
    if isLabelName name then .ok (.label name) else parseInstruction (':' :: name) []
  | w :: ws => parseInstruction w ws

/-! ## The two passes -/

/-- Label names with their offsets. -/
abbrev Labels := List (List Char × Nat)

/-- An instruction line of a program. -/
structure Item where
  line : Nat
  opcode : Byte
  kinds : List OperandKind
  operands : List Token
  deriving DecidableEq, Repr

/-- Pass one: offsets of labels, and the instructions in order (30_encoding.md rules R96, R97). The
line number and the offset are those of the next line. -/
def passOne (line offset : Nat) (labels : Labels) :
    List (List Char) → Except Error (Labels × List Item)
  | [] => .ok (labels, [])
  | l :: ls =>
    match parseLine l with
    | .error e => .error ⟨e, line⟩
    | .ok .nothing => passOne (line + 1) offset labels ls
    | .ok (.label name) =>
      if labels.any fun p => p.1 == name then .error ⟨.duplicateLabel, line⟩
      else passOne (line + 1) offset (labels ++ [(name, offset)]) ls
    | .ok (.instruction opcode kinds operands) =>
      if 256 < offset + (1 + kinds.length) then .error ⟨.outputTooLong, line⟩
      else
        match passOne (line + 1) (offset + (1 + kinds.length)) labels ls with
        | .error e => .error e
        | .ok (labels', items) => .ok (labels', ⟨line, opcode, kinds, operands⟩ :: items)

/-- The value of a literal or a label reference (30_encoding.md rules R92, R96). -/
def resolve (labels : Labels) : Value → Except ErrorKind Byte
  | .literal b => .ok b
  | .label name =>
    match labels.find? fun p => p.1 == name with
    | none => .error .labelNotFound
    | some p => if p.2 < 256 then .ok (BitVec.ofNat 8 p.2) else .error .literalOutOfRange

/-- The byte of one operand token (30_encoding.md rules R93, R95). -/
def tokenByte (labels : Labels) : Token → Except ErrorKind Byte
  | .constant v => resolve labels v
  | .memoryReference v => resolve labels v
  | .target v => resolve labels v
  | .register r => .ok (BitVec.ofNat 8 r.val)
  | .registerIndirect r => .ok (BitVec.ofNat 8 r.val)

/-- The register of a token, if it is of a register type. -/
def tokenRegister : Token → Option Reg
  | .register r => some r
  | .registerIndirect r => some r
  | .constant _ => none
  | .memoryReference _ => none
  | .target _ => none

/-- The bytes of operand tokens, one each. -/
def tokenBytes (labels : Labels) : List Token → Except ErrorKind (List Byte)
  | [] => .ok []
  | t :: ts =>
    match tokenByte labels t with
    | .error e => .error e
    | .ok b =>
      match tokenBytes labels ts with
      | .error e => .error e
      | .ok bs => .ok (b :: bs)

/-- The operand bytes of an instruction line: the two register tokens of a pair row are packed into
one byte, first and second in line order; otherwise one byte a token (30_encoding.md rule R95). -/
def operandBytes (labels : Labels) (kinds : List OperandKind) (operands : List Token) :
    Except ErrorKind (List Byte) :=
  match kinds, operands.map tokenRegister with
  | [.registerPair], [some first, some second] => .ok [pairByte first second]
  | _, _ => tokenBytes labels operands

/-- Pass two: the bytes of every instruction, label references replaced (30_encoding.md rule R96). -/
def passTwo (labels : Labels) : List Item → Except Error (List Byte)
  | [] => .ok []
  | item :: items =>
    match operandBytes labels item.kinds item.operands with
    | .error e => .error ⟨e, item.line⟩
    | .ok bs =>
      match passTwo labels items with
      | .error e => .error e
      | .ok rest => .ok (item.opcode :: bs ++ rest)

/-- The assembler: the bytes of a source text, or an error and no output (30_encoding.md rule R97). -/
def assemble (src : List Char) : Except Error (List Byte) :=
  match passOne 1 0 [] (lines src) with
  | .error e => .error e
  | .ok (labels, items) => passTwo labels items

/-! ## The text of an instruction -/

/-- The spelling of a register token (30_encoding.md rule R93). -/
def registerText (r : Reg) : List Char := ['R', digit r.val]

/-- The labels, if any, that stand for the literals of an instruction line: for its constant operand,
and for its memory-address operand. A label reference may stand anywhere a literal may (30_encoding.md
rule R92), and no row has more than one operand of either kind (rule R80). -/
structure LabelUse where
  constant : Option (List Char) := none
  address : Option (List Char) := none
  deriving DecidableEq, Repr

/-- The spelling of a literal in decimal, or of the reference to the label that stands for it
(30_encoding.md rule R92). -/
def valueText : Option (List Char) → Byte → List Char
  | none, b => decimalDigits b
  | some name, _ => ':' :: name

/-- The spelling of an operand as a token of the given type (30_encoding.md rule R93). -/
def operandText (use : LabelUse) : TokenType → Operand → List (List Char)
  | .constant, .constant c => [['N', 'U', 'M'] ++ valueText use.constant c]
  | .register, .register r => [registerText r]
  | .memoryReference, .address m => [['['] ++ valueText use.address m ++ [']']]
  | .target, .address m => [valueText use.address m]
  | .registerIndirect, .pair first second => [['['] ++ registerText first ++ [']'], registerText second]
  | .register, .pair first second => [registerText first, ['['] ++ registerText second ++ [']']]
  | _, _ => []

/-- The tokens of an instruction's operands, in assembly order: a pair operand is two tokens, its
first token's type saying which half is in brackets. -/
def operandTexts (use : LabelUse) : List TokenType → List Operand → List (List Char)
  | t :: ts, o :: os => operandText use t o ++ operandTexts use ts os
  | _, _ => []

/-- The assembly line of an instruction, from its ROM row (30_encoding.md rule R80): the mnemonic and
the operand tokens, one space between, with labels for literals as `use` says. -/
def textUsing (use : LabelUse) (i : Instr) : List Char :=
  match lookup i.opcode with
  | none => []
  | some d =>
    d.mnemonic.toList ++ (operandTexts use d.tokens i.operands).flatMap fun w => ' ' :: w

/-- The assembly line of an instruction with no label in it. -/
def text (i : Instr) : List Char := textUsing {} i

/-- A program's source text: one line an instruction. -/
def programText (program : List Instr) : List Char := program.flatMap fun i => text i ++ ['\n']

/-! ## Source with labels -/

/-- A line of a program with labels (30_encoding.md rule R90): a label declaration, or an instruction
whose literals labels may stand for. -/
inductive SourceLine where
  | label (name : List Char)
  | instruction (i : Instr) (use : LabelUse)
  deriving DecidableEq, Repr

/-- The text of a line. -/
def SourceLine.text : SourceLine → List Char
  | .label name => ':' :: name
  | .instruction i use => textUsing use i

/-- The source text of a program with labels: its lines in order, each ended by a line feed (log 12). -/
def sourceText (source : List SourceLine) : List Char := source.flatMap fun l => l.text ++ ['\n']

/-- How many bytes a line emits: none for a label, `1 + n` for an instruction (30_encoding.md rules
R90, R96). -/
def SourceLine.size : SourceLine → Nat
  | .label _ => 0
  | .instruction i _ => 1 + i.operands.length

/-- How many bytes the lines emit together. -/
def sourceSize (source : List SourceLine) : Nat := (source.map SourceLine.size).sum

/-- The label a line declares, if it declares one. -/
def SourceLine.declares : SourceLine → List (List Char)
  | .label name => [name]
  | .instruction _ _ => []

/-- The label that stands for an operand, if one does: only constants and memory addresses are spelled
by literals (30_encoding.md rule R93). -/
def LabelUse.labelOf (use : LabelUse) : Operand → Option (List Char)
  | .constant _ => use.constant
  | .address _ => use.address
  | .register _ => none
  | .pair _ _ => none

/-- The labels a line refers to. -/
def SourceLine.refersTo : SourceLine → List (List Char)
  | .label _ => []
  | .instruction i use => i.operands.filterMap use.labelOf

/-- The byte of an operand when each label has the given offset. -/
def LabelUse.byteOf (use : LabelUse) (offset : List Char → Nat) (o : Operand) : Byte :=
  match use.labelOf o with
  | none => o.byte
  | some name => BitVec.ofNat 8 (offset name)

/-- The bytes a line emits when each label has the given offset (30_encoding.md rules R95, R96). -/
def SourceLine.bytes (offset : List Char → Nat) : SourceLine → List Byte
  | .label _ => []
  | .instruction i use => i.opcode :: i.operands.map (use.byteOf offset)

/-- Every label a line declares or refers to has the form of a label name (30_encoding.md rule R92). -/
def SourceLine.namesWellFormed (l : SourceLine) : Bool :=
  l.declares.all isLabelName && l.refersTo.all isLabelName

end Sys2Proof.Machine.Assembler
end

