-- ==== Sys2Proof/Machine/HostPorts.lean ====
section
/-! DEFINITION. The host ports besides `cycle` (10_state.md rules R37 to R41, 70_reset_and_hazards.md
rule R262), as functions on State, and a host session as a list of calls. Each call is atomic and
runs only between cycles (10_state.md rule R37). -/

namespace Sys2Proof.Machine

/-! ## load -/

/-- `load(bytes)` (70_reset_and_hazards.md rule R262): bytes past the 256th are ignored; everything
else is reset; the one event is Reset. The configuration is not state and stays (10_state.md rule
R42). -/
def State.load (bytes : List Byte) (s : State) : State :=
  { State.powerOn s.config with
    memory := Memory.ofBytesFrom 0 (bytes.take 256)
    trace := s.trace ++ [.reset] }

/-! ## The editing ports -/

/-- What an editing port answers: whether the call was accepted, and the state after it. A refused
call changes nothing and publishes nothing (log 10). -/
structure PortReply where
  accepted : Bool
  state : State
  deriving DecidableEq, Repr

/-- `set_register(i, v)` (10_state.md rule R38). -/
def State.setRegister (i v : Nat) (s : State) : PortReply :=
  if h : i < 8 ∧ v < 256 then ⟨true, s.writeReg ⟨i, h.1⟩ (BitVec.ofNat 8 v)⟩ else ⟨false, s⟩

/-- `set_memory(a, v)` (10_state.md rule R39). It does not touch the decoder state. -/
def State.setMemory (a v : Nat) (s : State) : PortReply :=
  if a < 256 ∧ v < 256 then ⟨true, s.memWrite (BitVec.ofNat 8 a) (BitVec.ofNat 8 v)⟩
  else ⟨false, s⟩

/-- `set_program_counter(v)` (10_state.md rule R40). The pending instruction is kept. -/
def State.setProgramCounter (v : Nat) (s : State) : PortReply :=
  if v < 256 then ⟨true, s.writePc (BitVec.ofNat 8 v)⟩ else ⟨false, s⟩

/-! ## get_state -/

/-- The pending-instruction info of a snapshot: every item of 10_state.md rule R33 but the phase. -/
structure PendingInfo where
  opcode : Byte
  desc : Option Descriptor
  n : Nat
  collected : List Byte
  position : Byte
  deriving DecidableEq, Repr

/-- What `get_state()` returns (10_state.md rule R41): all architectural state. The 256 bytes of each
memory are listed in address order (log 15). -/
structure Snapshot where
  memory : List Byte
  regs : List Byte
  pc : Byte
  phase : Phase
  pending : Option PendingInfo
  carry : Bool
  videoMemory : List Byte
  callStack : List Byte
  bankSelector : Byte
  colorPaletteId : Byte
  deriving DecidableEq, Repr

/-- The pending-instruction info of a pending instruction. -/
def Pending.info (p : Pending) : PendingInfo := ⟨p.opcode, p.desc, p.n, p.collected, p.position⟩

/-- `get_state()` (10_state.md rule R41). It is a function of the state that answers no state, so it
changes nothing and publishes nothing. -/
def State.getState (s : State) : Snapshot :=
  { memory := (List.range 256).map fun a => s.memory.read a
    regs := s.regs.toList
    pc := s.pc
    phase := s.phase
    pending := s.pending.map Pending.info
    carry := s.carry
    videoMemory := (List.range 256).map fun a => s.videoMemory.read a
    callStack := s.callStack
    bankSelector := s.bankSelector
    colorPaletteId := s.colorPaletteId }

/-! ## Host sessions -/

/-- The host's calls (10_state.md rule R37). -/
inductive HostCall where
  | cycle
  | load (bytes : List Byte)
  | getState
  | setRegister (i v : Nat)
  | setMemory (a v : Nat)
  | setProgramCounter (v : Nat)
  deriving DecidableEq, Repr

/-- The effect of one host call on the machine. -/
def hostCall (c : HostCall) (s : State) : Result :=
  match c with
  | .cycle => cycle s
  | .load bytes => .next (s.load bytes)
  | .getState => .next s
  | .setRegister i v => .next (s.setRegister i v).state
  | .setMemory a v => .next (s.setMemory a v).state
  | .setProgramCounter v => .next (s.setProgramCounter v).state

/-- The calls of a host in order: the one total order of 20_memory.md rule R54. -/
def session : List HostCall → State → Result
  | [], s => .next s
  | c :: cs, s =>
    match hostCall c s with
    | .next t => session cs t
    | .fault f => .fault f
    | .refused r => .refused r

end Sys2Proof.Machine
end

