-- ==== Sys2Proof/Safety.lean ====
section
/-! DEFINITION. The terms that claims about the machine are stated in: the invariant between cycles,
which instruction a cycle executes, what an instruction may write, frames, and runs without an
error. -/

namespace Sys2Proof.Machine

/-! ## The invariant between cycles -/

/-- What holds between cycles in every run: a legal configuration (00_scope.md rule R10), both
memories in canonical form, the call stack within its depth (10_state.md rule R30), the decoder state
of 40_decode_execute.md rule R124, and the suppress flag down (log 5). -/
structure Inv (s : State) : Prop where
  config : s.config.valid = true
  memory : s.memory.wf = true
  video : s.videoMemory.wf = true
  stack : s.callStack.length ≤ s.config.callStackDepth
  decoder : s.decoderOk = true
  flag : s.suppressed = false

/-! ## Which instruction a cycle executes -/

/-- The instruction that executes in the cycle that starts in `s`, if one does: the byte at pc
completes it (40_decode_execute.md rules R113, R116, R118). -/
def State.executing (s : State) : Option Instr :=
  match s.pending with
  | none =>
    match decode [s.memRead s.pc] with
    | .ok (i, []) => some i
    | _ => none
  | some p =>
    match decode (p.opcode :: (p.collected ++ [s.memRead s.pc])) with
    | .ok (i, []) => some i
    | _ => none

/-- What the cycle does after the semantics of the instruction with this opcode byte have ended in `t`
(40_decode_execute.md rules R119, R121): InstructionExecuted, the pending instruction discarded, and
the advance unless it was suppressed. -/
def afterExecute (opcode : Byte) (t : State) : State :=
  { t with
    pending := none
    suppressed := false
    pc := if t.suppressed then t.pc else t.pc + 1#8
    trace := t.trace ++ .instructionExecuted opcode ::
      (if t.suppressed then [] else [.programCounterChanged (t.pc + 1#8)]) }

/-- The state in which the semantics of `i` run when its bytes stand at pc of the Idle state `s`: the
decoder has collected every operand byte and pc is at the last byte (10_state.md rule R24). -/
def atFinalByte (i : Instr) (s : State) (events : List Event) : State :=
  { s with
    pending := some ⟨i.opcode, i.operands.map Operand.byte, s.pc⟩
    suppressed := false
    pc := s.pc + BitVec.ofNat 8 i.operands.length
    trace := s.trace ++ events }

/-- The events of collecting operands whose bytes stand from address `a` on: the advance to each byte's
address, then its ParameterParsed (40_decode_execute.md rules R116, R121, R122). -/
def collectEvents (a : Byte) : List Operand → List Event
  | [] => []
  | o :: os =>
    .programCounterChanged a :: .parameterParsed o.kind o.byte a :: collectEvents (a + 1#8) os

/-- The events of assembling `i` at address `p`, up to its execution. -/
def decodeEvents (i : Instr) (p : Byte) : List Event :=
  .instructionParseBegun i.opcode p :: collectEvents (p + 1#8) i.operands

/-- The bytes of `i` stand at ascending addresses modulo 256 from `a` on (20_memory.md rule R47). -/
def holdsBytes (s : State) : Byte → List Byte → Prop
  | _, [] => True
  | a, b :: bs => s.memRead a = b ∧ holdsBytes s (a + 1#8) bs

/-! ## Which instructions write what -/

/-- The general register an instruction writes, its last register operand (41_data_movement.md,
42_arithmetic.md rule R160, 43_logic.md rule R171). -/
def writtenReg : Instr → Option Reg
  | .movRegReg _ rd => some rd
  | .movConstReg _ rd => some rd
  | .movMemReg _ rd => some rd
  | .movIndReg _ rd => some rd
  | .vmovMemReg _ rd => some rd
  | .vmovIndReg _ rd => some rd
  | .addReg _ rd => some rd
  | .addConst _ rd => some rd
  | .subReg _ rd => some rd
  | .subConst _ rd => some rd
  | .mulReg _ rd => some rd
  | .divReg _ rd => some rd
  | .modReg _ rd => some rd
  | .inc rd => some rd
  | .dec rd => some rd
  | .andReg _ rd => some rd
  | .orReg _ rd => some rd
  | .xorReg _ rd => some rd
  | .notReg rd => some rd
  | .shl rd => some rd
  | .shr rd => some rd
  | .nop | .movRegMem _ _ | .movConstMem _ _ | .movRegInd _ _ | .vmovRegMem _ _ | .vmovConstMem _ _
  | .vmovRegInd _ _ | .eqReg _ _ | .eqConst _ _ | .ltReg _ _ | .ltConst _ _ | .gtReg _ _
  | .gtConst _ _ | .setc | .clrc | .jmp _ | .jmpReg _ | .jc _ | .jnc _ | .call _ | .ret | .print _
  | .bank _ | .palette _ => none

/-- The instructions of the table of 10_state.md rule R26, which write carry. -/
def writesCarry : Instr → Bool
  | .addReg _ _ | .addConst _ _ | .subReg _ _ | .subConst _ _ | .mulReg _ _ | .inc _ | .dec _
  | .shl _ | .shr _ | .eqReg _ _ | .eqConst _ _ | .ltReg _ _ | .ltConst _ _ | .gtReg _ _
  | .gtConst _ _ | .setc | .clrc => true
  | .nop | .movRegReg _ _ | .movConstReg _ _ | .movMemReg _ _ | .movRegMem _ _ | .movConstMem _ _
  | .movIndReg _ _ | .movRegInd _ _ | .vmovMemReg _ _ | .vmovRegMem _ _ | .vmovConstMem _ _
  | .vmovIndReg _ _ | .vmovRegInd _ _ | .divReg _ _ | .modReg _ _ | .andReg _ _ | .orReg _ _
  | .xorReg _ _ | .notReg _ | .jmp _ | .jmpReg _ | .jc _ | .jnc _ | .call _ | .ret | .print _
  | .bank _ | .palette _ => false

/-- The main-memory address a MOV store writes in the state its semantics run in (41_data_movement.md
rules R145, R146, R148). -/
def storedMain (i : Instr) (s : State) : Option Byte :=
  match i with
  | .movRegMem _ m => some m
  | .movConstMem _ m => some m
  | .movRegInd _ ra => some (s.readReg ra)
  | .nop | .movRegReg _ _ | .movConstReg _ _ | .movMemReg _ _ | .movIndReg _ _ | .vmovMemReg _ _
  | .vmovRegMem _ _ | .vmovConstMem _ _ | .vmovIndReg _ _ | .vmovRegInd _ _ | .addReg _ _
  | .addConst _ _ | .subReg _ _ | .subConst _ _ | .mulReg _ _ | .divReg _ _ | .modReg _ _
  | .inc _ | .dec _ | .andReg _ _ | .orReg _ _ | .xorReg _ _ | .notReg _ | .shl _ | .shr _
  | .eqReg _ _ | .eqConst _ _ | .ltReg _ _ | .ltConst _ _ | .gtReg _ _ | .gtConst _ _ | .setc
  | .clrc | .jmp _ | .jmpReg _ | .jc _ | .jnc _ | .call _ | .ret | .print _ | .bank _
  | .palette _ => none

/-- The video-memory address a VMOV store writes (41_data_movement.md rules R151, R152, R154). -/
def storedVideo (i : Instr) (s : State) : Option Byte :=
  match i with
  | .vmovRegMem _ m => some m
  | .vmovConstMem _ m => some m
  | .vmovRegInd _ ra => some (s.readReg ra)
  | .nop | .movRegReg _ _ | .movConstReg _ _ | .movMemReg _ _ | .movRegMem _ _
  | .movConstMem _ _ | .movIndReg _ _ | .movRegInd _ _ | .vmovMemReg _ _ | .vmovIndReg _ _
  | .addReg _ _ | .addConst _ _ | .subReg _ _ | .subConst _ _ | .mulReg _ _ | .divReg _ _
  | .modReg _ _ | .inc _ | .dec _ | .andReg _ _ | .orReg _ _ | .xorReg _ _ | .notReg _ | .shl _
  | .shr _ | .eqReg _ _ | .eqConst _ _ | .ltReg _ _ | .ltConst _ _ | .gtReg _ _ | .gtConst _ _
  | .setc | .clrc | .jmp _ | .jmpReg _ | .jc _ | .jnc _ | .call _ | .ret | .print _ | .bank _
  | .palette _ => none

/-- The control transfers (45_control.md): the only instructions that may suppress the advance. -/
def isTransfer : Instr → Bool
  | .jmp _ | .jmpReg _ | .jc _ | .jnc _ | .call _ | .ret => true
  | .nop | .movRegReg _ _ | .movConstReg _ _ | .movMemReg _ _ | .movRegMem _ _
  | .movConstMem _ _ | .movIndReg _ _ | .movRegInd _ _ | .vmovMemReg _ _ | .vmovRegMem _ _
  | .vmovConstMem _ _ | .vmovIndReg _ _ | .vmovRegInd _ _ | .addReg _ _ | .addConst _ _
  | .subReg _ _ | .subConst _ _ | .mulReg _ _ | .divReg _ _ | .modReg _ _ | .inc _ | .dec _
  | .andReg _ _ | .orReg _ _ | .xorReg _ _ | .notReg _ | .shl _ | .shr _ | .eqReg _ _
  | .eqConst _ _ | .ltReg _ _ | .ltConst _ _ | .gtReg _ _ | .gtConst _ _ | .setc | .clrc
  | .print _ | .bank _ | .palette _ => false

/-- CALL and RET, the only instructions that reach the call stack (10_state.md rule R30). -/
def reachesStack : Instr → Bool
  | .call _ | .ret => true
  | .nop | .movRegReg _ _ | .movConstReg _ _ | .movMemReg _ _ | .movRegMem _ _
  | .movConstMem _ _ | .movIndReg _ _ | .movRegInd _ _ | .vmovMemReg _ _ | .vmovRegMem _ _
  | .vmovConstMem _ _ | .vmovIndReg _ _ | .vmovRegInd _ _ | .addReg _ _ | .addConst _ _
  | .subReg _ _ | .subConst _ _ | .mulReg _ _ | .divReg _ _ | .modReg _ _ | .inc _ | .dec _
  | .andReg _ _ | .orReg _ _ | .xorReg _ _ | .notReg _ | .shl _ | .shr _ | .eqReg _ _
  | .eqConst _ _ | .ltReg _ _ | .ltConst _ _ | .gtReg _ _ | .gtConst _ _ | .setc | .clrc
  | .jmp _ | .jmpReg _ | .jc _ | .jnc _ | .print _ | .bank _ | .palette _ => false

/-- BANK, the only instruction that writes `bank_selector` (10_state.md rule R27). -/
def writesBank : Instr → Bool
  | .bank _ => true
  | .nop | .movRegReg _ _ | .movConstReg _ _ | .movMemReg _ _ | .movRegMem _ _
  | .movConstMem _ _ | .movIndReg _ _ | .movRegInd _ _ | .vmovMemReg _ _ | .vmovRegMem _ _
  | .vmovConstMem _ _ | .vmovIndReg _ _ | .vmovRegInd _ _ | .addReg _ _ | .addConst _ _
  | .subReg _ _ | .subConst _ _ | .mulReg _ _ | .divReg _ _ | .modReg _ _ | .inc _ | .dec _
  | .andReg _ _ | .orReg _ _ | .xorReg _ _ | .notReg _ | .shl _ | .shr _ | .eqReg _ _
  | .eqConst _ _ | .ltReg _ _ | .ltConst _ _ | .gtReg _ _ | .gtConst _ _ | .setc | .clrc
  | .jmp _ | .jmpReg _ | .jc _ | .jnc _ | .call _ | .ret | .print _ | .palette _ => false

/-- PALETTE, the only instruction that writes `color_palette_id` (10_state.md rule R28). -/
def writesPalette : Instr → Bool
  | .palette _ => true
  | .nop | .movRegReg _ _ | .movConstReg _ _ | .movMemReg _ _ | .movRegMem _ _
  | .movConstMem _ _ | .movIndReg _ _ | .movRegInd _ _ | .vmovMemReg _ _ | .vmovRegMem _ _
  | .vmovConstMem _ _ | .vmovIndReg _ _ | .vmovRegInd _ _ | .addReg _ _ | .addConst _ _
  | .subReg _ _ | .subConst _ _ | .mulReg _ _ | .divReg _ _ | .modReg _ _ | .inc _ | .dec _
  | .andReg _ _ | .orReg _ _ | .xorReg _ _ | .notReg _ | .shl _ | .shr _ | .eqReg _ _
  | .eqConst _ _ | .ltReg _ _ | .ltConst _ _ | .gtReg _ _ | .gtConst _ _ | .setc | .clrc
  | .jmp _ | .jmpReg _ | .jc _ | .jnc _ | .call _ | .ret | .print _ | .bank _ => false

/-! ## Frames -/

/-- What an execution may write; everything not named is to be left as it was. -/
structure Writes where
  reg : Option Reg := none
  carry : Bool := false
  bank : Bool := false
  palette : Bool := false
  stack : Bool := false
  control : Bool := false
  main : Option Byte := none
  video : Option Byte := none
  deriving DecidableEq, Repr

/-- The frame: `t` agrees with `s` in everything that `w` does not name, apart from the event trace.
`control` names the program counter and the suppress flag. -/
structure FrameExcept (w : Writes) (s t : State) : Prop where
  regs : ∀ r, w.reg ≠ some r → t.readReg r = s.readReg r
  carry : w.carry = false → t.carry = s.carry
  bank : w.bank = false → t.bankSelector = s.bankSelector
  palette : w.palette = false → t.colorPaletteId = s.colorPaletteId
  stack : w.stack = false → t.callStack = s.callStack
  pc : w.control = false → t.pc = s.pc
  suppressed : w.control = false → t.suppressed = s.suppressed
  main : ∀ a, w.main ≠ some a → t.memRead a = s.memRead a
  video : ∀ a, w.video ≠ some a → t.vidRead a = s.vidRead a
  pending : t.pending = s.pending
  config : t.config = s.config

/-! ## What an instruction's rule says of its encoding -/

/-- The bytes of `i`, and the operand kinds its opcode declares (30_encoding.md rule R80). -/
def EncodedAs (i : Instr) (bytes : List Byte) (kinds : List OperandKind) : Prop :=
  encode i = bytes ∧ ∃ d, lookup i.opcode = some d ∧ d.kinds = kinds

/-- The byte of a register operand. -/
def regByte (r : Reg) : Byte := BitVec.ofNat 8 r.val

/-! ## Effects in the rules' own terms -/

/-- `x[d]` is now `v`, with its one event; nothing else is written (41_data_movement.md, 43_logic.md
rule R176, 42_arithmetic.md rules R166, R167). -/
def RegisterBecomes (s t : State) (rd : Reg) (v : Nat) : Prop :=
  (t.readReg rd).toNat = v ∧
    t.trace = s.trace ++ [.registerChanged rd (t.readReg rd)] ∧ FrameExcept { reg := some rd } s t

/-- `x[d]` is now `v` with its one event, and carry is true exactly when `c`; nothing else is written
(42_arithmetic.md, 43_logic.md rules R177, R178). -/
def RegisterAndCarryBecome (s t : State) (rd : Reg) (v : Nat) (c : Prop) : Prop :=
  (t.readReg rd).toNat = v ∧ (t.carry = true ↔ c) ∧
    t.trace = s.trace ++ [.registerChanged rd (t.readReg rd)] ∧
    FrameExcept { reg := some rd, carry := true } s t

/-- Carry is true exactly when `c`; no event, nothing else is written (44_compare_carry.md). -/
def CarryBecomes (s t : State) (c : Prop) : Prop :=
  (t.carry = true ↔ c) ∧ t.trace = s.trace ∧ FrameExcept { carry := true } s t

/-- The main-memory byte at `a` is now `v` with its one event; every other byte of memory and
everything else is as before (20_memory.md rule R45). That the form stays canonical is the model's own
clause (log 9). -/
def MainByteBecomes (s t : State) (a v : Byte) : Prop :=
  t.memRead a = v ∧ t.memory.wf = true ∧ t.trace = s.trace ++ [.memoryChanged a v] ∧
    FrameExcept { main := some a } s t

/-- The video-memory byte at `a` is now `v`, with no event; every other byte of either memory and
everything else is as before (20_memory.md rule R45, 41_data_movement.md rule R149). That the form stays
canonical is the model's own clause (log 9). -/
def VideoByteBecomes (s t : State) (a v : Byte) : Prop :=
  t.vidRead a = v ∧ t.videoMemory.wf = true ∧ t.trace = s.trace ∧
    FrameExcept { video := some a } s t

/-- A taken transfer to `target`: the advance is suppressed, pc written, one event, nothing else
(45_control.md rule R201). -/
def TransferTaken (s t : State) (target : Byte) : Prop :=
  t.pc = target ∧ t.suppressed = true ∧ t.trace = s.trace ++ [.programCounterChanged target] ∧
    FrameExcept { control := true } s t

/-- A raise that writes nothing but its Error event (60_exceptions.md rules R232, R236). -/
def OnlyRaises (s t : State) (report : ErrorReport) : Prop :=
  t.trace = s.trace ++ [.error report] ∧ FrameExcept {} s t

/-! ## Runs -/

/-- The events published between `s` and `t` hold no error (60_exceptions.md rule R237: no
InvalidByteParsed and no Error event). -/
def noError (events : List Event) : Bool := events.all fun e => e.errorKind.isNone

/-- The decode events of 40_decode_execute.md rule R122, item 1. -/
def isDecodeEvent : Event → Bool
  | .invalidByteParsed _ _ => true
  | .instructionParseBegun _ _ => true
  | .parameterParsed _ _ _ => true
  | .error (.operandError _ _ _ _) => true
  | _ => false

/-- The events an instruction's semantics may publish (40_decode_execute.md rule R122, item 2). -/
def isSemanticEvent : Event → Bool
  | .registerChanged _ _ => true
  | .memoryChanged _ _ => true
  | .programCounterChanged _ => true
  | .printRequested _ => true
  | .error (.divideByZero _ _) => true
  | .error (.callStackOverflow _ _ _) => true
  | .error (.callStackUnderflow _ _) => true
  | _ => false

/-- `k` steps of the machine, stopping at a fault or a refusal. -/
def run : Nat → State → Result
  | 0, s => .next s
  | k + 1, s =>
    match step s with
    | .next t => run k t
    | .fault f => .fault f
    | .refused r => .refused r

/-- `k` cycles from `s` end in a state and publish no error. -/
def RunsWithoutError (k : Nat) (s : State) : Prop :=
  ∃ t events, run k s = .next t ∧ t.trace = s.trace ++ events ∧ noError events = true

end Sys2Proof.Machine
end

