-- ==== Sys2Proof/Certificates/Slice0/Obligations.lean ====
section
/-! DEFINITION. The statements for the provers. Each names the rules of spec/ it formalises; the terms it
uses (`FrameExcept`, `RegisterBecomes`, `afterExecute`, ...) are those of Sys2Proof/Safety.lean. -/

open Sys2Proof Sys2Proof.Machine

/-! ## Encoding -/

/-- Words written out from the encodings of 30_encoding.md rule R80, one or more of every family,
decode to the instruction they stand for. -/
def Obligations.SpecWordsDecode : Prop :=
  decode [0x10#8, 0x02#8, 0x05#8] = .ok (.movRegReg 2 5, []) ∧
  decode [0x11#8, 0x49#8, 0x01#8] = .ok (.movConstReg 73#8 1, []) ∧
  decode [0x15#8, 0x12#8] = .ok (.movIndReg 1 2, []) ∧
  decode [0x16#8, 0x02#8] = .ok (.movRegInd 0 2, []) ∧
  decode [0x1C#8, 0x70#8] = .ok (.vmovRegInd 7 0, []) ∧
  decode [0x22#8, 0x01#8, 0x02#8] = .ok (.subReg 1 2, []) ∧
  decode [0x34#8, 0x00#8] = .ok (.shl 0, []) ∧
  decode [0x45#8, 0x00#8, 0x05#8] = .ok (.gtConst 0 5#8, []) ∧
  decode [0x46#8] = .ok (.setc, []) ∧
  decode [0x54#8, 0x20#8] = .ok (.call 0x20#8, []) ∧
  decode [0x61#8, 0x01#8] = .ok (.bank 1#8, [])

/-- Every instruction is well-formed, and decoding its bytes, whatever follows them, gives it back
(30_encoding.md rules R74, R80). -/
def Obligations.DecodeEncodeAgree : Prop :=
  ∀ (i : Instr) (rest : List Byte),
    i.wellFormed = true ∧ decode (encode i ++ rest) = .ok (i, rest)

/-- Bytes that decode are exactly the encoding of what they decode to: each word has one meaning
(30_encoding.md rules R77, R83). -/
def Obligations.EncodeDecodeAgree : Prop :=
  ∀ (bs : List Byte) (i : Instr) (rest : List Byte),
    decode bs = .ok (i, rest) → bs = encode i ++ rest

/-- The decoder accepts exactly the well-formed bytes, and rejects by name: an unbound opcode, the
first operand byte its kind rejects, or bytes that end too early (30_encoding.md rules R73, R77, R82;
60_exceptions.md rule R239). -/
def Obligations.DecodeAcceptsExactlyWellFormedBytes : Prop :=
  (∀ r : RawInstr,
    r.wellFormed = true ↔ ∃ i, decode (r.opcode :: r.operands) = .ok (i, [])) ∧
  decode [] = .error .noByte ∧
  (∀ b bs, lookup b = none → decode (b :: bs) = .error (.unboundOpcode b)) ∧
  (∀ b d before x after k, lookup b = some d → d.kinds[before.length]? = some k →
    operandsAccepted (d.kinds.take before.length) before = true → accepts k x = false →
    decode (b :: (before ++ x :: after)) = .error (.operandRejected b x k)) ∧
  (∀ b d bs, lookup b = some d → bs.length < d.n →
    operandsAccepted (d.kinds.take bs.length) bs = true →
    decode (b :: bs) = .error (.missingOperand b))

/-- The acceptance predicate of 30_encoding.md rule R73, and the fields of a pair byte (rule R72). -/
def Obligations.OperandBytesAccepted : Prop :=
  ∀ b : Byte,
    accepts .constant b = true ∧ accepts .memoryAddress b = true ∧
    (accepts .register b = true ↔ b.toNat ≤ 7) ∧
    (accepts .registerPair b = true ↔ b &&& 0x88#8 = 0#8) ∧
    (pairFirst b).val = b.toNat / 16 % 8 ∧ (pairSecond b).val = b.toNat % 8

/-- The unbound opcodes are exactly the bytes that 30_encoding.md rule R82 lists. -/
def Obligations.UnboundOpcodesAreTheListed : Prop :=
  ∀ b : Byte, lookup b = none ↔
    ((0x01 ≤ b.toNat ∧ b.toNat ≤ 0x0F) ∨ b.toNat = 0x17 ∨ (0x1D ≤ b.toNat ∧ b.toNat ≤ 0x1F) ∨
      (0x29 ≤ b.toNat ∧ b.toNat ≤ 0x2F) ∨ (0x36 ≤ b.toNat ∧ b.toNat ≤ 0x3F) ∨
      (0x48 ≤ b.toNat ∧ b.toNat ≤ 0x4F) ∨ (0x56 ≤ b.toNat ∧ b.toNat ≤ 0x5F) ∨ 0x63 ≤ b.toNat)

/-- Constructing a ROM fails exactly when an opcode is bound twice; this machine's ROM is one that
construction accepts, and looking up a row's opcode gives that row (30_encoding.md rules R76 to
R78). -/
def Obligations.DuplicateOpcodesAreRefused : Prop :=
  (∀ rows : List (Byte × Descriptor),
    (∃ e, constructRom [] rows = .error e) ↔ ¬ (rows.map Prod.fst).Nodup) ∧
  constructRom [] rom = .ok rom ∧ rom.length = 45 ∧
  (∀ row ∈ rom, lookup row.1 = some row.2 ∧ row.2.n ≤ 2)

/-! ## The cycle -/

/-- A step whose byte completes an instruction is `exec` of that instruction in the state the decode
leaves, followed by InstructionExecuted, the discarding of the pending instruction, and the advance
unless it was suppressed (40_decode_execute.md rules R113, R116, R118, R119, R121). That the suppress
flag is down after the cycle is the model's choice (log 5). -/
def Obligations.StepRunsDecodedInstruction : Prop :=
  ∀ (s : State) (i : Instr),
    (s.pending = none → decode [s.memRead s.pc] = .ok (i, []) →
      ∃ t, exec i { s with
          suppressed := false
          pending := some ⟨s.memRead s.pc, [], s.pc⟩
          trace := s.trace ++ [.instructionParseBegun (s.memRead s.pc) s.pc] } = .next t ∧
        step s = .next (afterExecute i.opcode t)) ∧
    (∀ p d k, s.pending = some p →
      decode (p.opcode :: (p.collected ++ [s.memRead s.pc])) = .ok (i, []) →
      lookup p.opcode = some d → d.kinds[p.collected.length]? = some k →
      ∃ t, exec i { s with
          suppressed := false
          pending := some { p with collected := p.collected ++ [s.memRead s.pc] }
          trace := s.trace ++ [.parameterParsed k (s.memRead s.pc) s.pc] } = .next t ∧
        step s = .next (afterExecute i.opcode t))

/-- From an Idle state whose bytes at pc are an instruction's, `1 + n` cycles run that instruction:
one per byte, the semantics in the last, with pc at the final byte, and bytes at addresses modulo 256
(40_decode_execute.md rule R126; 20_memory.md rules R47, R48; 10_state.md rule R24). That the suppress
flag is down after the last is the model's choice (log 5). -/
def Obligations.InstructionRunsOneCyclePerByte : Prop :=
  ∀ (s : State) (i : Instr), s.pending = none → holdsBytes s s.pc (encode i) →
    ∃ t, exec i (atFinalByte i s (decodeEvents i s.pc)) = .next t ∧
      run (1 + i.operands.length) s = .next (afterExecute i.opcode t)

/-- 40_decode_execute.md rule R114: an unbound byte read while Idle publishes exactly one
InvalidByteParsed, advances pc by one and changes nothing else. -/
def Obligations.UnboundByteIsSkipped : Prop :=
  ∀ s : State, s.pending = none → lookup (s.memRead s.pc) = none →
    step s = .next { s with
      suppressed := false
      pc := s.pc + 1#8
      trace := s.trace ++
        [.invalidByteParsed (s.memRead s.pc) s.pc, .programCounterChanged (s.pc + 1#8)] }

/-- 40_decode_execute.md rule R113: a bound byte read while Idle creates the pending instruction and
publishes InstructionParseBegun; with no operands it executes in this cycle, otherwise the phase
becomes Collecting. That the suppress flag is down after an execution is the model's choice (log 5). -/
def Obligations.OpcodeBeginsInstruction : Prop :=
  ∀ (s : State) (d : Descriptor), s.pending = none → lookup (s.memRead s.pc) = some d →
    (d.n = 0 → ∃ i t, decode [s.memRead s.pc] = .ok (i, []) ∧
      exec i { s with
          suppressed := false
          pending := some ⟨s.memRead s.pc, [], s.pc⟩
          trace := s.trace ++ [.instructionParseBegun (s.memRead s.pc) s.pc] } = .next t ∧
      step s = .next (afterExecute (s.memRead s.pc) t)) ∧
    (0 < d.n → ∃ t, step s = .next t ∧ t.phase = .collecting ∧ t = { s with
      suppressed := false
      pc := s.pc + 1#8
      pending := some ⟨s.memRead s.pc, [], s.pc⟩
      trace := s.trace ++ [.instructionParseBegun (s.memRead s.pc) s.pc,
        .programCounterChanged (s.pc + 1#8)] })

/-- 40_decode_execute.md rule R116: an accepted operand byte is appended and ParameterParsed
published; the last one executes the instruction in this cycle, otherwise the phase stays
Collecting. That the suppress flag is down after an execution is the model's choice (log 5). -/
def Obligations.AcceptedOperandIsCollected : Prop :=
  ∀ (s : State) (p : Pending) (d : Descriptor) (k : OperandKind),
    s.pending = some p → p.ok = true → lookup p.opcode = some d →
    d.kinds[p.collected.length]? = some k → accepts k (s.memRead s.pc) = true →
    (p.collected.length + 1 = d.n →
      ∃ i t, decode (p.opcode :: (p.collected ++ [s.memRead s.pc])) = .ok (i, []) ∧
        exec i { s with
            suppressed := false
            pending := some { p with collected := p.collected ++ [s.memRead s.pc] }
            trace := s.trace ++ [.parameterParsed k (s.memRead s.pc) s.pc] } = .next t ∧
        step s = .next (afterExecute p.opcode t)) ∧
    (p.collected.length + 1 < d.n → ∃ t, step s = .next t ∧ t.phase = .collecting ∧ t = { s with
      suppressed := false
      pc := s.pc + 1#8
      pending := some { p with collected := p.collected ++ [s.memRead s.pc] }
      trace := s.trace ++ [.parameterParsed k (s.memRead s.pc) s.pc,
        .programCounterChanged (s.pc + 1#8)] })

/-- 40_decode_execute.md rule R117: a rejected operand byte publishes the OperandError, discards the
pending instruction, and pc moves past the byte; nothing else changes. -/
def Obligations.RejectedOperandAbandonsInstruction : Prop :=
  ∀ (s : State) (p : Pending) (d : Descriptor) (k : OperandKind),
    s.pending = some p → lookup p.opcode = some d → d.kinds[p.collected.length]? = some k →
    accepts k (s.memRead s.pc) = false →
    step s = .next { s with
      suppressed := false
      pc := s.pc + 1#8
      pending := none
      trace := s.trace ++ [.error (.operandError p.opcode (s.memRead s.pc) k s.pc),
        .programCounterChanged (s.pc + 1#8)] }

/-! ## Reset, invariant, whole machine -/

/-- 70_reset_and_hazards.md rule R261 with the values of 10_state.md rule R43: at power-on everything
is 0, false, empty or Idle and no event has been published; power-on equals `load` of an empty
program apart from its Reset event. -/
def Obligations.PowerOnValues : Prop :=
  ∀ c : Config,
    (∀ r, (State.powerOn c).readReg r = 0#8) ∧ (State.powerOn c).pc = 0#8 ∧
    (State.powerOn c).carry = false ∧ (State.powerOn c).bankSelector = 0#8 ∧
    (State.powerOn c).colorPaletteId = 0#8 ∧ (State.powerOn c).callStack = [] ∧
    (State.powerOn c).phase = .idle ∧ (∀ a, (State.powerOn c).memRead a = 0#8) ∧
    (∀ a, (State.powerOn c).vidRead a = 0#8) ∧ (State.powerOn c).trace = [] ∧
    (State.powerOn c).load [] = { State.powerOn c with trace := [.reset] }

/-- The invariant between cycles holds at power-on with every legal configuration, so at reset, whose
depth is the default 16 (00_scope.md rule R10). That the suppress flag is down at reset is the model's
choice (log 5), and so is the canonical form of the memories. -/
def Obligations.ResetMeetsInvariant : Prop :=
  Inv State.reset ∧ State.reset.config.callStackDepth = 16 ∧
    ∀ c : Config, c.valid = true → (State.powerOn c).config = c ∧ Inv (State.powerOn c)

/-- From every state that meets the invariant a cycle answers a next state that meets it: the cycle
loop never halts (40_decode_execute.md rules R124, R125), memories stay canonical, the call stack
stays within its depth (10_state.md rule R30), and the configuration is kept (10_state.md rule R42). -/
def Obligations.CycleAnswersAndKeepsInvariant : Prop :=
  ∀ s : State, Inv s → ∃ t, step s = .next t ∧ Inv t ∧ t.config = s.config

/-- Every host session, of cycles and port calls in any order, completes and keeps the invariant
(10_state.md rule R37; 60_exceptions.md rule R237). -/
def Obligations.HostSessionKeepsInvariant : Prop :=
  ∀ (calls : List HostCall) (s : State), Inv s →
    ∃ t, session calls s = .next t ∧ Inv t ∧ t.config = s.config

/-- The events of one cycle, in the order of 40_decode_execute.md rule R122: one decode event; if an
instruction executes, at most one event of its semantics and then InstructionExecuted; then the
advance, unless it was suppressed, which only a control transfer does (rule R121). -/
def Obligations.EventOrderOfACycle : Prop :=
  ∀ s t : State, Inv s → step s = .next t →
    ∃ decodeEvent semantics executed advance,
      t.trace = s.trace ++ decodeEvent :: (semantics ++ executed ++ advance) ∧
      isDecodeEvent decodeEvent = true ∧ semantics.length ≤ 1 ∧
      (∀ e ∈ semantics, isSemanticEvent e = true) ∧
      (s.executing = none → semantics = [] ∧ executed = []) ∧
      (∀ i, s.executing = some i → executed = [.instructionExecuted i.opcode]) ∧
      (advance = [.programCounterChanged (s.pc + 1#8)] ∨
        (advance = [] ∧ ∃ i, s.executing = some i ∧ isTransfer i = true))

/-- A cycle publishes two to four events, at most one of them an error (40_decode_execute.md rule
R122; 60_exceptions.md rule R238). -/
def Obligations.AtMostOneErrorPerCycle : Prop :=
  ∀ s t : State, Inv s → step s = .next t →
    ∃ events, t.trace = s.trace ++ events ∧ 2 ≤ events.length ∧ events.length ≤ 4 ∧
      (events.filter fun e => e.errorKind.isSome).length ≤ 1

/-- The block never reads its trace back: replacing the trace so far changes nothing but the trace,
and the same events are published (10_state.md rule R35). -/
def Obligations.TraceIsNeverReadBack : Prop :=
  ∀ (s t : State) (other : List Event), step s = .next t →
    ∃ events, t.trace = s.trace ++ events ∧
      step { s with trace := other } = .next { t with trace := other ++ events }

/-- Neither control register has any effect on a cycle: with other values in them the same happens,
and afterwards each holds what it held or what BANK or PALETTE wrote (10_state.md rules R27, R28). -/
def Obligations.BankAndPaletteHaveNoEffect : Prop :=
  ∀ (s t : State) (bank palette : Byte), step s = .next t →
    step { s with bankSelector := bank, colorPaletteId := palette } = .next { t with
      bankSelector := match s.executing with
        | some (.bank c) => c
        | _ => bank
      colorPaletteId := match s.executing with
        | some (.palette c) => c
        | _ => palette }

/-- Only the instructions the rules name write each piece of state: a general register its destination
only, carry the table of 10_state.md rule R26, the control registers BANK and PALETTE (rules R27,
R28), the call stack CALL and RET (rule R30), main memory the MOV stores and video memory the VMOV
stores, at their addresses (20_memory.md rule R44, 41_data_movement.md rule R149). -/
def Obligations.OnlyNamedInstructionsWriteState : Prop :=
  ∀ s t : State, step s = .next t →
    (∀ r, t.readReg r ≠ s.readReg r → ∃ i, s.executing = some i ∧ writtenReg i = some r) ∧
    (t.carry ≠ s.carry → ∃ i, s.executing = some i ∧ writesCarry i = true) ∧
    (t.bankSelector ≠ s.bankSelector → ∃ i, s.executing = some i ∧ writesBank i = true) ∧
    (t.colorPaletteId ≠ s.colorPaletteId → ∃ i, s.executing = some i ∧ writesPalette i = true) ∧
    (t.callStack ≠ s.callStack → ∃ i, s.executing = some i ∧ reachesStack i = true) ∧
    (∀ a, t.memRead a ≠ s.memRead a → ∃ i, s.executing = some i ∧ storedMain i s = some a) ∧
    (∀ a, t.vidRead a ≠ s.vidRead a → ∃ i, s.executing = some i ∧ storedVideo i s = some a)

/-- Every cycle ends with the advance `pc <- (pc + 1) mod 256` and its event, unless it executes a
control transfer (40_decode_execute.md rule R121; 10_state.md rules R23, R25). -/
def Obligations.PcAdvancesUnlessTransfer : Prop :=
  ∀ s t : State, step s = .next t →
    (t.pc = s.pc + 1#8 ∧ t.trace.getLast? = some (.programCounterChanged (s.pc + 1#8))) ∨
      ∃ i, s.executing = some i ∧ isTransfer i = true

/-- 60_exceptions.md rule R236: a cycle that reports an error changes no register, memory cell, flag,
control register or stack entry, leaves no pending instruction, and moves pc on by one, or not at all
when the error is RET's. -/
def Obligations.ErrorsLeaveNoPartialResult : Prop :=
  ∀ (s t : State) (events : List Event), step s = .next t → t.trace = s.trace ++ events →
    noError events = false →
    (∀ r, t.readReg r = s.readReg r) ∧ t.carry = s.carry ∧ t.bankSelector = s.bankSelector ∧
    t.colorPaletteId = s.colorPaletteId ∧ t.callStack = s.callStack ∧
    (∀ a, t.memRead a = s.memRead a) ∧ (∀ a, t.vidRead a = s.vidRead a) ∧ t.pending = none ∧
    (s.executing = some .ret → t.pc = s.pc) ∧ (s.executing ≠ some .ret → t.pc = s.pc + 1#8)

/-! ## Data movement -/

/-- The MOV forms that load a register: MOV Rs Rd, MOV NUMc Rd, MOV [m] Rd, MOV [Ra] Rd
(41_data_movement.md rules R142, R143, R144, R147). The address of a register-indirect load is read
before the register is written. -/
def Obligations.MovLoadsRegister : Prop :=
  ∀ (s : State) (rs ra rd : Reg) (c m : Byte),
    (EncodedAs (.movRegReg rs rd) [0x10#8, regByte rs, regByte rd] [.register, .register] ∧
      ∃ t, exec (.movRegReg rs rd) s = .next t ∧ RegisterBecomes s t rd (s.readReg rs).toNat) ∧
    (EncodedAs (.movConstReg c rd) [0x11#8, c, regByte rd] [.constant, .register] ∧
      ∃ t, exec (.movConstReg c rd) s = .next t ∧ RegisterBecomes s t rd c.toNat) ∧
    (EncodedAs (.movMemReg m rd) [0x12#8, m, regByte rd] [.memoryAddress, .register] ∧
      ∃ t, exec (.movMemReg m rd) s = .next t ∧ RegisterBecomes s t rd (s.memRead m).toNat) ∧
    (EncodedAs (.movIndReg ra rd) [0x15#8, BitVec.ofNat 8 (16 * ra.val + rd.val)] [.registerPair] ∧
      ∃ t, exec (.movIndReg ra rd) s = .next t ∧
        RegisterBecomes s t rd (s.memRead (s.readReg ra)).toNat)

/-- The MOV forms that store to main memory: MOV Rs [m], MOV NUMc [m], MOV Rs [Ra]
(41_data_movement.md rules R145, R146, R148). The memory is in canonical form, which every run keeps
(CycleAnswersAndKeepsInvariant); the form, and that it is kept, are the model's (log 9). -/
def Obligations.MovStoresByte : Prop :=
  ∀ (s : State) (rs ra : Reg) (c m : Byte), s.memory.wf = true →
    (EncodedAs (.movRegMem rs m) [0x13#8, regByte rs, m] [.register, .memoryAddress] ∧
      ∃ t, exec (.movRegMem rs m) s = .next t ∧ MainByteBecomes s t m (s.readReg rs)) ∧
    (EncodedAs (.movConstMem c m) [0x14#8, c, m] [.constant, .memoryAddress] ∧
      ∃ t, exec (.movConstMem c m) s = .next t ∧ MainByteBecomes s t m c) ∧
    (EncodedAs (.movRegInd rs ra) [0x16#8, BitVec.ofNat 8 (16 * rs.val + ra.val)] [.registerPair] ∧
      ∃ t, exec (.movRegInd rs ra) s = .next t ∧
        MainByteBecomes s t (s.readReg ra) (s.readReg rs))

/-- The VMOV forms that load a register from video memory: VMOV [m] Rd, VMOV [Ra] Rd
(41_data_movement.md rules R150, R153). -/
def Obligations.VmovLoadsRegister : Prop :=
  ∀ (s : State) (ra rd : Reg) (m : Byte),
    (EncodedAs (.vmovMemReg m rd) [0x18#8, m, regByte rd] [.memoryAddress, .register] ∧
      ∃ t, exec (.vmovMemReg m rd) s = .next t ∧ RegisterBecomes s t rd (s.vidRead m).toNat) ∧
    (EncodedAs (.vmovIndReg ra rd) [0x1B#8, BitVec.ofNat 8 (16 * ra.val + rd.val)] [.registerPair] ∧
      ∃ t, exec (.vmovIndReg ra rd) s = .next t ∧
        RegisterBecomes s t rd (s.vidRead (s.readReg ra)).toNat)

/-- The VMOV forms that store to video memory: VMOV Rs [m], VMOV NUMc [m], VMOV Rs [Ra]
(41_data_movement.md rules R151, R152, R154); no event is published and main memory is not
touched. That the video memory is, and stays, in canonical form is the model's own clause (log 9). -/
def Obligations.VmovStoresByte : Prop :=
  ∀ (s : State) (rs ra : Reg) (c m : Byte), s.videoMemory.wf = true →
    (EncodedAs (.vmovRegMem rs m) [0x19#8, regByte rs, m] [.register, .memoryAddress] ∧
      ∃ t, exec (.vmovRegMem rs m) s = .next t ∧ VideoByteBecomes s t m (s.readReg rs)) ∧
    (EncodedAs (.vmovConstMem c m) [0x1A#8, c, m] [.constant, .memoryAddress] ∧
      ∃ t, exec (.vmovConstMem c m) s = .next t ∧ VideoByteBecomes s t m c) ∧
    (EncodedAs (.vmovRegInd rs ra) [0x1C#8, BitVec.ofNat 8 (16 * rs.val + ra.val)] [.registerPair] ∧
      ∃ t, exec (.vmovRegInd rs ra) s = .next t ∧
        VideoByteBecomes s t (s.readReg ra) (s.readReg rs))

/-! ## Arithmetic -/

/-- ADD, both forms: the sum modulo 256, carry when the exact sum is at least 256; the incoming carry
is not added (42_arithmetic.md rules R161, R162). -/
def Obligations.AddWrapsAndCarries : Prop :=
  ∀ (s : State) (rs rd : Reg) (c : Byte),
    (EncodedAs (.addReg rs rd) [0x20#8, regByte rs, regByte rd] [.register, .register] ∧
      ∃ t, exec (.addReg rs rd) s = .next t ∧
        RegisterAndCarryBecome s t rd (((s.readReg rd).toNat + (s.readReg rs).toNat) % 256)
          (256 ≤ (s.readReg rd).toNat + (s.readReg rs).toNat)) ∧
    (EncodedAs (.addConst c rd) [0x21#8, c, regByte rd] [.constant, .register] ∧
      ∃ t, exec (.addConst c rd) s = .next t ∧
        RegisterAndCarryBecome s t rd (((s.readReg rd).toNat + c.toNat) % 256)
          (256 ≤ (s.readReg rd).toNat + c.toNat))

/-- SUB, both forms: the difference modulo 256 (stated on integers), carry the borrow
(42_arithmetic.md rules R163, R164). -/
def Obligations.SubWrapsAndBorrows : Prop :=
  ∀ (s : State) (rs rd : Reg) (c : Byte),
    (EncodedAs (.subReg rs rd) [0x22#8, regByte rs, regByte rd] [.register, .register] ∧
      ∃ t, exec (.subReg rs rd) s = .next t ∧
        RegisterAndCarryBecome s t rd
          ((((s.readReg rd).toNat : Int) - ((s.readReg rs).toNat : Int)) % 256).toNat
          ((s.readReg rd).toNat < (s.readReg rs).toNat)) ∧
    (EncodedAs (.subConst c rd) [0x23#8, c, regByte rd] [.constant, .register] ∧
      ∃ t, exec (.subConst c rd) s = .next t ∧
        RegisterAndCarryBecome s t rd
          ((((s.readReg rd).toNat : Int) - (c.toNat : Int)) % 256).toNat
          ((s.readReg rd).toNat < c.toNat))

/-- MUL: the low byte of the product, carry when the exact product is at least 256
(42_arithmetic.md rule R165). -/
def Obligations.MulKeepsLowByte : Prop :=
  ∀ (s : State) (rs rd : Reg),
    EncodedAs (.mulReg rs rd) [0x24#8, regByte rs, regByte rd] [.register, .register] ∧
    ∃ t, exec (.mulReg rs rd) s = .next t ∧
      RegisterAndCarryBecome s t rd ((s.readReg rd).toNat * (s.readReg rs).toNat % 256)
        (256 ≤ (s.readReg rd).toNat * (s.readReg rs).toNat)

/-- DIV and MOD: with a nonzero divisor the unsigned quotient and remainder, carry unchanged; with a
zero divisor nothing is written and DivideByZero is raised with the opcode's address
(42_arithmetic.md rules R166, R167). -/
def Obligations.DivAndModDivideOrRaise : Prop :=
  ∀ (s : State) (rs rd : Reg),
    (EncodedAs (.divReg rs rd) [0x25#8, regByte rs, regByte rd] [.register, .register] ∧
      (s.readReg rs ≠ 0#8 → ∃ t, exec (.divReg rs rd) s = .next t ∧
        RegisterBecomes s t rd ((s.readReg rd).toNat / (s.readReg rs).toNat)) ∧
      (s.readReg rs = 0#8 → ∃ t position, exec (.divReg rs rd) s = .next t ∧
        OnlyRaises s t (.divideByZero 0x25#8 position) ∧
        ∀ p, s.pending = some p → position = p.position)) ∧
    (EncodedAs (.modReg rs rd) [0x26#8, regByte rs, regByte rd] [.register, .register] ∧
      (s.readReg rs ≠ 0#8 → ∃ t, exec (.modReg rs rd) s = .next t ∧
        RegisterBecomes s t rd ((s.readReg rd).toNat % (s.readReg rs).toNat)) ∧
      (s.readReg rs = 0#8 → ∃ t position, exec (.modReg rs rd) s = .next t ∧
        OnlyRaises s t (.divideByZero 0x26#8 position) ∧
        ∀ p, s.pending = some p → position = p.position))

/-- INC and DEC wrap modulo 256 and set carry on the wrap (42_arithmetic.md rules R168, R169). -/
def Obligations.IncAndDecWrap : Prop :=
  ∀ (s : State) (rd : Reg),
    (EncodedAs (.inc rd) [0x27#8, regByte rd] [.register] ∧
      ∃ t, exec (.inc rd) s = .next t ∧
        RegisterAndCarryBecome s t rd (((s.readReg rd).toNat + 1) % 256)
          ((s.readReg rd).toNat = 255)) ∧
    (EncodedAs (.dec rd) [0x28#8, regByte rd] [.register] ∧
      ∃ t, exec (.dec rd) s = .next t ∧
        RegisterAndCarryBecome s t rd (((s.readReg rd).toNat + 255) % 256)
          ((s.readReg rd).toNat = 0))

/-! ## Logic and shifts -/

/-- AND, OR, XOR and NOT act bit by bit, publish the register's event, and leave carry and everything
else unchanged (43_logic.md rules R171 to R176). -/
def Obligations.BitwiseOperationsActPerBit : Prop :=
  ∀ (s : State) (rs rd : Reg),
    (EncodedAs (.andReg rs rd) [0x30#8, regByte rs, regByte rd] [.register, .register] ∧
      ∃ t, exec (.andReg rs rd) s = .next t ∧ RegisterBecomes s t rd (t.readReg rd).toNat ∧
        ∀ n, n < 8 → (t.readReg rd).getLsbD n =
          ((s.readReg rd).getLsbD n && (s.readReg rs).getLsbD n)) ∧
    (EncodedAs (.orReg rs rd) [0x31#8, regByte rs, regByte rd] [.register, .register] ∧
      ∃ t, exec (.orReg rs rd) s = .next t ∧ RegisterBecomes s t rd (t.readReg rd).toNat ∧
        ∀ n, n < 8 → (t.readReg rd).getLsbD n =
          ((s.readReg rd).getLsbD n || (s.readReg rs).getLsbD n)) ∧
    (EncodedAs (.xorReg rs rd) [0x32#8, regByte rs, regByte rd] [.register, .register] ∧
      ∃ t, exec (.xorReg rs rd) s = .next t ∧ RegisterBecomes s t rd (t.readReg rd).toNat ∧
        ∀ n, n < 8 → (t.readReg rd).getLsbD n =
          ((s.readReg rd).getLsbD n ^^ (s.readReg rs).getLsbD n)) ∧
    (EncodedAs (.notReg rd) [0x33#8, regByte rd] [.register] ∧
      ∃ t, exec (.notReg rd) s = .next t ∧
        RegisterBecomes s t rd (255 - (s.readReg rd).toNat) ∧
        ∀ n, n < 8 → (t.readReg rd).getLsbD n = !(s.readReg rd).getLsbD n)

/-- SHL and SHR shift by one, logically, with the bit shifted out in carry (43_logic.md rules R177,
R178). -/
def Obligations.ShiftsMoveTheBitOutToCarry : Prop :=
  ∀ (s : State) (rd : Reg),
    (EncodedAs (.shl rd) [0x34#8, regByte rd] [.register] ∧
      ∃ t, exec (.shl rd) s = .next t ∧
        RegisterAndCarryBecome s t rd ((s.readReg rd).toNat * 2 % 256)
          (128 ≤ (s.readReg rd).toNat)) ∧
    (EncodedAs (.shr rd) [0x35#8, regByte rd] [.register] ∧
      ∃ t, exec (.shr rd) s = .next t ∧
        RegisterAndCarryBecome s t rd ((s.readReg rd).toNat / 2)
          ((s.readReg rd).toNat % 2 = 1))

/-! ## Compares and carry control -/

/-- EQ, LT and GT, both forms, write their unsigned truth value to carry and nothing else
(44_compare_carry.md rules R181 to R187). -/
def Obligations.ComparesWriteOnlyCarry : Prop :=
  ∀ (s : State) (ra rb : Reg) (c : Byte),
    (EncodedAs (.eqReg ra rb) [0x40#8, regByte ra, regByte rb] [.register, .register] ∧
      ∃ t, exec (.eqReg ra rb) s = .next t ∧ CarryBecomes s t (s.readReg ra = s.readReg rb)) ∧
    (EncodedAs (.eqConst ra c) [0x41#8, regByte ra, c] [.register, .constant] ∧
      ∃ t, exec (.eqConst ra c) s = .next t ∧ CarryBecomes s t (s.readReg ra = c)) ∧
    (EncodedAs (.ltReg ra rb) [0x42#8, regByte ra, regByte rb] [.register, .register] ∧
      ∃ t, exec (.ltReg ra rb) s = .next t ∧
        CarryBecomes s t ((s.readReg ra).toNat < (s.readReg rb).toNat)) ∧
    (EncodedAs (.ltConst ra c) [0x43#8, regByte ra, c] [.register, .constant] ∧
      ∃ t, exec (.ltConst ra c) s = .next t ∧ CarryBecomes s t ((s.readReg ra).toNat < c.toNat)) ∧
    (EncodedAs (.gtReg ra rb) [0x44#8, regByte ra, regByte rb] [.register, .register] ∧
      ∃ t, exec (.gtReg ra rb) s = .next t ∧
        CarryBecomes s t ((s.readReg ra).toNat > (s.readReg rb).toNat)) ∧
    (EncodedAs (.gtConst ra c) [0x45#8, regByte ra, c] [.register, .constant] ∧
      ∃ t, exec (.gtConst ra c) s = .next t ∧ CarryBecomes s t ((s.readReg ra).toNat > c.toNat))

/-- SETC sets carry and CLRC clears it, and nothing else (44_compare_carry.md rules R188, R189). -/
def Obligations.SetcAndClrcWriteOnlyCarry : Prop :=
  ∀ s : State,
    (EncodedAs .setc [0x46#8] [] ∧ ∃ t, exec .setc s = .next t ∧ CarryBecomes s t True) ∧
    (EncodedAs .clrc [0x47#8] [] ∧ ∃ t, exec .clrc s = .next t ∧ CarryBecomes s t False)

/-! ## Control transfer -/

/-- JMP, both forms: the advance is suppressed and pc becomes the target, the operand byte or the
register's value; any byte is a legal target (45_control.md rules R201, R202, R203). -/
def Obligations.JumpsGoToTheirTarget : Prop :=
  ∀ (s : State) (target : Byte) (rr : Reg),
    (EncodedAs (.jmp target) [0x50#8, target] [.memoryAddress] ∧
      ∃ t, exec (.jmp target) s = .next t ∧ TransferTaken s t target) ∧
    (EncodedAs (.jmpReg rr) [0x51#8, regByte rr] [.register] ∧
      ∃ t, exec (.jmpReg rr) s = .next t ∧ TransferTaken s t (s.readReg rr))

/-- JC jumps when carry is true, JNC when it is false; not taken, nothing is written and no event is
published (45_control.md rules R204, R205). -/
def Obligations.ConditionalJumpsTestCarry : Prop :=
  ∀ (s : State) (target : Byte),
    (EncodedAs (.jc target) [0x52#8, target] [.memoryAddress] ∧
      (s.carry = true → ∃ t, exec (.jc target) s = .next t ∧ TransferTaken s t target) ∧
      (s.carry = false → exec (.jc target) s = .next s)) ∧
    (EncodedAs (.jnc target) [0x53#8, target] [.memoryAddress] ∧
      (s.carry = false → ∃ t, exec (.jnc target) s = .next t ∧ TransferTaken s t target) ∧
      (s.carry = true → exec (.jnc target) s = .next s))

/-- CALL below maximum depth pushes the address after its last byte and transfers to its target
(45_control.md rule R206; during execution pc is the address of the operand byte). -/
def Obligations.CallPushesReturnAddress : Prop :=
  ∀ (s : State) (target : Byte), s.callStack.length < s.config.callStackDepth →
    EncodedAs (.call target) [0x54#8, target] [.memoryAddress] ∧
    ∃ t, exec (.call target) s = .next t ∧ t.callStack = s.callStack ++ [s.pc + 1#8] ∧
      t.pc = target ∧ t.suppressed = true ∧
      t.trace = s.trace ++ [.programCounterChanged target] ∧
      FrameExcept { stack := true, control := true } s t

/-- 45_control.md rule R207: CALL at maximum depth raises CallStackOverflow with the opcode's address
and the depth and writes nothing; the advance is not suppressed. -/
def Obligations.CallAtMaximumDepthRaises : Prop :=
  ∀ (s : State) (target : Byte), s.callStack.length = s.config.callStackDepth →
    ∃ t position, exec (.call target) s = .next t ∧
      OnlyRaises s t (.callStackOverflow 0x54#8 position s.config.callStackDepth) ∧
      ∀ p, s.pending = some p → position = p.position

/-- RET with a non-empty call stack takes the last entry and transfers to it (45_control.md rule
R208). -/
def Obligations.RetTakesTheLastEntry : Prop :=
  ∀ (s : State) (below : List Byte) (v : Byte), s.callStack = below ++ [v] →
    EncodedAs .ret [0x55#8] [] ∧
    ∃ t, exec .ret s = .next t ∧ t.callStack = below ∧ t.pc = v ∧ t.suppressed = true ∧
      t.trace = s.trace ++ [.programCounterChanged v] ∧
      FrameExcept { stack := true, control := true } s t

/-- 45_control.md rule R209: a RET with an empty call stack publishes CallStackUnderflow with its own
address and leaves pc unchanged; with nothing else changing the stack, every later cycle repeats
it. That the suppress flag is down between cycles is the model's choice (log 5). -/
def Obligations.RetOnEmptyStackRepeatsTheError : Prop :=
  ∀ (s : State) (k : Nat), s.pending = none → s.suppressed = false →
    s.memRead s.pc = 0x55#8 → s.callStack = [] →
    run k s = .next { s with
      trace := s.trace ++ (List.replicate k
        [.instructionParseBegun 0x55#8 s.pc, .error (.callStackUnderflow 0x55#8 s.pc),
          .instructionExecuted 0x55#8]).flatten }

/-- A CALL and a RET executed later with the same call stack return to the address after the CALL and
leave the stack as it was before the CALL (45_control.md rules R206, R208; scenario C of
95_test_vectors.md L1-6). -/
def Obligations.CallThenRetReturns : Prop :=
  ∀ (s : State) (target : Byte), s.callStack.length < s.config.callStackDepth →
    ∃ t, exec (.call target) s = .next t ∧ t.pc = target ∧
      ∀ later : State, later.callStack = t.callStack →
        ∃ u, exec .ret later = .next u ∧ u.pc = s.pc + 1#8 ∧ u.callStack = s.callStack

/-! ## System instructions -/

/-- NOP does nothing (46_system.md rule R212). Its whole cycle publishes InstructionParseBegun and
InstructionExecuted and advances. -/
def Obligations.NopOnlyAdvances : Prop :=
  ∀ s : State, EncodedAs .nop [0x00#8] [] ∧ exec .nop s = .next s ∧
    (s.pending = none → s.memRead s.pc = 0x00#8 → step s = .next { s with
      suppressed := false
      pc := s.pc + 1#8
      trace := s.trace ++ [.instructionParseBegun 0x00#8 s.pc, .instructionExecuted 0x00#8,
        .programCounterChanged (s.pc + 1#8)] })

/-- PRINT publishes the decimal numeral of the register and changes nothing else (46_system.md rules
R213, R214): ASCII digits only, no leading zero but in "0", with the register's value. -/
def Obligations.PrintPublishesDecimal : Prop :=
  ∀ (s : State) (rr : Reg),
    EncodedAs (.print rr) [0x60#8, regByte rr] [.register] ∧
    ∃ t text, exec (.print rr) s = .next t ∧ t.trace = s.trace ++ [.printRequested text] ∧
      FrameExcept {} s t ∧ text.toList ≠ [] ∧
      (∀ ch ∈ text.toList, 48 ≤ ch.toNat ∧ ch.toNat ≤ 57) ∧
      (1 < text.toList.length → text.toList.head? ≠ some '0') ∧
      text.toList.foldl (fun n ch => 10 * n + (ch.toNat - 48)) 0 = (s.readReg rr).toNat

/-- BANK writes `bank_selector` and PALETTE `color_palette_id`, with no event and nothing else
written (46_system.md rules R211, R216, R217). -/
def Obligations.BankAndPaletteWriteTheirRegister : Prop :=
  ∀ (s : State) (c : Byte),
    (EncodedAs (.bank c) [0x61#8, c] [.constant] ∧
      ∃ t, exec (.bank c) s = .next t ∧ t.bankSelector = c ∧ t.trace = s.trace ∧
        FrameExcept { bank := true } s t) ∧
    (EncodedAs (.palette c) [0x62#8, c] [.constant] ∧
      ∃ t, exec (.palette c) s = .next t ∧ t.colorPaletteId = c ∧ t.trace = s.trace ∧
        FrameExcept { palette := true } s t)

/-! ## Host ports -/

/-- 10_state.md rule R38: `set_register` in range writes the register with its event and touches
nothing else, the decoder state included; out of range it changes nothing. -/
def Obligations.SetRegisterPort : Prop :=
  ∀ (s : State) (i v : Nat),
    (∀ h : i < 8, v < 256 → (s.setRegister i v).accepted = true ∧
      RegisterBecomes s (s.setRegister i v).state ⟨i, h⟩ v) ∧
    (8 ≤ i ∨ 256 ≤ v → s.setRegister i v = ⟨false, s⟩)

/-- 10_state.md rule R39: `set_memory` in range writes the byte with its event and touches nothing
else, the decoder state included; out of range it changes nothing. That the memory is, and stays, in
canonical form is the model's own clause (log 9). -/
def Obligations.SetMemoryPort : Prop :=
  ∀ (s : State) (a v : Nat), s.memory.wf = true →
    (a < 256 → v < 256 → (s.setMemory a v).accepted = true ∧
      MainByteBecomes s (s.setMemory a v).state (BitVec.ofNat 8 a) (BitVec.ofNat 8 v)) ∧
    (256 ≤ a ∨ 256 ≤ v → s.setMemory a v = ⟨false, s⟩)

/-- 10_state.md rule R40: `set_program_counter` in range writes pc with its event and keeps the pending
instruction; out of range it changes nothing. -/
def Obligations.SetProgramCounterPort : Prop :=
  ∀ (s : State) (v : Nat),
    (v < 256 → (s.setProgramCounter v).accepted = true ∧
      (s.setProgramCounter v).state.pc.toNat = v ∧
      (s.setProgramCounter v).state.suppressed = s.suppressed ∧
      (s.setProgramCounter v).state.trace =
        s.trace ++ [.programCounterChanged (BitVec.ofNat 8 v)] ∧
      FrameExcept { control := true } s (s.setProgramCounter v).state) ∧
    (256 ≤ v → s.setProgramCounter v = ⟨false, s⟩)

/-- Host edits while an instruction is pending: the collected bytes stay latched, and the instruction
the next byte completes changes only if the edit reaches that byte or pc; `load`, whatever it loads,
discards the pending instruction (70_reset_and_hazards.md rule R270; 20_memory.md rule R58). -/
def Obligations.HostEditsKeepLatchedBytes : Prop :=
  ∀ (s : State) (p : Pending) (i a v : Nat), s.pending = some p →
    (s.setMemory a v).state.pending = some p ∧ (s.setRegister i v).state.pending = some p ∧
    (s.setProgramCounter v).state.pending = some p ∧ (∀ bytes, (s.load bytes).pending = none) ∧
    (s.setRegister i v).state.executing = s.executing ∧
    (BitVec.ofNat 8 a ≠ s.pc → (s.setMemory a v).state.executing = s.executing)

/-- 70_reset_and_hazards.md rule R262: `load` copies up to 256 bytes from address 0, zeroes the rest,
resets everything else and publishes exactly Reset. That the memory is in canonical form is the model's
own clause (log 9). -/
def Obligations.LoadResetsAndCopies : Prop :=
  ∀ (s : State) (bytes : List Byte),
    (∀ a : Byte, (s.load bytes).memRead a = bytes.getD a.toNat 0#8) ∧
    (s.load bytes).memory.wf = true ∧ (∀ r, (s.load bytes).readReg r = 0#8) ∧
    (s.load bytes).carry = false ∧ (s.load bytes).callStack = [] ∧
    (s.load bytes).phase = .idle ∧ (∀ a, (s.load bytes).vidRead a = 0#8) ∧
    (s.load bytes).bankSelector = 0#8 ∧ (s.load bytes).colorPaletteId = 0#8 ∧
    (s.load bytes).pc = 0#8 ∧ (s.load bytes).trace = s.trace ++ [.reset] ∧
    (s.load bytes).config = s.config

/-- 70_reset_and_hazards.md rule R263: whatever session runs after a `load`, loading the same program
again gives the same machine state (all but the output so far), and its event list is `[Reset]`. -/
def Obligations.LoadIsIdempotent : Prop :=
  ∀ (s u : State) (bytes : List Byte) (calls : List HostCall),
    session calls (s.load bytes) = .next u →
    { u.load bytes with trace := [] } = { s.load bytes with trace := [] } ∧
    (u.load bytes).trace = u.trace ++ [.reset] ∧ (s.load bytes).trace = s.trace ++ [.reset]

/-- `get_state` shows every piece of architectural state: between cycles, two machines of one
configuration with equal snapshots differ at most in the output so far (10_state.md rule R41). -/
def Obligations.GetStateShowsEverything : Prop :=
  ∀ s t : State, Inv s → Inv t → s.config = t.config → s.getState = t.getState →
    { s with trace := [] } = { t with trace := [] }

/-! ## Memory -/

/-- 20_memory.md rule R45: after a write the cell reads as the value written and every other cell as
before; a main-memory write publishes MemoryChanged, a video-memory write nothing; the two spaces are
disjoint (10_state.md rule R34). That the canonical form is kept is the model's own clause (log 9). -/
def Obligations.ReadAfterWrite : Prop :=
  ∀ (s : State) (a b v : Byte), s.memory.wf = true → s.videoMemory.wf = true →
    (s.memWrite a v).memRead b = (if b = a then v else s.memRead b) ∧
    (s.memWrite a v).vidRead b = s.vidRead b ∧ (s.memWrite a v).memory.wf = true ∧
    (s.memWrite a v).trace = s.trace ++ [.memoryChanged a v] ∧
    (s.vidWrite a v).vidRead b = (if b = a then v else s.vidRead b) ∧
    (s.vidWrite a v).memRead b = s.memRead b ∧ (s.vidWrite a v).videoMemory.wf = true ∧
    (s.vidWrite a v).trace = s.trace

/-! ## The end of a run -/

/-- 40_decode_execute.md rule R127: from a self-loop every later cycle alternates pc between
`(p+1) mod 256` and `p` (the decoder Collecting the jump's operand in between) and changes nothing
else, and no error is ever published. That the suppress flag is down between cycles is the model's
choice (log 5). -/
def Obligations.SelfLoopAlternatesForever : Prop :=
  ∀ (s : State) (k : Nat), s.atSelfLoop = true → s.suppressed = false →
    ∃ events, noError events = true ∧
      run k s = .next { s with
        pc := if k % 2 = 0 then s.pc else s.pc + 1#8
        pending := if k % 2 = 0 then none else some ⟨0x50#8, [], s.pc⟩
        trace := s.trace ++ events }

/-! ## The assembler -/

/-- Assembling the text of any program gives its instructions' bytes one after the other, or, when
they are more than 256, the error that the output is too long (30_encoding.md rules R94, R95, R97). -/
def Obligations.AssemblerEncodesPrograms : Prop :=
  ∀ program : List Instr,
    ((program.flatMap encode).length ≤ 256 →
      Assembler.assemble (Assembler.programText program) = .ok (program.flatMap encode)) ∧
    (256 < (program.flatMap encode).length →
      ∃ line, Assembler.assemble (Assembler.programText program) = .error ⟨.outputTooLong, line⟩)

/-- A label stands for the offset of the instruction line after its declaration, the number of bytes
the lines before it emit, wherever it is referred to, before or after the declaration (30_encoding.md
rules R92, R96). The source is any program of at most 256 bytes that declares no label twice, in which
labels may stand for any of the literals; `offset` gives every declared label that number. A label in
use must be declared, at an offset a byte can hold: LabelErrorsGiveNoOutput says what happens otherwise.
Which line separator and which letters a name has are the model's choice (log 12). -/
def Obligations.LabelStandsForItsOffset : Prop :=
  ∀ (source : List Assembler.SourceLine) (offset : List Char → Nat),
    (∀ l ∈ source, l.namesWellFormed = true) → Assembler.sourceSize source ≤ 256 →
    (source.flatMap Assembler.SourceLine.declares).Nodup →
    (∀ before name after, source = before ++ .label name :: after →
      offset name = Assembler.sourceSize before) →
    (∀ name ∈ source.flatMap Assembler.SourceLine.refersTo,
      name ∈ source.flatMap Assembler.SourceLine.declares ∧ offset name < 256) →
    Assembler.assemble (Assembler.sourceText source) =
      .ok (source.flatMap (Assembler.SourceLine.bytes offset))

/-- A label declared twice, or referred to and declared nowhere, fails the assembly, with no output
(30_encoding.md rules R96, R97). So does a reference to a label at offset 256, the end of a full
program, which no operand byte holds (rule R97). Which of several errors is named, and what a reference
to offset 256 is called, are the model's choice (log 12). -/
def Obligations.LabelErrorsGiveNoOutput : Prop :=
  ∀ source : List Assembler.SourceLine,
    (∀ l ∈ source, l.namesWellFormed = true) → Assembler.sourceSize source ≤ 256 →
    (¬ (source.flatMap Assembler.SourceLine.declares).Nodup →
      ∃ line, Assembler.assemble (Assembler.sourceText source) = .error ⟨.duplicateLabel, line⟩) ∧
    ((source.flatMap Assembler.SourceLine.declares).Nodup →
      (∀ name ∈ source.flatMap Assembler.SourceLine.refersTo,
        name ∉ source.flatMap Assembler.SourceLine.declares →
        ∃ e, Assembler.assemble (Assembler.sourceText source) = .error e ∧
          (Assembler.sourceSize source < 256 → e.kind = .labelNotFound)) ∧
      (∀ before name after, source = before ++ .label name :: after →
        Assembler.sourceSize before = 256 →
        name ∈ source.flatMap Assembler.SourceLine.refersTo →
        ∃ e, Assembler.assemble (Assembler.sourceText source) = .error e))
end

