-- ==== Sys2Proof/Laws/PerInstr.lean ====
section
/-! SUPPORT. Two facts about every instruction as syntax, one lemma per constructor: its ROM row lists
the kinds of its operands (30_encoding.md rules R76, R80), and its opcode and operands build it
again. -/

namespace Sys2Proof.Laws.RomRow

/-- The opcode of `i` is bound, and its descriptor lists the kinds of `i`'s operands, at most two. -/
def Statement (i : Instr) : Prop :=
  ∃ d, lookup i.opcode = some d ∧ d.kinds = i.operands.map Operand.kind ∧ d.n ≤ 2

theorem nop : Statement (.nop) :=
  ⟨_, rfl, rfl, by decide⟩
theorem movRegReg (rs : Reg) (rd : Reg) : Statement (.movRegReg rs rd) :=
  ⟨_, rfl, rfl, by decide⟩
theorem movConstReg (c : Byte) (rd : Reg) : Statement (.movConstReg c rd) :=
  ⟨_, rfl, rfl, by decide⟩
theorem movMemReg (m : Byte) (rd : Reg) : Statement (.movMemReg m rd) :=
  ⟨_, rfl, rfl, by decide⟩
theorem movRegMem (rs : Reg) (m : Byte) : Statement (.movRegMem rs m) :=
  ⟨_, rfl, rfl, by decide⟩
theorem movConstMem (c : Byte) (m : Byte) : Statement (.movConstMem c m) :=
  ⟨_, rfl, rfl, by decide⟩
theorem movIndReg (ra : Reg) (rd : Reg) : Statement (.movIndReg ra rd) :=
  ⟨_, rfl, rfl, by decide⟩
theorem movRegInd (rs : Reg) (ra : Reg) : Statement (.movRegInd rs ra) :=
  ⟨_, rfl, rfl, by decide⟩
theorem vmovMemReg (m : Byte) (rd : Reg) : Statement (.vmovMemReg m rd) :=
  ⟨_, rfl, rfl, by decide⟩
theorem vmovRegMem (rs : Reg) (m : Byte) : Statement (.vmovRegMem rs m) :=
  ⟨_, rfl, rfl, by decide⟩
theorem vmovConstMem (c : Byte) (m : Byte) : Statement (.vmovConstMem c m) :=
  ⟨_, rfl, rfl, by decide⟩
theorem vmovIndReg (ra : Reg) (rd : Reg) : Statement (.vmovIndReg ra rd) :=
  ⟨_, rfl, rfl, by decide⟩
theorem vmovRegInd (rs : Reg) (ra : Reg) : Statement (.vmovRegInd rs ra) :=
  ⟨_, rfl, rfl, by decide⟩
theorem addReg (rs : Reg) (rd : Reg) : Statement (.addReg rs rd) :=
  ⟨_, rfl, rfl, by decide⟩
theorem addConst (c : Byte) (rd : Reg) : Statement (.addConst c rd) :=
  ⟨_, rfl, rfl, by decide⟩
theorem subReg (rs : Reg) (rd : Reg) : Statement (.subReg rs rd) :=
  ⟨_, rfl, rfl, by decide⟩
theorem subConst (c : Byte) (rd : Reg) : Statement (.subConst c rd) :=
  ⟨_, rfl, rfl, by decide⟩
theorem mulReg (rs : Reg) (rd : Reg) : Statement (.mulReg rs rd) :=
  ⟨_, rfl, rfl, by decide⟩
theorem divReg (rs : Reg) (rd : Reg) : Statement (.divReg rs rd) :=
  ⟨_, rfl, rfl, by decide⟩
theorem modReg (rs : Reg) (rd : Reg) : Statement (.modReg rs rd) :=
  ⟨_, rfl, rfl, by decide⟩
theorem inc (rd : Reg) : Statement (.inc rd) :=
  ⟨_, rfl, rfl, by decide⟩
theorem dec (rd : Reg) : Statement (.dec rd) :=
  ⟨_, rfl, rfl, by decide⟩
theorem andReg (rs : Reg) (rd : Reg) : Statement (.andReg rs rd) :=
  ⟨_, rfl, rfl, by decide⟩
theorem orReg (rs : Reg) (rd : Reg) : Statement (.orReg rs rd) :=
  ⟨_, rfl, rfl, by decide⟩
theorem xorReg (rs : Reg) (rd : Reg) : Statement (.xorReg rs rd) :=
  ⟨_, rfl, rfl, by decide⟩
theorem notReg (rd : Reg) : Statement (.notReg rd) :=
  ⟨_, rfl, rfl, by decide⟩
theorem shl (rd : Reg) : Statement (.shl rd) :=
  ⟨_, rfl, rfl, by decide⟩
theorem shr (rd : Reg) : Statement (.shr rd) :=
  ⟨_, rfl, rfl, by decide⟩
theorem eqReg (ra : Reg) (rb : Reg) : Statement (.eqReg ra rb) :=
  ⟨_, rfl, rfl, by decide⟩
theorem eqConst (ra : Reg) (c : Byte) : Statement (.eqConst ra c) :=
  ⟨_, rfl, rfl, by decide⟩
theorem ltReg (ra : Reg) (rb : Reg) : Statement (.ltReg ra rb) :=
  ⟨_, rfl, rfl, by decide⟩
theorem ltConst (ra : Reg) (c : Byte) : Statement (.ltConst ra c) :=
  ⟨_, rfl, rfl, by decide⟩
theorem gtReg (ra : Reg) (rb : Reg) : Statement (.gtReg ra rb) :=
  ⟨_, rfl, rfl, by decide⟩
theorem gtConst (ra : Reg) (c : Byte) : Statement (.gtConst ra c) :=
  ⟨_, rfl, rfl, by decide⟩
theorem setc : Statement (.setc) :=
  ⟨_, rfl, rfl, by decide⟩
theorem clrc : Statement (.clrc) :=
  ⟨_, rfl, rfl, by decide⟩
theorem jmp (t : Byte) : Statement (.jmp t) :=
  ⟨_, rfl, rfl, by decide⟩
theorem jmpReg (rr : Reg) : Statement (.jmpReg rr) :=
  ⟨_, rfl, rfl, by decide⟩
theorem jc (t : Byte) : Statement (.jc t) :=
  ⟨_, rfl, rfl, by decide⟩
theorem jnc (t : Byte) : Statement (.jnc t) :=
  ⟨_, rfl, rfl, by decide⟩
theorem call (t : Byte) : Statement (.call t) :=
  ⟨_, rfl, rfl, by decide⟩
theorem ret : Statement (.ret) :=
  ⟨_, rfl, rfl, by decide⟩
theorem print (rr : Reg) : Statement (.print rr) :=
  ⟨_, rfl, rfl, by decide⟩
theorem bank (c : Byte) : Statement (.bank c) :=
  ⟨_, rfl, rfl, by decide⟩
theorem palette (c : Byte) : Statement (.palette c) :=
  ⟨_, rfl, rfl, by decide⟩

theorem all (i : Instr) : Statement i := by
  cases i with
  | nop => exact nop
  | movRegReg rs rd => exact movRegReg rs rd
  | movConstReg c rd => exact movConstReg c rd
  | movMemReg m rd => exact movMemReg m rd
  | movRegMem rs m => exact movRegMem rs m
  | movConstMem c m => exact movConstMem c m
  | movIndReg ra rd => exact movIndReg ra rd
  | movRegInd rs ra => exact movRegInd rs ra
  | vmovMemReg m rd => exact vmovMemReg m rd
  | vmovRegMem rs m => exact vmovRegMem rs m
  | vmovConstMem c m => exact vmovConstMem c m
  | vmovIndReg ra rd => exact vmovIndReg ra rd
  | vmovRegInd rs ra => exact vmovRegInd rs ra
  | addReg rs rd => exact addReg rs rd
  | addConst c rd => exact addConst c rd
  | subReg rs rd => exact subReg rs rd
  | subConst c rd => exact subConst c rd
  | mulReg rs rd => exact mulReg rs rd
  | divReg rs rd => exact divReg rs rd
  | modReg rs rd => exact modReg rs rd
  | inc rd => exact inc rd
  | dec rd => exact dec rd
  | andReg rs rd => exact andReg rs rd
  | orReg rs rd => exact orReg rs rd
  | xorReg rs rd => exact xorReg rs rd
  | notReg rd => exact notReg rd
  | shl rd => exact shl rd
  | shr rd => exact shr rd
  | eqReg ra rb => exact eqReg ra rb
  | eqConst ra c => exact eqConst ra c
  | ltReg ra rb => exact ltReg ra rb
  | ltConst ra c => exact ltConst ra c
  | gtReg ra rb => exact gtReg ra rb
  | gtConst ra c => exact gtConst ra c
  | setc => exact setc
  | clrc => exact clrc
  | jmp t => exact jmp t
  | jmpReg rr => exact jmpReg rr
  | jc t => exact jc t
  | jnc t => exact jnc t
  | call t => exact call t
  | ret => exact ret
  | print rr => exact print rr
  | bank c => exact bank c
  | palette c => exact palette c

end Sys2Proof.Laws.RomRow

namespace Sys2Proof.Laws.BuildsBack

/-- The opcode and the operands of `i` build `i`. -/
def Statement (i : Instr) : Prop := build i.opcode i.operands = some i

theorem nop : Statement (.nop) := rfl
theorem movRegReg (rs : Reg) (rd : Reg) : Statement (.movRegReg rs rd) := rfl
theorem movConstReg (c : Byte) (rd : Reg) : Statement (.movConstReg c rd) := rfl
theorem movMemReg (m : Byte) (rd : Reg) : Statement (.movMemReg m rd) := rfl
theorem movRegMem (rs : Reg) (m : Byte) : Statement (.movRegMem rs m) := rfl
theorem movConstMem (c : Byte) (m : Byte) : Statement (.movConstMem c m) := rfl
theorem movIndReg (ra : Reg) (rd : Reg) : Statement (.movIndReg ra rd) := rfl
theorem movRegInd (rs : Reg) (ra : Reg) : Statement (.movRegInd rs ra) := rfl
theorem vmovMemReg (m : Byte) (rd : Reg) : Statement (.vmovMemReg m rd) := rfl
theorem vmovRegMem (rs : Reg) (m : Byte) : Statement (.vmovRegMem rs m) := rfl
theorem vmovConstMem (c : Byte) (m : Byte) : Statement (.vmovConstMem c m) := rfl
theorem vmovIndReg (ra : Reg) (rd : Reg) : Statement (.vmovIndReg ra rd) := rfl
theorem vmovRegInd (rs : Reg) (ra : Reg) : Statement (.vmovRegInd rs ra) := rfl
theorem addReg (rs : Reg) (rd : Reg) : Statement (.addReg rs rd) := rfl
theorem addConst (c : Byte) (rd : Reg) : Statement (.addConst c rd) := rfl
theorem subReg (rs : Reg) (rd : Reg) : Statement (.subReg rs rd) := rfl
theorem subConst (c : Byte) (rd : Reg) : Statement (.subConst c rd) := rfl
theorem mulReg (rs : Reg) (rd : Reg) : Statement (.mulReg rs rd) := rfl
theorem divReg (rs : Reg) (rd : Reg) : Statement (.divReg rs rd) := rfl
theorem modReg (rs : Reg) (rd : Reg) : Statement (.modReg rs rd) := rfl
theorem inc (rd : Reg) : Statement (.inc rd) := rfl
theorem dec (rd : Reg) : Statement (.dec rd) := rfl
theorem andReg (rs : Reg) (rd : Reg) : Statement (.andReg rs rd) := rfl
theorem orReg (rs : Reg) (rd : Reg) : Statement (.orReg rs rd) := rfl
theorem xorReg (rs : Reg) (rd : Reg) : Statement (.xorReg rs rd) := rfl
theorem notReg (rd : Reg) : Statement (.notReg rd) := rfl
theorem shl (rd : Reg) : Statement (.shl rd) := rfl
theorem shr (rd : Reg) : Statement (.shr rd) := rfl
theorem eqReg (ra : Reg) (rb : Reg) : Statement (.eqReg ra rb) := rfl
theorem eqConst (ra : Reg) (c : Byte) : Statement (.eqConst ra c) := rfl
theorem ltReg (ra : Reg) (rb : Reg) : Statement (.ltReg ra rb) := rfl
theorem ltConst (ra : Reg) (c : Byte) : Statement (.ltConst ra c) := rfl
theorem gtReg (ra : Reg) (rb : Reg) : Statement (.gtReg ra rb) := rfl
theorem gtConst (ra : Reg) (c : Byte) : Statement (.gtConst ra c) := rfl
theorem setc : Statement (.setc) := rfl
theorem clrc : Statement (.clrc) := rfl
theorem jmp (t : Byte) : Statement (.jmp t) := rfl
theorem jmpReg (rr : Reg) : Statement (.jmpReg rr) := rfl
theorem jc (t : Byte) : Statement (.jc t) := rfl
theorem jnc (t : Byte) : Statement (.jnc t) := rfl
theorem call (t : Byte) : Statement (.call t) := rfl
theorem ret : Statement (.ret) := rfl
theorem print (rr : Reg) : Statement (.print rr) := rfl
theorem bank (c : Byte) : Statement (.bank c) := rfl
theorem palette (c : Byte) : Statement (.palette c) := rfl

theorem all (i : Instr) : Statement i := by
  cases i with
  | nop => exact nop
  | movRegReg rs rd => exact movRegReg rs rd
  | movConstReg c rd => exact movConstReg c rd
  | movMemReg m rd => exact movMemReg m rd
  | movRegMem rs m => exact movRegMem rs m
  | movConstMem c m => exact movConstMem c m
  | movIndReg ra rd => exact movIndReg ra rd
  | movRegInd rs ra => exact movRegInd rs ra
  | vmovMemReg m rd => exact vmovMemReg m rd
  | vmovRegMem rs m => exact vmovRegMem rs m
  | vmovConstMem c m => exact vmovConstMem c m
  | vmovIndReg ra rd => exact vmovIndReg ra rd
  | vmovRegInd rs ra => exact vmovRegInd rs ra
  | addReg rs rd => exact addReg rs rd
  | addConst c rd => exact addConst c rd
  | subReg rs rd => exact subReg rs rd
  | subConst c rd => exact subConst c rd
  | mulReg rs rd => exact mulReg rs rd
  | divReg rs rd => exact divReg rs rd
  | modReg rs rd => exact modReg rs rd
  | inc rd => exact inc rd
  | dec rd => exact dec rd
  | andReg rs rd => exact andReg rs rd
  | orReg rs rd => exact orReg rs rd
  | xorReg rs rd => exact xorReg rs rd
  | notReg rd => exact notReg rd
  | shl rd => exact shl rd
  | shr rd => exact shr rd
  | eqReg ra rb => exact eqReg ra rb
  | eqConst ra c => exact eqConst ra c
  | ltReg ra rb => exact ltReg ra rb
  | ltConst ra c => exact ltConst ra c
  | gtReg ra rb => exact gtReg ra rb
  | gtConst ra c => exact gtConst ra c
  | setc => exact setc
  | clrc => exact clrc
  | jmp t => exact jmp t
  | jmpReg rr => exact jmpReg rr
  | jc t => exact jc t
  | jnc t => exact jnc t
  | call t => exact call t
  | ret => exact ret
  | print rr => exact print rr
  | bank c => exact bank c
  | palette c => exact palette c

end Sys2Proof.Laws.BuildsBack
end

