-- ==== Sys2Proof/Laws/Decode.lean ====
section
/-! SUPPORT. Small laws of the decoder: operand bytes, operand lists, ROM rows. -/

namespace Sys2Proof

/-! ## Pair bytes -/

@[simp] theorem pairFirst_pairByte (f s : Reg) : pairFirst (pairByte f s) = f := by
  revert f s; decide

@[simp] theorem pairSecond_pairByte (f s : Reg) : pairSecond (pairByte f s) = s := by
  revert f s; decide

@[simp] theorem accepts_pairByte (f s : Reg) : accepts .registerPair (pairByte f s) = true := by
  revert f s; decide

theorem pairByte_of_accepts {b : Byte} (h : accepts .registerPair b = true) :
    pairByte (pairFirst b) (pairSecond b) = b := by
  revert b; decide

/-! ## One operand byte -/

theorem ofNat_toNat_reg (r : Reg) : (BitVec.ofNat 8 r.val).toNat = r.val := by
  have := r.isLt
  simp; omega

/-- An operand's byte reads back as the operand. -/
theorem decodeOperand_byte (o : Operand) : decodeOperand o.kind o.byte = some o := by
  cases o with
  | constant c => rfl
  | address m => rfl
  | register r =>
    have := ofNat_toNat_reg r
    simp [decodeOperand, Operand.kind, Operand.byte]
    refine ⟨by omega, ?_⟩
    apply Fin.ext
    simp
    omega
  | pair f s => simp [decodeOperand, Operand.kind, Operand.byte]

/-- What an operand byte was read as has that kind and that byte, and the kind accepts it. -/
theorem decodeOperand_some {k : OperandKind} {b : Byte} {o : Operand}
    (h : decodeOperand k b = some o) : o.kind = k ∧ o.byte = b ∧ accepts k b = true := by
  cases k with
  | constant => cases h; exact ⟨rfl, rfl, rfl⟩
  | memoryAddress => cases h; exact ⟨rfl, rfl, rfl⟩
  | register =>
    simp only [decodeOperand] at h
    split at h
    · cases h
      refine ⟨rfl, ?_, ?_⟩
      · simp [Operand.byte]
      · simp [accepts]; omega
    · cases h
  | registerPair =>
    simp only [decodeOperand] at h
    split at h
    · cases h
      exact ⟨rfl, pairByte_of_accepts ‹_›, ‹_›⟩
    · cases h

/-- A byte is rejected exactly when its kind does not accept it. -/
theorem decodeOperand_none_iff (k : OperandKind) (b : Byte) :
    decodeOperand k b = none ↔ accepts k b = false := by
  cases k with
  | constant => simp [decodeOperand, accepts]
  | memoryAddress => simp [decodeOperand, accepts]
  | register => simp [decodeOperand, accepts]; omega
  | registerPair => simp [decodeOperand]

theorem decodeOperand_of_accepts {k : OperandKind} {b : Byte} (h : accepts k b = true) :
    ∃ o, decodeOperand k b = some o := by
  cases hd : decodeOperand k b with
  | none => rw [(decodeOperand_none_iff k b).1 hd] at h; cases h
  | some o => exact ⟨o, rfl⟩

/-! ## Operand lists -/

theorem decodeOperands_bytes (opcode : Byte) (os : List Operand) (rest : List Byte) :
    decodeOperands opcode (os.map Operand.kind) (os.map Operand.byte ++ rest) = .ok (os, rest) := by
  induction os with
  | nil => rfl
  | cons o os ih => simp [decodeOperands, decodeOperand_byte, ih]

theorem decodeOperands_ok {opcode : Byte} {ks : List OperandKind} {bs rest : List Byte}
    {os : List Operand} (h : decodeOperands opcode ks bs = .ok (os, rest)) :
    os.map Operand.kind = ks ∧ bs = os.map Operand.byte ++ rest := by
  induction ks generalizing bs os with
  | nil => cases h; exact ⟨rfl, rfl⟩
  | cons k ks ih =>
    cases bs with
    | nil => cases h
    | cons b bs =>
      unfold decodeOperands at h
      split at h
      · cases h
      · next o ho =>
        split at h
        · cases h
        · next os' rest' hr =>
          cases h
          obtain ⟨h1, h2⟩ := ih hr
          obtain ⟨hk, hb, _⟩ := decodeOperand_some ho
          exact ⟨by simp [h1, hk], by simp [h2, hb]⟩

/-- Accepted bytes, one per kind, are read as operands with nothing left over. -/
theorem decodeOperands_of_accepted (opcode : Byte) {ks : List OperandKind} {bs : List Byte}
    (h : operandsAccepted ks bs = true) :
    ∃ os, decodeOperands opcode ks bs = .ok (os, []) := by
  induction ks generalizing bs with
  | nil =>
    cases bs with
    | nil => exact ⟨[], rfl⟩
    | cons b bs => cases h
  | cons k ks ih =>
    cases bs with
    | nil => cases h
    | cons b bs =>
      simp only [operandsAccepted, Bool.and_eq_true] at h
      obtain ⟨o, ho⟩ := decodeOperand_of_accepts h.1
      obtain ⟨os, hos⟩ := ih h.2
      exact ⟨o :: os, by simp [decodeOperands, ho, hos]⟩

/-! ## ROM rows -/

theorem mem_rom_of_lookup {b : Byte} {d : Descriptor} (h : lookup b = some d) : (b, d) ∈ rom := by
  unfold lookup at h
  obtain ⟨row, hf, hd⟩ := Option.map_eq_some_iff.1 h
  have hb : row.1 = b := by simpa using List.find?_some hf
  have hm := List.mem_of_find?_eq_some hf
  obtain ⟨b', d'⟩ := row
  simp only at hb hd
  subst hb hd
  exact hm

/-! ## Operands by their kinds -/

theorem operands_of_no_kind {ops : List Operand} (h : ops.map Operand.kind = []) : ops = [] := by
  simpa using h

theorem operands_of_kind {ops : List Operand} {k : OperandKind} (h : ops.map Operand.kind = [k]) :
    ∃ o, ops = [o] ∧ o.kind = k := by
  obtain ⟨o, ho, hk⟩ := List.map_eq_singleton_iff.1 h
  exact ⟨o, ho, hk⟩

theorem operands_of_kinds {ops : List Operand} {k k' : OperandKind}
    (h : ops.map Operand.kind = [k, k']) : ∃ o o', ops = [o, o'] ∧ o.kind = k ∧ o'.kind = k' := by
  obtain ⟨o, os, rfl, hk, hs⟩ := List.map_eq_cons_iff.1 h
  obtain ⟨o', rfl, hk'⟩ := operands_of_kind hs
  exact ⟨o, o', rfl, hk, hk'⟩

theorem eq_constant {o : Operand} (h : o.kind = .constant) : ∃ c, o = .constant c := by
  cases o <;> first | exact ⟨_, rfl⟩ | cases h

theorem eq_register {o : Operand} (h : o.kind = .register) : ∃ r, o = .register r := by
  cases o <;> first | exact ⟨_, rfl⟩ | cases h

theorem eq_address {o : Operand} (h : o.kind = .memoryAddress) : ∃ m, o = .address m := by
  cases o <;> first | exact ⟨_, rfl⟩ | cases h

theorem eq_pair {o : Operand} (h : o.kind = .registerPair) : ∃ f s, o = .pair f s := by
  cases o <;> first | exact ⟨_, _, rfl⟩ | cases h

theorem opsP {ops : List Operand} (h : ops.map Operand.kind = [.registerPair]) :
    ∃ f s, ops = [.pair f s] := by
  obtain ⟨o, rfl, hk⟩ := operands_of_kind h
  obtain ⟨f, s, rfl⟩ := eq_pair hk
  exact ⟨f, s, rfl⟩

theorem opsR {ops : List Operand} (h : ops.map Operand.kind = [.register]) :
    ∃ a, ops = [.register a] := by
  obtain ⟨o, rfl, hk⟩ := operands_of_kind h
  obtain ⟨a, rfl⟩ := eq_register hk
  exact ⟨a, rfl⟩

theorem opsM {ops : List Operand} (h : ops.map Operand.kind = [.memoryAddress]) :
    ∃ a, ops = [.address a] := by
  obtain ⟨o, rfl, hk⟩ := operands_of_kind h
  obtain ⟨a, rfl⟩ := eq_address hk
  exact ⟨a, rfl⟩

theorem opsC {ops : List Operand} (h : ops.map Operand.kind = [.constant]) :
    ∃ a, ops = [.constant a] := by
  obtain ⟨o, rfl, hk⟩ := operands_of_kind h
  obtain ⟨a, rfl⟩ := eq_constant hk
  exact ⟨a, rfl⟩

theorem opsRR {ops : List Operand} (h : ops.map Operand.kind = [.register, .register]) :
    ∃ a b, ops = [.register a, .register b] := by
  obtain ⟨o, o', rfl, hk, hk'⟩ := operands_of_kinds h
  obtain ⟨a, rfl⟩ := eq_register hk
  obtain ⟨b, rfl⟩ := eq_register hk'
  exact ⟨a, b, rfl⟩

theorem opsCR {ops : List Operand} (h : ops.map Operand.kind = [.constant, .register]) :
    ∃ a b, ops = [.constant a, .register b] := by
  obtain ⟨o, o', rfl, hk, hk'⟩ := operands_of_kinds h
  obtain ⟨a, rfl⟩ := eq_constant hk
  obtain ⟨b, rfl⟩ := eq_register hk'
  exact ⟨a, b, rfl⟩

theorem opsMR {ops : List Operand} (h : ops.map Operand.kind = [.memoryAddress, .register]) :
    ∃ a b, ops = [.address a, .register b] := by
  obtain ⟨o, o', rfl, hk, hk'⟩ := operands_of_kinds h
  obtain ⟨a, rfl⟩ := eq_address hk
  obtain ⟨b, rfl⟩ := eq_register hk'
  exact ⟨a, b, rfl⟩

theorem opsRM {ops : List Operand} (h : ops.map Operand.kind = [.register, .memoryAddress]) :
    ∃ a b, ops = [.register a, .address b] := by
  obtain ⟨o, o', rfl, hk, hk'⟩ := operands_of_kinds h
  obtain ⟨a, rfl⟩ := eq_register hk
  obtain ⟨b, rfl⟩ := eq_address hk'
  exact ⟨a, b, rfl⟩

theorem opsCM {ops : List Operand} (h : ops.map Operand.kind = [.constant, .memoryAddress]) :
    ∃ a b, ops = [.constant a, .address b] := by
  obtain ⟨o, o', rfl, hk, hk'⟩ := operands_of_kinds h
  obtain ⟨a, rfl⟩ := eq_constant hk
  obtain ⟨b, rfl⟩ := eq_address hk'
  exact ⟨a, b, rfl⟩

theorem opsRC {ops : List Operand} (h : ops.map Operand.kind = [.register, .constant]) :
    ∃ a b, ops = [.register a, .constant b] := by
  obtain ⟨o, o', rfl, hk, hk'⟩ := operands_of_kinds h
  obtain ⟨a, rfl⟩ := eq_register hk
  obtain ⟨b, rfl⟩ := eq_constant hk'
  exact ⟨a, b, rfl⟩

/-- What `build` makes of operands of the listed kinds: an instruction with this opcode and these
operands. -/
def BuildsFor (b : Byte) (ks : List OperandKind) : Prop :=
  ∀ ops : List Operand, ops.map Operand.kind = ks →
    ∃ i, build b ops = some i ∧ i.opcode = b ∧ i.operands = ops

theorem buildsSystem : ∀ row ∈ romSystem, BuildsFor row.1 row.2.kinds := by
  simp only [romSystem, List.forall_mem_cons]
  refine ⟨?_, ?_, ?_, ?_, by simp⟩
  · intro ops h; obtain rfl := operands_of_no_kind h; exact ⟨_, rfl, rfl, rfl⟩
  · intro ops h; obtain ⟨a, rfl⟩ := opsR h; exact ⟨_, rfl, rfl, rfl⟩
  · intro ops h; obtain ⟨a, rfl⟩ := opsC h; exact ⟨_, rfl, rfl, rfl⟩
  · intro ops h; obtain ⟨a, rfl⟩ := opsC h; exact ⟨_, rfl, rfl, rfl⟩

theorem buildsDataMovement : ∀ row ∈ romDataMovement, BuildsFor row.1 row.2.kinds := by
  simp only [romDataMovement, List.forall_mem_cons]
  refine ⟨?_, ?_, ?_, ?_, ?_, ?_, ?_, ?_, ?_, ?_, ?_, ?_, by simp⟩
  · intro ops h; obtain ⟨a, b, rfl⟩ := opsRR h; exact ⟨_, rfl, rfl, rfl⟩
  · intro ops h; obtain ⟨a, b, rfl⟩ := opsCR h; exact ⟨_, rfl, rfl, rfl⟩
  · intro ops h; obtain ⟨a, b, rfl⟩ := opsMR h; exact ⟨_, rfl, rfl, rfl⟩
  · intro ops h; obtain ⟨a, b, rfl⟩ := opsRM h; exact ⟨_, rfl, rfl, rfl⟩
  · intro ops h; obtain ⟨a, b, rfl⟩ := opsCM h; exact ⟨_, rfl, rfl, rfl⟩
  · intro ops h; obtain ⟨f, s, rfl⟩ := opsP h; exact ⟨_, rfl, rfl, rfl⟩
  · intro ops h; obtain ⟨f, s, rfl⟩ := opsP h; exact ⟨_, rfl, rfl, rfl⟩
  · intro ops h; obtain ⟨a, b, rfl⟩ := opsMR h; exact ⟨_, rfl, rfl, rfl⟩
  · intro ops h; obtain ⟨a, b, rfl⟩ := opsRM h; exact ⟨_, rfl, rfl, rfl⟩
  · intro ops h; obtain ⟨a, b, rfl⟩ := opsCM h; exact ⟨_, rfl, rfl, rfl⟩
  · intro ops h; obtain ⟨f, s, rfl⟩ := opsP h; exact ⟨_, rfl, rfl, rfl⟩
  · intro ops h; obtain ⟨f, s, rfl⟩ := opsP h; exact ⟨_, rfl, rfl, rfl⟩

theorem buildsArithmetic : ∀ row ∈ romArithmetic, BuildsFor row.1 row.2.kinds := by
  simp only [romArithmetic, List.forall_mem_cons]
  refine ⟨?_, ?_, ?_, ?_, ?_, ?_, ?_, ?_, ?_, by simp⟩
  · intro ops h; obtain ⟨a, b, rfl⟩ := opsRR h; exact ⟨_, rfl, rfl, rfl⟩
  · intro ops h; obtain ⟨a, b, rfl⟩ := opsCR h; exact ⟨_, rfl, rfl, rfl⟩
  · intro ops h; obtain ⟨a, b, rfl⟩ := opsRR h; exact ⟨_, rfl, rfl, rfl⟩
  · intro ops h; obtain ⟨a, b, rfl⟩ := opsCR h; exact ⟨_, rfl, rfl, rfl⟩
  · intro ops h; obtain ⟨a, b, rfl⟩ := opsRR h; exact ⟨_, rfl, rfl, rfl⟩
  · intro ops h; obtain ⟨a, b, rfl⟩ := opsRR h; exact ⟨_, rfl, rfl, rfl⟩
  · intro ops h; obtain ⟨a, b, rfl⟩ := opsRR h; exact ⟨_, rfl, rfl, rfl⟩
  · intro ops h; obtain ⟨a, rfl⟩ := opsR h; exact ⟨_, rfl, rfl, rfl⟩
  · intro ops h; obtain ⟨a, rfl⟩ := opsR h; exact ⟨_, rfl, rfl, rfl⟩

theorem buildsLogic : ∀ row ∈ romLogic, BuildsFor row.1 row.2.kinds := by
  simp only [romLogic, List.forall_mem_cons]
  refine ⟨?_, ?_, ?_, ?_, ?_, ?_, by simp⟩
  · intro ops h; obtain ⟨a, b, rfl⟩ := opsRR h; exact ⟨_, rfl, rfl, rfl⟩
  · intro ops h; obtain ⟨a, b, rfl⟩ := opsRR h; exact ⟨_, rfl, rfl, rfl⟩
  · intro ops h; obtain ⟨a, b, rfl⟩ := opsRR h; exact ⟨_, rfl, rfl, rfl⟩
  · intro ops h; obtain ⟨a, rfl⟩ := opsR h; exact ⟨_, rfl, rfl, rfl⟩
  · intro ops h; obtain ⟨a, rfl⟩ := opsR h; exact ⟨_, rfl, rfl, rfl⟩
  · intro ops h; obtain ⟨a, rfl⟩ := opsR h; exact ⟨_, rfl, rfl, rfl⟩

theorem buildsCompare : ∀ row ∈ romCompare, BuildsFor row.1 row.2.kinds := by
  simp only [romCompare, List.forall_mem_cons]
  refine ⟨?_, ?_, ?_, ?_, ?_, ?_, ?_, ?_, by simp⟩
  · intro ops h; obtain ⟨a, b, rfl⟩ := opsRR h; exact ⟨_, rfl, rfl, rfl⟩
  · intro ops h; obtain ⟨a, b, rfl⟩ := opsRC h; exact ⟨_, rfl, rfl, rfl⟩
  · intro ops h; obtain ⟨a, b, rfl⟩ := opsRR h; exact ⟨_, rfl, rfl, rfl⟩
  · intro ops h; obtain ⟨a, b, rfl⟩ := opsRC h; exact ⟨_, rfl, rfl, rfl⟩
  · intro ops h; obtain ⟨a, b, rfl⟩ := opsRR h; exact ⟨_, rfl, rfl, rfl⟩
  · intro ops h; obtain ⟨a, b, rfl⟩ := opsRC h; exact ⟨_, rfl, rfl, rfl⟩
  · intro ops h; obtain rfl := operands_of_no_kind h; exact ⟨_, rfl, rfl, rfl⟩
  · intro ops h; obtain rfl := operands_of_no_kind h; exact ⟨_, rfl, rfl, rfl⟩

theorem buildsControl : ∀ row ∈ romControl, BuildsFor row.1 row.2.kinds := by
  simp only [romControl, List.forall_mem_cons]
  refine ⟨?_, ?_, ?_, ?_, ?_, ?_, by simp⟩
  · intro ops h; obtain ⟨a, rfl⟩ := opsM h; exact ⟨_, rfl, rfl, rfl⟩
  · intro ops h; obtain ⟨a, rfl⟩ := opsR h; exact ⟨_, rfl, rfl, rfl⟩
  · intro ops h; obtain ⟨a, rfl⟩ := opsM h; exact ⟨_, rfl, rfl, rfl⟩
  · intro ops h; obtain ⟨a, rfl⟩ := opsM h; exact ⟨_, rfl, rfl, rfl⟩
  · intro ops h; obtain ⟨a, rfl⟩ := opsM h; exact ⟨_, rfl, rfl, rfl⟩
  · intro ops h; obtain rfl := operands_of_no_kind h; exact ⟨_, rfl, rfl, rfl⟩

/-- Operands of the kinds an opcode's descriptor lists build an instruction, and that instruction has
this opcode and these operands. -/
theorem build_of_kinds {b : Byte} {d : Descriptor} (h : lookup b = some d) {ops : List Operand}
    (hk : ops.map Operand.kind = d.kinds) :
    ∃ i, build b ops = some i ∧ i.opcode = b ∧ i.operands = ops := by
  have hm := mem_rom_of_lookup h
  simp only [rom, List.mem_append] at hm
  rcases hm with ((((hm | hm) | hm) | hm) | hm) | hm
  · exact buildsSystem _ hm ops hk
  · exact buildsDataMovement _ hm ops hk
  · exact buildsArithmetic _ hm ops hk
  · exact buildsLogic _ hm ops hk
  · exact buildsCompare _ hm ops hk
  · exact buildsControl _ hm ops hk

/-- Every bound opcode takes at most two operands (00_scope.md rule R12). -/
theorem n_le_two {b : Byte} {d : Descriptor} (h : lookup b = some d) : d.n ≤ 2 := by
  have : ∀ row ∈ rom, row.2.n ≤ 2 := by decide
  exact this _ (mem_rom_of_lookup h)

end Sys2Proof
end

