-- ==== Sys2Proof/Laws/Assembler.lean ====
section
/-! SUPPORT. The assembler on the text of instructions: what the splitters do, what each operand
spelling parses to, what one line of an instruction's text becomes, with or without labels in it, and
what the two passes make of a source with labels. -/

namespace Sys2Proof.Machine.Assembler

/-! ## Splitting -/

theorem splitOn_ne_nil (sep : Char → Bool) (cs : List Char) : splitOn sep cs ≠ [] := by
  cases cs with
  | nil => simp [splitOn]
  | cons c cs =>
    unfold splitOn
    split
    · simp
    · split <;> simp

/-- Characters that do not separate join the piece after them. -/
theorem splitOn_append {sep : Char → Bool} {w : List Char} (hw : ∀ c ∈ w, sep c = false)
    {rest piece : List Char} {pieces : List (List Char)} (hr : splitOn sep rest = piece :: pieces) :
    splitOn sep (w ++ rest) = (w ++ piece) :: pieces := by
  induction w with
  | nil => exact hr
  | cons c w ih =>
    have hc : sep c = false := hw c (by simp)
    have := ih fun d hd => hw d (by simp [hd])
    simp [splitOn, hc, this]

theorem splitOn_self {sep : Char → Bool} {w : List Char} (hw : ∀ c ∈ w, sep c = false) :
    splitOn sep w = [w] := by
  have := splitOn_append hw (rest := []) (piece := []) (pieces := []) rfl
  simpa using this

theorem splitOn_sep {sep : Char → Bool} {w : List Char} (hw : ∀ c ∈ w, sep c = false) {c : Char}
    (hc : sep c = true) (rest : List Char) :
    splitOn sep (w ++ c :: rest) = w :: splitOn sep rest := by
  have := splitOn_append hw (rest := c :: rest) (piece := []) (pieces := splitOn sep rest)
    (by simp [splitOn, hc])
  simpa using this

/-- A token text: not empty, and without blanks or line ends. -/
def isTokenText (w : List Char) : Bool :=
  !w.isEmpty && w.all fun c => !isBlank c && c != '\n'

theorem isTokenText_noBlank {w : List Char} (h : isTokenText w = true) :
    ∀ c ∈ w, isBlank c = false := by
  simp only [isTokenText, Bool.and_eq_true, List.all_eq_true, Bool.not_eq_true'] at h
  exact fun c hc => (h.2 c hc).1

theorem isTokenText_noEnd {w : List Char} (h : isTokenText w = true) :
    ∀ c ∈ w, (c == '\n') = false := by
  simp only [isTokenText, Bool.and_eq_true, List.all_eq_true] at h
  exact fun c hc => by simpa using (h.2 c hc).2

theorem isTokenText_ne_nil {w : List Char} (h : isTokenText w = true) : w.isEmpty = false := by
  simp only [isTokenText, Bool.and_eq_true, Bool.not_eq_true'] at h
  exact h.1

/-- Token texts with one space before each but the first are read back as they are. -/
theorem words_tokens (w : List Char) (ws : List (List Char))
    (h : ∀ t ∈ w :: ws, isTokenText t = true) :
    words (w ++ ws.flatMap fun t => ' ' :: t) = w :: ws := by
  have hs : splitOn isBlank (w ++ ws.flatMap fun t => ' ' :: t) = w :: ws := by
    induction ws generalizing w with
    | nil => simpa using splitOn_self (isTokenText_noBlank (h w (by simp)))
    | cons v ws ih =>
      have := ih v fun t ht => h t (by simp only [List.mem_cons] at ht ⊢; exact .inr ht)
      rw [List.flatMap_cons, List.cons_append, splitOn_sep (isTokenText_noBlank (h w (by simp))) rfl,
        this]
  rw [words, hs, List.filter_eq_self]
  intro t ht
  simp [isTokenText_ne_nil (h t ht)]

theorem noEnd_tokens (w : List Char) (ws : List (List Char))
    (h : ∀ t ∈ w :: ws, isTokenText t = true) :
    ∀ c ∈ w ++ ws.flatMap fun t => ' ' :: t, (c == '\n') = false := by
  intro c hc
  simp only [List.mem_append, List.mem_flatMap, List.mem_cons] at hc
  rcases hc with hc | ⟨t, ht, rfl | hc⟩
  · exact isTokenText_noEnd (h w (by simp)) c hc
  · rfl
  · exact isTokenText_noEnd (h t (by simp [ht])) c hc

/-! ## Operand spellings -/

/-- A spelling that is a token text and parses to a token. -/
def Spells (w : List Char) (t : Token) : Prop := isTokenText w = true ∧ parseToken w = .ok t

theorem spells_of {w : List Char} {t : Token}
    (h : (isTokenText w && ((parseToken w).toOption == some t)) = true) : Spells w t := by
  simp only [Bool.and_eq_true, beq_iff_eq] at h
  refine ⟨h.1, ?_⟩
  cases hp : parseToken w with
  | error e => rw [hp] at h; cases h.2
  | ok u => rw [hp] at h; cases h.2; rfl

theorem isLabelName_isTokenText {name : List Char} (h : isLabelName name = true) :
    isTokenText (':' :: name) = true := by
  have key : ∀ c : Char, (isLetter c || isDigit c || c == '_') = true →
      (!isBlank c && c != '\n') = true := by
    intro c hc
    simp only [isBlank, Bool.and_eq_true, Bool.not_eq_true', Bool.or_eq_false_iff,
      beq_eq_false_iff_ne, bne_iff_ne]
    refine ⟨⟨?_, ?_⟩, ?_⟩ <;> (rintro rfl; exact absurd hc (by decide))
  cases name with
  | nil => cases h
  | cons c cs =>
    simp only [isLabelName, Bool.and_eq_true, List.all_eq_true] at h
    simp only [isTokenText, List.isEmpty_cons, Bool.not_false, Bool.true_and, List.all_eq_true]
    intro d hd
    rcases List.mem_cons.1 hd with rfl | hd
    · decide
    · rcases List.mem_cons.1 hd with rfl | hd
      · exact key d (by rw [Bool.or_right_comm, h.1]; rfl)
      · exact key d (h.2 d hd)

/-- Characters between two token texts join them into one. -/
theorem isTokenText_append {v w : List Char} (hv : isTokenText v = true)
    (hw : isTokenText w = true) : isTokenText (v ++ w) = true := by
  simp only [isTokenText, Bool.and_eq_true, List.all_append] at *
  exact ⟨by cases v <;> simp at hv ⊢, hv.2, hw.2⟩

/-- The value that a literal, or the label that stands for it, is read as. -/
def valueOf : Option (List Char) → Byte → Value
  | none, b => .literal b
  | some name, _ => .label name

theorem parseValue_label {name : List Char} (h : isLabelName name = true) :
    parseValue (':' :: name) = .ok (.label name) := by
  simp [parseValue, h]

theorem spells_constant (name : Option (List Char)) (c : Byte)
    (hn : ∀ n, name = some n → isLabelName n = true) :
    Spells (['N', 'U', 'M'] ++ valueText name c) (.constant (valueOf name c)) := by
  cases name with
  | none =>
    exact spells_of ((by decide +kernel : ∀ n : Fin 256,
      (isTokenText (['N', 'U', 'M'] ++ decimalDigits (BitVec.ofFin n)) &&
        ((parseToken (['N', 'U', 'M'] ++ decimalDigits (BitVec.ofFin n))).toOption ==
          some (.constant (.literal (BitVec.ofFin n))))) = true) c.toFin)
  | some n =>
    have hn := hn n rfl
    refine ⟨isTokenText_append (by decide) (isLabelName_isTokenText hn), ?_⟩
    have hr : isRegisterLike ('N' :: 'U' :: 'M' :: ':' :: n) = false := rfl
    have ha : afterNum ('N' :: 'U' :: 'M' :: ':' :: n) = some (':' :: n) := rfl
    simp [valueText, valueOf, parseToken, hr, ha, parseValue_label hn, Except.map]

theorem spells_memoryReference (name : Option (List Char)) (m : Byte)
    (hn : ∀ n, name = some n → isLabelName n = true) :
    Spells (['['] ++ valueText name m ++ [']']) (.memoryReference (valueOf name m)) := by
  cases name with
  | none =>
    exact spells_of ((by decide +kernel : ∀ n : Fin 256,
      (isTokenText (['['] ++ decimalDigits (BitVec.ofFin n) ++ [']']) &&
        ((parseToken (['['] ++ decimalDigits (BitVec.ofFin n) ++ [']'])).toOption ==
          some (.memoryReference (.literal (BitVec.ofFin n))))) = true) m.toFin)
  | some n =>
    have hn := hn n rfl
    refine ⟨isTokenText_append (isTokenText_append (by decide) (isLabelName_isTokenText hn))
      (by decide), ?_⟩
    have hl : (':' :: (n ++ [']'])).getLast? = some ']' := by
      rw [show ':' :: (n ++ [']']) = (':' :: n) ++ [']'] from rfl, List.getLast?_append]
      rfl
    have hd : (':' :: (n ++ [']'])).dropLast = ':' :: n := by
      rw [show ':' :: (n ++ [']']) = (':' :: n) ++ [']'] from rfl, List.dropLast_concat]
    have hr : isRegisterLike (':' :: n) = false := rfl
    simp [valueText, valueOf, parseToken, hl, hd, parseBracket, hr, parseValue_label hn, Except.map]

theorem spells_target (name : Option (List Char)) (m : Byte)
    (hn : ∀ n, name = some n → isLabelName n = true) :
    Spells (valueText name m) (.target (valueOf name m)) := by
  cases name with
  | none =>
    exact spells_of ((by decide +kernel : ∀ n : Fin 256,
      (isTokenText (decimalDigits (BitVec.ofFin n)) &&
        ((parseToken (decimalDigits (BitVec.ofFin n))).toOption ==
          some (.target (.literal (BitVec.ofFin n))))) = true) m.toFin)
  | some n =>
    have hn := hn n rfl
    refine ⟨isLabelName_isTokenText hn, ?_⟩
    have hr : isRegisterLike (':' :: n) = false := rfl
    have ha : afterNum (':' :: n) = none := by
      unfold afterNum
      split
      · next h => cases h; simp [show (upper ':' == 'N') = false by decide]
      · rfl
    simp [valueText, valueOf, parseToken, hr, ha, parseValue_label hn, Except.map]

theorem spells_register (r : Reg) : Spells (registerText r) (.register r) :=
  spells_of (by revert r; decide)

theorem spells_registerIndirect (r : Reg) :
    Spells (['['] ++ registerText r ++ [']']) (.registerIndirect r) :=
  spells_of (by revert r; decide)

/-- Spellings of the tokens of a line, one each. -/
def SpellAll : List (List Char) → List Token → Prop
  | [], [] => True
  | w :: ws, t :: ts => Spells w t ∧ SpellAll ws ts
  | _, _ => False

theorem SpellAll.parse {ws : List (List Char)} {ts : List Token} (h : SpellAll ws ts) :
    parseTokens ws = .ok ts := by
  induction ws generalizing ts with
  | nil => cases ts with
    | nil => rfl
    | cons => exact h.elim
  | cons w ws ih => cases ts with
    | nil => exact h.elim
    | cons t ts => simp [parseTokens, h.1.2, ih h.2]

theorem SpellAll.isTokenText {ws : List (List Char)} {ts : List Token} (h : SpellAll ws ts) :
    ∀ w ∈ ws, isTokenText w = true := by
  induction ws generalizing ts with
  | nil => simp
  | cons w ws ih => cases ts with
    | nil => exact h.elim
    | cons t ts =>
      intro v hv
      rcases List.mem_cons.1 hv with rfl | hv
      · exact h.1.1
      · exact ih h.2 v hv

/-! ## What operand tokens stand for -/

/-- The byte of an operand, its label resolved among the bound ones. -/
def LabelUse.byteIn (use : LabelUse) (labels : Labels) (o : Operand) : Except ErrorKind Byte :=
  match use.labelOf o with
  | none => .ok o.byte
  | some n => resolve labels (.label n)

/-- The bytes of operands, up to the first label that does not resolve. -/
def LabelUse.bytesIn (use : LabelUse) (labels : Labels) : List Operand → Except ErrorKind (List Byte)
  | [] => .ok []
  | o :: os =>
    match use.byteIn labels o with
    | .error e => .error e
    | .ok b =>
      match use.bytesIn labels os with
      | .error e => .error e
      | .ok bs => .ok (b :: bs)

theorem LabelUse.byteIn_ok {use : LabelUse} {labels : Labels} {offset : List Char → Nat} {o : Operand}
    (h : ∀ n, use.labelOf o = some n →
      resolve labels (.label n) = .ok (BitVec.ofNat 8 (offset n))) :
    use.byteIn labels o = .ok (use.byteOf offset o) := by
  unfold LabelUse.byteIn LabelUse.byteOf
  cases hl : use.labelOf o with
  | none => rfl
  | some n => exact h n hl

/-- Where every label resolves, the bytes are those of the offsets. -/
theorem LabelUse.bytesIn_ok {use : LabelUse} {labels : Labels} {offset : List Char → Nat}
    {os : List Operand} (h : ∀ n ∈ os.filterMap use.labelOf,
      resolve labels (.label n) = .ok (BitVec.ofNat 8 (offset n))) :
    use.bytesIn labels os = .ok (os.map (use.byteOf offset)) := by
  induction os with
  | nil => rfl
  | cons o os ih =>
    have ho := LabelUse.byteIn_ok fun n hl => h n (List.mem_filterMap.2 ⟨o, by simp, hl⟩)
    have hos := ih fun n hm => h n (by
      obtain ⟨o', ho', e⟩ := List.mem_filterMap.1 hm
      exact List.mem_filterMap.2 ⟨o', by simp [ho'], e⟩)
    simp [LabelUse.bytesIn, ho, hos]

/-- Either every label resolves, or the bytes end in the error of one that does not. -/
theorem LabelUse.bytesIn_cases (use : LabelUse) (labels : Labels) (os : List Operand) :
    ((∃ bs, use.bytesIn labels os = .ok bs) ∧
      ∀ n ∈ os.filterMap use.labelOf, ∃ b, resolve labels (.label n) = .ok b) ∨
    ∃ n ∈ os.filterMap use.labelOf, ∃ e,
      resolve labels (.label n) = .error e ∧ use.bytesIn labels os = .error e := by
  induction os with
  | nil => exact .inl ⟨⟨[], rfl⟩, by simp⟩
  | cons o os ih =>
    simp only [List.filterMap_cons, LabelUse.bytesIn, LabelUse.byteIn]
    cases hl : use.labelOf o with
    | none =>
      rcases ih with ⟨⟨bs, hb⟩, hr⟩ | ⟨n, hn, e, he, hb⟩
      · exact .inl ⟨⟨o.byte :: bs, by simp [hb]⟩, hr⟩
      · exact .inr ⟨n, hn, e, he, by simp [hb]⟩
    | some m =>
      cases hm : resolve labels (.label m) with
      | error e => exact .inr ⟨m, by simp, e, hm, by simp [hm]⟩
      | ok b =>
        rcases ih with ⟨⟨bs, hb⟩, hr⟩ | ⟨n, hn, e, he, hb⟩
        · refine .inl ⟨⟨b :: bs, by simp [hm, hb]⟩, fun n hn => ?_⟩
          rcases List.mem_cons.1 hn with rfl | hn
          · exact ⟨b, hm⟩
          · exact hr n hn
        · exact .inr ⟨n, by simp [hn], e, he, by simp [hm, hb]⟩

/-- A text reads as a token, which stands for an operand of its own (not a register pair). -/
structure Reads (use : LabelUse) (w : List Char) (t : Token) (o : Operand) : Prop where
  spells : (∀ n, use.labelOf o = some n → isLabelName n = true) → Spells w t
  byte : ∀ labels, tokenByte labels t = use.byteIn labels o

theorem resolve_valueOf (use : LabelUse) (labels : Labels) (o : Operand) :
    resolve labels (valueOf (use.labelOf o) o.byte) = use.byteIn labels o := by
  unfold LabelUse.byteIn
  cases use.labelOf o <;> rfl

theorem reads_constant (use : LabelUse) (c : Byte) :
    Reads use (['N', 'U', 'M'] ++ valueText use.constant c) (.constant (valueOf use.constant c))
      (.constant c) :=
  ⟨spells_constant _ c, fun labels => resolve_valueOf use labels (.constant c)⟩

theorem reads_memoryReference (use : LabelUse) (m : Byte) :
    Reads use (['['] ++ valueText use.address m ++ [']']) (.memoryReference (valueOf use.address m))
      (.address m) :=
  ⟨spells_memoryReference _ m, fun labels => resolve_valueOf use labels (.address m)⟩

theorem reads_target (use : LabelUse) (m : Byte) :
    Reads use (valueText use.address m) (.target (valueOf use.address m)) (.address m) :=
  ⟨spells_target _ m, fun labels => resolve_valueOf use labels (.address m)⟩

theorem reads_register (use : LabelUse) (r : Reg) :
    Reads use (registerText r) (.register r) (.register r) :=
  ⟨fun _ => spells_register r, fun _ => rfl⟩

/-- The texts of a line read as tokens that stand for its operands, one each. -/
def ReadAll (use : LabelUse) : List (List Char) → List Token → List Operand → Prop
  | [], [], [] => True
  | w :: ws, t :: ts, o :: os => Reads use w t o ∧ ReadAll use ws ts os
  | _, _, _ => False

theorem ReadAll.spell {use : LabelUse} {ws : List (List Char)} {ts : List Token}
    {os : List Operand} (h : ReadAll use ws ts os)
    (hn : ∀ n ∈ os.filterMap use.labelOf, isLabelName n = true) : SpellAll ws ts := by
  induction ws generalizing ts os with
  | nil => cases ts <;> cases os <;> first | exact h.elim | trivial
  | cons w ws ih => cases ts <;> cases os <;> first
    | exact h.elim
    | exact ⟨h.1.spells fun n e => hn n (List.mem_filterMap.2 ⟨_, by simp, e⟩),
        ih h.2 fun n hm => hn n (by
          obtain ⟨o, ho, e⟩ := List.mem_filterMap.1 hm
          exact List.mem_filterMap.2 ⟨o, by simp [ho], e⟩)⟩

theorem ReadAll.bytes {use : LabelUse} {ws : List (List Char)} {ts : List Token}
    {os : List Operand} (h : ReadAll use ws ts os) (labels : Labels) :
    tokenBytes labels ts = use.bytesIn labels os := by
  induction ws generalizing ts os with
  | nil => cases ts <;> cases os <;> first | exact h.elim | rfl
  | cons w ws ih =>
    match ts, os, h with
    | t :: ts, o :: os, h =>
      have hb := h.1.byte labels
      have hs := ih h.2
      cases ho : use.byteIn labels o <;> cases hos : use.bytesIn labels os <;>
        simp [tokenBytes, LabelUse.bytesIn, hb, hs, ho, hos]

/-! ## The line of an instruction -/

/-- How a ROM row's mnemonic and an instruction's operand texts make its line, and what bytes its
tokens become. -/
structure Spelling (use : LabelUse) (i : Instr) (d : Descriptor) (ws : List (List Char))
    (ts : List Token) : Prop where
  row : lookup i.opcode = some d
  kinds : d.kinds = i.operands.map Operand.kind
  texts : operandTexts use d.tokens i.operands = ws
  operands : (∀ n ∈ i.operands.filterMap use.labelOf, isLabelName n = true) → SpellAll ws ts
  chosen : chooseRow d.mnemonic.toList (ts.map Token.type) = some (i.opcode, d)
  bytes : ∀ labels, operandBytes labels d.kinds ts = use.bytesIn labels i.operands
  mnemonic : isTokenText d.mnemonic.toList = true
  plain : ∀ c cs, d.mnemonic.toList = c :: cs → c ≠ ';' ∧ c ≠ ':'

/-- Every instruction's text is spelled from its row, whatever labels stand for its literals. -/
theorem spelling (use : LabelUse) (i : Instr) : ∃ d ws ts, Spelling use i d ws ts := by
  have plain : ∀ d : Descriptor, (∃ b, (b, d) ∈ rom) →
      ∀ c cs, d.mnemonic.toList = c :: cs → c ≠ ';' ∧ c ≠ ':' := by
    have h : ∀ row ∈ rom, row.2.mnemonic.toList.head? ≠ some ';' ∧
        row.2.mnemonic.toList.head? ≠ some ':' := by decide
    rintro d ⟨b, hb⟩ c cs hc
    have := h (b, d) hb
    simp only [hc, List.head?_cons, ne_eq, Option.some.injEq] at this
    exact this
  have spelled : ∀ (d : Descriptor) (ts : List Token), lookup i.opcode = some d →
      d.kinds = i.operands.map Operand.kind →
      ReadAll use (operandTexts use d.tokens i.operands) ts i.operands →
      chooseRow d.mnemonic.toList (ts.map Token.type) = some (i.opcode, d) →
      (∀ labels, operandBytes labels d.kinds ts = tokenBytes labels ts) →
      isTokenText d.mnemonic.toList = true → ∃ d ws ts, Spelling use i d ws ts :=
    fun d ts h1 h2 h3 h4 h5 h6 =>
      ⟨d, _, ts, h1, h2, rfl, h3.spell, h4, fun labels => (h5 labels).trans (h3.bytes labels), h6,
        plain d ⟨_, mem_rom_of_lookup h1⟩⟩
  have paired : ∀ (d : Descriptor) (ts : List Token), lookup i.opcode = some d →
      d.kinds = i.operands.map Operand.kind → SpellAll (operandTexts use d.tokens i.operands) ts →
      chooseRow d.mnemonic.toList (ts.map Token.type) = some (i.opcode, d) →
      (∀ labels, operandBytes labels d.kinds ts = use.bytesIn labels i.operands) →
      isTokenText d.mnemonic.toList = true → ∃ d ws ts, Spelling use i d ws ts :=
    fun d ts h1 h2 h3 h4 h5 h6 =>
      ⟨d, _, ts, h1, h2, rfl, fun _ => h3, h4, h5, h6, plain d ⟨_, mem_rom_of_lookup h1⟩⟩
  cases i with
  | nop => exact spelled _ [] rfl rfl trivial rfl (fun _ => rfl) rfl
  | movRegReg r1 r2 =>
    exact spelled _ [.register r1, .register r2] rfl rfl
      ⟨reads_register use r1, reads_register use r2, trivial⟩ rfl (fun _ => rfl) rfl
  | movConstReg c r =>
    exact spelled _ [.constant (valueOf use.constant c), .register r] rfl rfl
      ⟨reads_constant use c, reads_register use r, trivial⟩ rfl (fun _ => rfl) rfl
  | movMemReg m r =>
    exact spelled _ [.memoryReference (valueOf use.address m), .register r] rfl rfl
      ⟨reads_memoryReference use m, reads_register use r, trivial⟩ rfl (fun _ => rfl) rfl
  | movRegMem r m =>
    exact spelled _ [.register r, .memoryReference (valueOf use.address m)] rfl rfl
      ⟨reads_register use r, reads_memoryReference use m, trivial⟩ rfl (fun _ => rfl) rfl
  | movConstMem c m =>
    exact spelled _ [.constant (valueOf use.constant c), .memoryReference (valueOf use.address m)] rfl rfl
      ⟨reads_constant use c, reads_memoryReference use m, trivial⟩ rfl (fun _ => rfl) rfl
  | movIndReg r1 r2 =>
    exact paired _ [.registerIndirect r1, .register r2] rfl rfl
      ⟨spells_registerIndirect r1, spells_register r2, trivial⟩ rfl (fun _ => rfl) rfl
  | movRegInd r1 r2 =>
    exact paired _ [.register r1, .registerIndirect r2] rfl rfl
      ⟨spells_register r1, spells_registerIndirect r2, trivial⟩ rfl (fun _ => rfl) rfl
  | vmovMemReg m r =>
    exact spelled _ [.memoryReference (valueOf use.address m), .register r] rfl rfl
      ⟨reads_memoryReference use m, reads_register use r, trivial⟩ rfl (fun _ => rfl) rfl
  | vmovRegMem r m =>
    exact spelled _ [.register r, .memoryReference (valueOf use.address m)] rfl rfl
      ⟨reads_register use r, reads_memoryReference use m, trivial⟩ rfl (fun _ => rfl) rfl
  | vmovConstMem c m =>
    exact spelled _ [.constant (valueOf use.constant c), .memoryReference (valueOf use.address m)] rfl rfl
      ⟨reads_constant use c, reads_memoryReference use m, trivial⟩ rfl (fun _ => rfl) rfl
  | vmovIndReg r1 r2 =>
    exact paired _ [.registerIndirect r1, .register r2] rfl rfl
      ⟨spells_registerIndirect r1, spells_register r2, trivial⟩ rfl (fun _ => rfl) rfl
  | vmovRegInd r1 r2 =>
    exact paired _ [.register r1, .registerIndirect r2] rfl rfl
      ⟨spells_register r1, spells_registerIndirect r2, trivial⟩ rfl (fun _ => rfl) rfl
  | addReg r1 r2 =>
    exact spelled _ [.register r1, .register r2] rfl rfl
      ⟨reads_register use r1, reads_register use r2, trivial⟩ rfl (fun _ => rfl) rfl
  | addConst c r =>
    exact spelled _ [.constant (valueOf use.constant c), .register r] rfl rfl
      ⟨reads_constant use c, reads_register use r, trivial⟩ rfl (fun _ => rfl) rfl
  | subReg r1 r2 =>
    exact spelled _ [.register r1, .register r2] rfl rfl
      ⟨reads_register use r1, reads_register use r2, trivial⟩ rfl (fun _ => rfl) rfl
  | subConst c r =>
    exact spelled _ [.constant (valueOf use.constant c), .register r] rfl rfl
      ⟨reads_constant use c, reads_register use r, trivial⟩ rfl (fun _ => rfl) rfl
  | mulReg r1 r2 =>
    exact spelled _ [.register r1, .register r2] rfl rfl
      ⟨reads_register use r1, reads_register use r2, trivial⟩ rfl (fun _ => rfl) rfl
  | divReg r1 r2 =>
    exact spelled _ [.register r1, .register r2] rfl rfl
      ⟨reads_register use r1, reads_register use r2, trivial⟩ rfl (fun _ => rfl) rfl
  | modReg r1 r2 =>
    exact spelled _ [.register r1, .register r2] rfl rfl
      ⟨reads_register use r1, reads_register use r2, trivial⟩ rfl (fun _ => rfl) rfl
  | inc r =>
    exact spelled _ [.register r] rfl rfl
      ⟨reads_register use r, trivial⟩ rfl (fun _ => rfl) rfl
  | dec r =>
    exact spelled _ [.register r] rfl rfl
      ⟨reads_register use r, trivial⟩ rfl (fun _ => rfl) rfl
  | andReg r1 r2 =>
    exact spelled _ [.register r1, .register r2] rfl rfl
      ⟨reads_register use r1, reads_register use r2, trivial⟩ rfl (fun _ => rfl) rfl
  | orReg r1 r2 =>
    exact spelled _ [.register r1, .register r2] rfl rfl
      ⟨reads_register use r1, reads_register use r2, trivial⟩ rfl (fun _ => rfl) rfl
  | xorReg r1 r2 =>
    exact spelled _ [.register r1, .register r2] rfl rfl
      ⟨reads_register use r1, reads_register use r2, trivial⟩ rfl (fun _ => rfl) rfl
  | notReg r =>
    exact spelled _ [.register r] rfl rfl
      ⟨reads_register use r, trivial⟩ rfl (fun _ => rfl) rfl
  | shl r =>
    exact spelled _ [.register r] rfl rfl
      ⟨reads_register use r, trivial⟩ rfl (fun _ => rfl) rfl
  | shr r =>
    exact spelled _ [.register r] rfl rfl
      ⟨reads_register use r, trivial⟩ rfl (fun _ => rfl) rfl
  | eqReg r1 r2 =>
    exact spelled _ [.register r1, .register r2] rfl rfl
      ⟨reads_register use r1, reads_register use r2, trivial⟩ rfl (fun _ => rfl) rfl
  | eqConst r c =>
    exact spelled _ [.register r, .constant (valueOf use.constant c)] rfl rfl
      ⟨reads_register use r, reads_constant use c, trivial⟩ rfl (fun _ => rfl) rfl
  | ltReg r1 r2 =>
    exact spelled _ [.register r1, .register r2] rfl rfl
      ⟨reads_register use r1, reads_register use r2, trivial⟩ rfl (fun _ => rfl) rfl
  | ltConst r c =>
    exact spelled _ [.register r, .constant (valueOf use.constant c)] rfl rfl
      ⟨reads_register use r, reads_constant use c, trivial⟩ rfl (fun _ => rfl) rfl
  | gtReg r1 r2 =>
    exact spelled _ [.register r1, .register r2] rfl rfl
      ⟨reads_register use r1, reads_register use r2, trivial⟩ rfl (fun _ => rfl) rfl
  | gtConst r c =>
    exact spelled _ [.register r, .constant (valueOf use.constant c)] rfl rfl
      ⟨reads_register use r, reads_constant use c, trivial⟩ rfl (fun _ => rfl) rfl
  | setc => exact spelled _ [] rfl rfl trivial rfl (fun _ => rfl) rfl
  | clrc => exact spelled _ [] rfl rfl trivial rfl (fun _ => rfl) rfl
  | jmp m =>
    exact spelled _ [.target (valueOf use.address m)] rfl rfl
      ⟨reads_target use m, trivial⟩ rfl (fun _ => rfl) rfl
  | jmpReg r =>
    exact spelled _ [.register r] rfl rfl
      ⟨reads_register use r, trivial⟩ rfl (fun _ => rfl) rfl
  | jc m =>
    exact spelled _ [.target (valueOf use.address m)] rfl rfl
      ⟨reads_target use m, trivial⟩ rfl (fun _ => rfl) rfl
  | jnc m =>
    exact spelled _ [.target (valueOf use.address m)] rfl rfl
      ⟨reads_target use m, trivial⟩ rfl (fun _ => rfl) rfl
  | call m =>
    exact spelled _ [.target (valueOf use.address m)] rfl rfl
      ⟨reads_target use m, trivial⟩ rfl (fun _ => rfl) rfl
  | ret => exact spelled _ [] rfl rfl trivial rfl (fun _ => rfl) rfl
  | print r =>
    exact spelled _ [.register r] rfl rfl
      ⟨reads_register use r, trivial⟩ rfl (fun _ => rfl) rfl
  | bank c =>
    exact spelled _ [.constant (valueOf use.constant c)] rfl rfl
      ⟨reads_constant use c, trivial⟩ rfl (fun _ => rfl) rfl
  | palette c =>
    exact spelled _ [.constant (valueOf use.constant c)] rfl rfl
      ⟨reads_constant use c, trivial⟩ rfl (fun _ => rfl) rfl

/-- An instruction's text is its mnemonic and its operand texts, one space between. -/
theorem textUsing_eq {use : LabelUse} {i : Instr} {d : Descriptor} {ws : List (List Char)}
    {ts : List Token} (h : Spelling use i d ws ts) :
    textUsing use i = d.mnemonic.toList ++ ws.flatMap fun w => ' ' :: w := by
  simp [textUsing, h.row, h.texts]

/-- The line of an instruction has no line end, and is read as that instruction: its tokens become its
operands' bytes. -/
theorem parseLine_textUsing (use : LabelUse) (i : Instr)
    (hn : ∀ n ∈ i.operands.filterMap use.labelOf, isLabelName n = true) :
    (∀ c ∈ textUsing use i, (c == '\n') = false) ∧
    ∃ kinds ts, parseLine (textUsing use i) = .ok (.instruction i.opcode kinds ts) ∧
      kinds.length = i.operands.length ∧
      ∀ labels, operandBytes labels kinds ts = use.bytesIn labels i.operands := by
  obtain ⟨d, ws, ts, h⟩ := spelling use i
  have hs := h.operands hn
  have htok : ∀ t ∈ d.mnemonic.toList :: ws, isTokenText t = true := by
    intro t ht
    rcases List.mem_cons.1 ht with rfl | ht
    · exact h.mnemonic
    · exact hs.isTokenText t ht
  refine ⟨by rw [textUsing_eq h]; exact noEnd_tokens _ _ htok, d.kinds, ts, ?_, by simp [h.kinds],
    h.bytes⟩
  have hw : words (textUsing use i) = d.mnemonic.toList :: ws := by
    rw [textUsing_eq h, words_tokens _ _ htok]
  obtain ⟨c, cs, hc⟩ : ∃ c cs, d.mnemonic.toList = c :: cs := by
    cases hm : d.mnemonic.toList with
    | nil => have := isTokenText_ne_nil h.mnemonic; rw [hm] at this; cases this
    | cons c cs => exact ⟨c, cs, rfl⟩
  obtain ⟨hsemi, hcolon⟩ := h.plain c cs hc
  have hp : parseLine (textUsing use i) = parseInstruction d.mnemonic.toList ws := by
    unfold parseLine
    rw [hw, hc]
    split
    · next h0 => cases h0
    · next h0 => cases h0; exact absurd rfl hsemi
    · next h0 => cases h0; exact absurd rfl hcolon
    · next h0 => cases h0; rfl
  rw [hp]
  simp [parseInstruction, hs.parse, h.chosen]

theorem parseLine_label {name : List Char} (h : isLabelName name = true) :
    parseLine (':' :: name) = .ok (.label name) := by
  have hw := words_tokens (':' :: name) [] (by simpa using isLabelName_isTokenText h)
  simp only [List.flatMap_nil, List.append_nil] at hw
  simp [parseLine, hw, h]

/-! ## Source with labels -/

theorem lines_line {line : List Char} (h : ∀ c ∈ line, (c == '\n') = false) (rest : List Char) :
    lines (line ++ '\n' :: rest) = line :: lines rest :=
  splitOn_sep h rfl rest

theorem sourceText_cons (l : SourceLine) (source : List SourceLine) :
    sourceText (l :: source) = l.text ++ '\n' :: sourceText source := by
  simp [sourceText]

@[simp] theorem sourceSize_nil : sourceSize [] = 0 := rfl

@[simp] theorem sourceSize_cons (l : SourceLine) (source : List SourceLine) :
    sourceSize (l :: source) = l.size + sourceSize source := by
  simp [sourceSize]

theorem sourceSize_append (before after : List SourceLine) :
    sourceSize (before ++ after) = sourceSize before + sourceSize after := by
  simp [sourceSize]

/-- A program's text is the source text of its instructions with no label in it. -/
theorem programText_eq (program : List Instr) :
    programText program = sourceText (program.map fun i => .instruction i {}) := by
  simp [programText, sourceText, List.flatMap_map, SourceLine.text, text]

/-- An instruction with no label in it emits its encoding. -/
theorem bytes_plain (offset : List Char → Nat) (i : Instr) :
    (SourceLine.instruction i {}).bytes offset = encode i := by
  have : ∀ o : Operand, LabelUse.byteOf {} offset o = o.byte := by intro o; cases o <;> rfl
  simp [SourceLine.bytes, encode, this]

/-- The labels that pass one binds over the lines, the first line being at `offset`. -/
def labelsFrom (offset : Nat) : List SourceLine → Labels
  | [] => []
  | .label name :: source => (name, offset) :: labelsFrom offset source
  | .instruction i _ :: source => labelsFrom (offset + (1 + i.operands.length)) source

theorem labelsFrom_names (offset : Nat) (source : List SourceLine) :
    (labelsFrom offset source).map Prod.fst = source.flatMap SourceLine.declares := by
  induction source generalizing offset with
  | nil => rfl
  | cons l source ih => cases l <;> simp [labelsFrom, SourceLine.declares, ih]

/-- A bound label is declared at a line, and bound to the bytes emitted before that line. -/
theorem labelsFrom_offset {offset : Nat} {source : List SourceLine} {p : List Char × Nat}
    (h : p ∈ labelsFrom offset source) :
    ∃ before after, source = before ++ .label p.1 :: after ∧ p.2 = offset + sourceSize before := by
  induction source generalizing offset with
  | nil => cases h
  | cons l source ih =>
    cases l with
    | label name =>
      rcases List.mem_cons.1 h with rfl | h
      · exact ⟨[], source, rfl, by simp⟩
      · obtain ⟨before, after, e, hp⟩ := ih h
        exact ⟨.label name :: before, after, by rw [e]; rfl, by simp [hp, SourceLine.size]⟩
    | instruction i use =>
      obtain ⟨before, after, e, hp⟩ := ih h
      refine ⟨.instruction i use :: before, after, by rw [e]; rfl, ?_⟩
      simp only [hp, sourceSize_cons, SourceLine.size]
      omega

/-- A bound label's reference is the byte of its offset, where a byte holds that. -/
theorem resolve_bound {labels : Labels} {name : List Char} (h : name ∈ labels.map Prod.fst) :
    ∃ p ∈ labels, p.1 = name ∧ resolve labels (.label name) =
      if p.2 < 256 then .ok (BitVec.ofNat 8 p.2) else .error .literalOutOfRange := by
  simp only [resolve]
  cases hf : labels.find? fun p => p.1 == name with
  | none =>
    obtain ⟨p, hp, rfl⟩ := List.mem_map.1 h
    exact absurd (List.find?_eq_none.1 hf p hp) (by simp)
  | some p => exact ⟨p, List.mem_of_find?_eq_some hf, by simpa using List.find?_some hf, rfl⟩

theorem resolve_unbound {labels : Labels} {name : List Char} (h : name ∉ labels.map Prod.fst) :
    resolve labels (.label name) = .error .labelNotFound := by
  have hf : (labels.find? fun p => p.1 == name) = none := by
    rw [List.find?_eq_none]
    rintro p hp hpn
    exact h (List.mem_map.2 ⟨p, hp, by simpa using hpn⟩)
  simp [resolve, hf]

/-- What pass two makes of the items of a source: its bytes where every label in it resolves, and
otherwise the error of a label that does not. -/
structure ItemsOf (source : List SourceLine) (items : List Item) : Prop where
  bytes : ∀ labels offset,
    (∀ n ∈ source.flatMap SourceLine.refersTo,
      resolve labels (.label n) = .ok (BitVec.ofNat 8 (offset n))) →
    passTwo labels items = .ok (source.flatMap (SourceLine.bytes offset))
  error : ∀ labels,
    (∃ n ∈ source.flatMap SourceLine.refersTo, ∀ b, resolve labels (.label n) ≠ .ok b) →
    ∃ n ∈ source.flatMap SourceLine.refersTo, ∃ e line,
      resolve labels (.label n) = .error e ∧ passTwo labels items = .error ⟨e, line⟩

theorem ItemsOf.instruction {i : Instr} {use : LabelUse} {source : List SourceLine}
    {items : List Item} (h : ItemsOf source items) {line : Nat} {kinds : List OperandKind}
    {ts : List Token}
    (hb : ∀ labels, operandBytes labels kinds ts = use.bytesIn labels i.operands) :
    ItemsOf (.instruction i use :: source) (⟨line, i.opcode, kinds, ts⟩ :: items) where
  bytes labels offset hr := by
    simp only [List.flatMap_cons, List.mem_append] at hr
    simp [passTwo, hb, LabelUse.bytesIn_ok fun n hn => hr n (.inl hn),
      h.bytes labels offset fun n hn => hr n (.inr hn), SourceLine.bytes]
  error labels hr := by
    simp only [List.flatMap_cons, List.mem_append] at hr ⊢
    rcases use.bytesIn_cases labels i.operands with ⟨⟨bs, hbs⟩, hok⟩ | ⟨n, hn, e, he, hbs⟩
    · obtain ⟨n, hn | hn, hne⟩ := hr
      · obtain ⟨b, hb'⟩ := hok n hn
        exact absurd hb' (hne b)
      · obtain ⟨m, hm, e, l, he, hp⟩ := h.error labels ⟨n, hn, hne⟩
        exact ⟨m, .inr hm, e, l, he, by simp [passTwo, hb, hbs, hp]⟩
    · exact ⟨n, .inl hn, e, line, he, by simp [passTwo, hb, hbs]⟩

theorem ItemsOf.label {name : List Char} {source : List SourceLine} {items : List Item}
    (h : ItemsOf source items) : ItemsOf (.label name :: source) items :=
  ⟨h.bytes, h.error⟩

theorem namesWellFormed_label {name : List Char}
    (h : (SourceLine.label name).namesWellFormed = true) : isLabelName name = true := by
  simpa [SourceLine.namesWellFormed, SourceLine.declares, SourceLine.refersTo] using h

theorem namesWellFormed_instruction {i : Instr} {use : LabelUse}
    (h : (SourceLine.instruction i use).namesWellFormed = true) :
    ∀ n ∈ i.operands.filterMap use.labelOf, isLabelName n = true := by
  simp only [SourceLine.namesWellFormed, Bool.and_eq_true, List.all_eq_true] at h
  exact h.2

/-- Pass one over a source that fits and declares no label twice binds its labels and lists its
instructions. -/
theorem passOne_source {source : List SourceLine} (hw : ∀ l ∈ source, l.namesWellFormed = true)
    (line offset : Nat) (labels : Labels) (hfit : offset + sourceSize source ≤ 256)
    (hnodup : (labels.map Prod.fst ++ source.flatMap SourceLine.declares).Nodup) :
    ∃ items, ItemsOf source items ∧
      passOne line offset labels (lines (sourceText source)) =
        .ok (labels ++ labelsFrom offset source, items) := by
  induction source generalizing line offset labels with
  | nil =>
    have hl : passOne line offset labels (lines (sourceText [])) = .ok (labels, []) := rfl
    exact ⟨[], ⟨fun _ _ _ => rfl, fun _ h => by obtain ⟨_, h, _⟩ := h; cases h⟩, by
      simpa [labelsFrom] using hl⟩
  | cons l source ih =>
    have hws := fun l hl => hw l (List.mem_cons_of_mem _ hl)
    rw [sourceText_cons]
    cases l with
    | label name =>
      have hn := namesWellFormed_label (hw _ (List.mem_cons_self ..))
      obtain ⟨items, hi, h1⟩ := ih hws (line + 1) offset (labels ++ [(name, offset)])
        (by simpa [SourceLine.size] using hfit)
        (by simpa [SourceLine.declares] using hnodup)
      refine ⟨items, hi.label, ?_⟩
      have hnew : (labels.any fun p => p.1 == name) = false := by
        simp only [List.any_eq_false, beq_iff_eq]
        rintro p hp rfl
        rw [List.nodup_append] at hnodup
        exact hnodup.2.2 p.1 (List.mem_map_of_mem hp) p.1 (by simp [SourceLine.declares]) rfl
      rw [SourceLine.text, lines_line (isTokenText_noEnd (isLabelName_isTokenText hn))]
      simp [passOne, parseLine_label hn, hnew, h1, labelsFrom]
    | instruction i use =>
      obtain ⟨hend, kinds, ts, hl, hk, hb⟩ := parseLine_textUsing use i
        (namesWellFormed_instruction (hw _ (List.mem_cons_self ..)))
      simp only [sourceSize_cons, SourceLine.size] at hfit
      obtain ⟨items, hi, h1⟩ := ih hws (line + 1) (offset + (1 + i.operands.length)) labels
        (by omega) (by simpa [SourceLine.declares] using hnodup)
      refine ⟨_, hi.instruction hb (line := line), ?_⟩
      rw [SourceLine.text, lines_line hend]
      have hroom : ¬ 256 < offset + (1 + i.operands.length) := by omega
      simp [passOne, hl, hk, hroom, h1, labelsFrom]

/-- Pass one over a source that fits and declares a label twice stops at the second declaration. -/
theorem passOne_duplicate {source : List SourceLine} (hw : ∀ l ∈ source, l.namesWellFormed = true)
    (line offset : Nat) (labels : Labels) (hfit : offset + sourceSize source ≤ 256)
    (hlabels : (labels.map Prod.fst).Nodup)
    (hdup : ¬ (labels.map Prod.fst ++ source.flatMap SourceLine.declares).Nodup) :
    ∃ n, passOne line offset labels (lines (sourceText source)) = .error ⟨.duplicateLabel, n⟩ := by
  induction source generalizing line offset labels with
  | nil => exact absurd (by simpa using hlabels) hdup
  | cons l source ih =>
    have hws := fun l hl => hw l (List.mem_cons_of_mem _ hl)
    rw [sourceText_cons]
    cases l with
    | label name =>
      have hn := namesWellFormed_label (hw _ (List.mem_cons_self ..))
      rw [SourceLine.text, lines_line (isTokenText_noEnd (isLabelName_isTokenText hn))]
      cases hany : labels.any fun p => p.1 == name with
      | true => exact ⟨line, by simp [passOne, parseLine_label hn, hany]⟩
      | false =>
        obtain ⟨n, h1⟩ := ih hws (line + 1) offset (labels ++ [(name, offset)])
          (by simpa [SourceLine.size] using hfit)
          (by
            simp only [List.any_eq_false, beq_iff_eq] at hany
            rw [List.map_append, List.nodup_append]
            refine ⟨hlabels, by simp, ?_⟩
            rintro a ha b hb rfl
            obtain ⟨p, hp, rfl⟩ := List.mem_map.1 ha
            exact hany p hp (by simpa using hb))
          (by simpa [SourceLine.declares] using hdup)
        exact ⟨n, by simp [passOne, parseLine_label hn, hany, h1]⟩
    | instruction i use =>
      obtain ⟨hend, kinds, ts, hl, hk, hb⟩ := parseLine_textUsing use i
        (namesWellFormed_instruction (hw _ (List.mem_cons_self ..)))
      simp only [sourceSize_cons, SourceLine.size] at hfit
      obtain ⟨n, h1⟩ := ih hws (line + 1) (offset + (1 + i.operands.length)) labels
        (by omega) hlabels (by simpa [SourceLine.declares] using hdup)
      rw [SourceLine.text, lines_line hend]
      have hroom : ¬ 256 < offset + (1 + i.operands.length) := by omega
      exact ⟨n, by simp [passOne, hl, hk, hroom, h1]⟩

/-- Pass one over instructions with no label in them stops at the first that does not fit any more. -/
theorem passOne_tooLong (program : List Instr) (line offset : Nat) (labels : Labels)
    (hstart : offset ≤ 256) (hlong : 256 < offset + (program.flatMap encode).length) :
    ∃ n, passOne line offset labels (lines (programText program)) =
      .error ⟨.outputTooLong, n⟩ := by
  induction program generalizing line offset with
  | nil => simp at hlong; omega
  | cons i program ih =>
    obtain ⟨hend, kinds, ts, hl, hk, _⟩ := parseLine_textUsing {} i (by
      intro n hn
      obtain ⟨o, -, ho⟩ := List.mem_filterMap.1 hn
      cases o <;> cases ho)
    have ht : programText (i :: program) = textUsing {} i ++ '\n' :: programText program := by
      simp [programText, text]
    rw [ht, lines_line hend]
    have hlen : (encode i).length = 1 + i.operands.length := by simp [encode]; omega
    simp only [List.flatMap_cons, List.length_append, hlen] at hlong
    simp only [passOne, hl, hk]
    by_cases hroom : 256 < offset + (1 + i.operands.length)
    · exact ⟨line, if_pos hroom⟩
    · obtain ⟨n, hn⟩ := ih (line + 1) (offset + (1 + i.operands.length)) (by omega) (by omega)
      exact ⟨n, by rw [if_neg hroom, hn]⟩

end Sys2Proof.Machine.Assembler
end

