-- ==== Sys2Proof/Laws/Memory.lean ====
section
/-! SUPPORT. The laws of a byte space: read after write, and that every operation keeps the canonical
form, in which equal memories are equal lists. -/

namespace Sys2Proof.Machine.Memory

theorem wfFrom_cons {low a : Nat} {v : Byte} {m : Memory} :
    wfFrom low ((a, v) :: m) = true ↔ low ≤ a ∧ a < 256 ∧ v ≠ 0#8 ∧ wfFrom (a + 1) m = true := by
  simp [wfFrom, and_assoc]

/-- Below a canonical list's first possible address everything reads as 0. -/
theorem read_below {low : Nat} {m : Memory} (h : wfFrom low m = true) {a : Nat} (ha : a < low) :
    m.read a = 0#8 := by
  induction m generalizing low with
  | nil => rfl
  | cons c m ih =>
    obtain ⟨k, w⟩ := c
    obtain ⟨hk, _, _, hm⟩ := wfFrom_cons.1 h
    rw [read, if_neg (by omega)]
    exact ih hm (by omega)

theorem read_write_same {low : Nat} {m : Memory} (h : wfFrom low m = true) (a : Nat) (v : Byte) :
    (m.write a v).read a = v := by
  induction m generalizing low with
  | nil => by_cases hv : v = 0#8 <;> simp [write, read, hv]
  | cons c m ih =>
    obtain ⟨k, w⟩ := c
    obtain ⟨_, _, _, hm⟩ := wfFrom_cons.1 h
    by_cases h1 : a < k
    · by_cases hv : v = 0#8
      · simp [write, read, h1, hv, show k ≠ a by omega, read_below hm (show a < k + 1 by omega)]
      · simp [write, read, h1, hv]
    · by_cases h2 : a = k
      · subst h2
        by_cases hv : v = 0#8
        · simp [write, hv, read_below hm (Nat.lt_succ_self a)]
        · simp [write, read, hv]
      · simp [write, read, h1, h2, Ne.symm h2, ih hm]

/-- A write leaves every other address alone. -/
theorem read_write_other (m : Memory) {a b : Nat} (h : b ≠ a) (v : Byte) :
    (m.write a v).read b = m.read b := by
  induction m with
  | nil => by_cases hv : v = 0#8 <;> simp [write, read, hv, Ne.symm h]
  | cons c m ih =>
    obtain ⟨k, w⟩ := c
    unfold write
    split
    · split <;> simp [read, Ne.symm h]
    · split
      · next h2 => subst h2; split <;> simp [read, Ne.symm h]
      · simp [read, ih]

theorem wfFrom_mono {low low' : Nat} {m : Memory} (h : wfFrom low m = true) (hl : low' ≤ low) :
    wfFrom low' m = true := by
  cases m with
  | nil => rfl
  | cons c m =>
    obtain ⟨k, w⟩ := c
    obtain ⟨h1, h2, h3, h4⟩ := wfFrom_cons.1 h
    exact wfFrom_cons.2 ⟨by omega, h2, h3, h4⟩

/-- A write keeps the canonical form. -/
theorem wfFrom_write {low : Nat} {m : Memory} (h : wfFrom low m = true) {a : Nat} (ha : low ≤ a)
    (ha' : a < 256) (v : Byte) : wfFrom low (m.write a v) = true := by
  induction m generalizing low with
  | nil =>
    by_cases hv : v = 0#8
    · simp [write, hv, wfFrom]
    · simp [write, hv, wfFrom, ha, ha']
  | cons c m ih =>
    obtain ⟨k, w⟩ := c
    obtain ⟨h1, h2, h3, h4⟩ := wfFrom_cons.1 h
    unfold write
    split
    · split
      · exact h
      · exact wfFrom_cons.2 ⟨ha, ha', ‹_›, wfFrom_cons.2 ⟨by omega, h2, h3, h4⟩⟩
    · split
      · next hk =>
        subst hk
        split
        · exact wfFrom_mono h4 (by omega)
        · exact wfFrom_cons.2 ⟨ha, ha', ‹_›, h4⟩
      · exact wfFrom_cons.2 ⟨h1, h2, h3, ih h4 (by omega)⟩

theorem wf_write {m : Memory} (h : m.wf = true) (a : Byte) (v : Byte) :
    (m.write a.toNat v).wf = true :=
  wfFrom_write h (Nat.zero_le _) a.isLt v

/-- In canonical form, equal reads make equal lists. -/
theorem ext_of_wfFrom {low : Nat} {m m' : Memory} (h : wfFrom low m = true)
    (h' : wfFrom low m' = true) (hr : ∀ a, a < 256 → m.read a = m'.read a) : m = m' := by
  induction m generalizing low m' with
  | nil =>
    cases m' with
    | nil => rfl
    | cons c m' =>
      obtain ⟨k, w⟩ := c
      obtain ⟨_, h2, h3, _⟩ := wfFrom_cons.1 h'
      exact absurd (by simpa [read] using (hr k h2).symm) h3
  | cons c m ih =>
    obtain ⟨k, w⟩ := c
    obtain ⟨h1, h2, h3, h4⟩ := wfFrom_cons.1 h
    cases m' with
    | nil => exact absurd (by simpa [read] using hr k h2) h3
    | cons c' m' =>
      obtain ⟨k', w'⟩ := c'
      obtain ⟨h1', h2', h3', h4'⟩ := wfFrom_cons.1 h'
      have hk : k = k' := by
        rcases Nat.lt_trichotomy k k' with hlt | heq | hgt
        · have := hr k h2
          simp [read, show k' ≠ k by omega, read_below h4' (show k < k' + 1 by omega)] at this
          exact absurd this h3
        · exact heq
        · have := hr k' h2'
          simp [read, show k ≠ k' by omega, read_below h4 (show k' < k + 1 by omega)] at this
          exact absurd this.symm h3'
      subst hk
      have hw : w = w' := by simpa [read] using hr k h2
      subst hw
      congr 1
      refine ih h4 h4' fun a ha => ?_
      by_cases hak : a < k + 1
      · rw [read_below h4 hak, read_below h4' hak]
      · simpa [read, show k ≠ a by omega] using hr a ha

theorem ext_of_wf {m m' : Memory} (h : m.wf = true) (h' : m'.wf = true)
    (hr : ∀ a : Byte, m.read a.toNat = m'.read a.toNat) : m = m' :=
  ext_of_wfFrom h h' fun a ha => by
    simpa [Nat.mod_eq_of_lt ha] using hr (BitVec.ofNat 8 a)

/-- Copying bytes gives a canonical memory. -/
theorem wfFrom_ofBytesFrom (bs : List Byte) (a : Nat) (h : a + bs.length ≤ 256) :
    wfFrom a (ofBytesFrom a bs) = true := by
  induction bs generalizing a with
  | nil => rfl
  | cons b bs ih =>
    have ih' := ih (a + 1) (by simp at h; omega)
    unfold ofBytesFrom
    split
    · exact wfFrom_mono ih' (by omega)
    · exact wfFrom_cons.2 ⟨le_rfl, by simp at h; omega, ‹_›, ih'⟩

theorem wf_ofBytes (bs : List Byte) : wf (ofBytesFrom 0 (bs.take 256)) = true :=
  wfFrom_ofBytesFrom _ 0 (by simp)

/-- What copied bytes read as. -/
theorem read_ofBytesFrom (bs : List Byte) (a n : Nat) :
    (ofBytesFrom a bs).read (a + n) = bs.getD n 0#8 ∧ ∀ k, k < a → (ofBytesFrom a bs).read k = 0#8 := by
  induction bs generalizing a n with
  | nil => simp [ofBytesFrom, read]
  | cons b bs ih =>
    obtain ⟨_, hlow⟩ := ih (a + 1) 0
    unfold ofBytesFrom
    split
    · next hb =>
      refine ⟨?_, fun k hk => hlow k (by omega)⟩
      cases n with
      | zero => simp [hb, hlow a (Nat.lt_succ_self a)]
      | succ n =>
        have := (ih (a + 1) n).1
        rw [show a + (n + 1) = a + 1 + n by omega]
        simpa using this
    · refine ⟨?_, fun k hk => ?_⟩
      · cases n with
        | zero => simp [read]
        | succ n =>
          have := (ih (a + 1) n).1
          rw [show a + (n + 1) = a + 1 + n by omega]
          simpa [read, show a ≠ a + 1 + n by omega] using this
      · rw [read, if_neg (by omega)]
        exact hlow k (by omega)

end Sys2Proof.Machine.Memory
end

