-- ==== Sys2Proof/Laws/State.lean ====
section
/-! SUPPORT. One lemma per field of State per operation, each true by rfl, so that no later proof unfolds
a record update. -/

namespace Sys2Proof.Machine.State

@[simp] theorem emit_config (s : State) (e : Event) :
    (s.emit e).config = s.config := rfl
@[simp] theorem emit_regs (s : State) (e : Event) :
    (s.emit e).regs = s.regs := rfl
@[simp] theorem emit_pc (s : State) (e : Event) :
    (s.emit e).pc = s.pc := rfl
@[simp] theorem emit_carry (s : State) (e : Event) :
    (s.emit e).carry = s.carry := rfl
@[simp] theorem emit_bankSelector (s : State) (e : Event) :
    (s.emit e).bankSelector = s.bankSelector := rfl
@[simp] theorem emit_colorPaletteId (s : State) (e : Event) :
    (s.emit e).colorPaletteId = s.colorPaletteId := rfl
@[simp] theorem emit_callStack (s : State) (e : Event) :
    (s.emit e).callStack = s.callStack := rfl
@[simp] theorem emit_pending (s : State) (e : Event) :
    (s.emit e).pending = s.pending := rfl
@[simp] theorem emit_suppressed (s : State) (e : Event) :
    (s.emit e).suppressed = s.suppressed := rfl
@[simp] theorem emit_memory (s : State) (e : Event) :
    (s.emit e).memory = s.memory := rfl
@[simp] theorem emit_videoMemory (s : State) (e : Event) :
    (s.emit e).videoMemory = s.videoMemory := rfl
@[simp] theorem emit_trace (s : State) (e : Event) :
    (s.emit e).trace = s.trace ++ [e] := rfl

@[simp] theorem raise_config (s : State) (report : ErrorReport) :
    (s.raise report).config = s.config := rfl
@[simp] theorem raise_regs (s : State) (report : ErrorReport) :
    (s.raise report).regs = s.regs := rfl
@[simp] theorem raise_pc (s : State) (report : ErrorReport) :
    (s.raise report).pc = s.pc := rfl
@[simp] theorem raise_carry (s : State) (report : ErrorReport) :
    (s.raise report).carry = s.carry := rfl
@[simp] theorem raise_bankSelector (s : State) (report : ErrorReport) :
    (s.raise report).bankSelector = s.bankSelector := rfl
@[simp] theorem raise_colorPaletteId (s : State) (report : ErrorReport) :
    (s.raise report).colorPaletteId = s.colorPaletteId := rfl
@[simp] theorem raise_callStack (s : State) (report : ErrorReport) :
    (s.raise report).callStack = s.callStack := rfl
@[simp] theorem raise_pending (s : State) (report : ErrorReport) :
    (s.raise report).pending = s.pending := rfl
@[simp] theorem raise_suppressed (s : State) (report : ErrorReport) :
    (s.raise report).suppressed = s.suppressed := rfl
@[simp] theorem raise_memory (s : State) (report : ErrorReport) :
    (s.raise report).memory = s.memory := rfl
@[simp] theorem raise_videoMemory (s : State) (report : ErrorReport) :
    (s.raise report).videoMemory = s.videoMemory := rfl
@[simp] theorem raise_trace (s : State) (report : ErrorReport) :
    (s.raise report).trace = s.trace ++ [.error report] := rfl

@[simp] theorem writeReg_config (s : State) (r : Reg) (v : Byte) :
    (s.writeReg r v).config = s.config := rfl
@[simp] theorem writeReg_regs (s : State) (r : Reg) (v : Byte) :
    (s.writeReg r v).regs = s.regs.set r.val v r.isLt := rfl
@[simp] theorem writeReg_pc (s : State) (r : Reg) (v : Byte) :
    (s.writeReg r v).pc = s.pc := rfl
@[simp] theorem writeReg_carry (s : State) (r : Reg) (v : Byte) :
    (s.writeReg r v).carry = s.carry := rfl
@[simp] theorem writeReg_bankSelector (s : State) (r : Reg) (v : Byte) :
    (s.writeReg r v).bankSelector = s.bankSelector := rfl
@[simp] theorem writeReg_colorPaletteId (s : State) (r : Reg) (v : Byte) :
    (s.writeReg r v).colorPaletteId = s.colorPaletteId := rfl
@[simp] theorem writeReg_callStack (s : State) (r : Reg) (v : Byte) :
    (s.writeReg r v).callStack = s.callStack := rfl
@[simp] theorem writeReg_pending (s : State) (r : Reg) (v : Byte) :
    (s.writeReg r v).pending = s.pending := rfl
@[simp] theorem writeReg_suppressed (s : State) (r : Reg) (v : Byte) :
    (s.writeReg r v).suppressed = s.suppressed := rfl
@[simp] theorem writeReg_memory (s : State) (r : Reg) (v : Byte) :
    (s.writeReg r v).memory = s.memory := rfl
@[simp] theorem writeReg_videoMemory (s : State) (r : Reg) (v : Byte) :
    (s.writeReg r v).videoMemory = s.videoMemory := rfl
@[simp] theorem writeReg_trace (s : State) (r : Reg) (v : Byte) :
    (s.writeReg r v).trace = s.trace ++ [.registerChanged r v] := rfl

@[simp] theorem setCarry_config (s : State) (b : Bool) :
    (s.setCarry b).config = s.config := rfl
@[simp] theorem setCarry_regs (s : State) (b : Bool) :
    (s.setCarry b).regs = s.regs := rfl
@[simp] theorem setCarry_pc (s : State) (b : Bool) :
    (s.setCarry b).pc = s.pc := rfl
@[simp] theorem setCarry_carry (s : State) (b : Bool) :
    (s.setCarry b).carry = b := rfl
@[simp] theorem setCarry_bankSelector (s : State) (b : Bool) :
    (s.setCarry b).bankSelector = s.bankSelector := rfl
@[simp] theorem setCarry_colorPaletteId (s : State) (b : Bool) :
    (s.setCarry b).colorPaletteId = s.colorPaletteId := rfl
@[simp] theorem setCarry_callStack (s : State) (b : Bool) :
    (s.setCarry b).callStack = s.callStack := rfl
@[simp] theorem setCarry_pending (s : State) (b : Bool) :
    (s.setCarry b).pending = s.pending := rfl
@[simp] theorem setCarry_suppressed (s : State) (b : Bool) :
    (s.setCarry b).suppressed = s.suppressed := rfl
@[simp] theorem setCarry_memory (s : State) (b : Bool) :
    (s.setCarry b).memory = s.memory := rfl
@[simp] theorem setCarry_videoMemory (s : State) (b : Bool) :
    (s.setCarry b).videoMemory = s.videoMemory := rfl
@[simp] theorem setCarry_trace (s : State) (b : Bool) :
    (s.setCarry b).trace = s.trace := rfl

@[simp] theorem setBank_config (s : State) (v : Byte) :
    (s.setBank v).config = s.config := rfl
@[simp] theorem setBank_regs (s : State) (v : Byte) :
    (s.setBank v).regs = s.regs := rfl
@[simp] theorem setBank_pc (s : State) (v : Byte) :
    (s.setBank v).pc = s.pc := rfl
@[simp] theorem setBank_carry (s : State) (v : Byte) :
    (s.setBank v).carry = s.carry := rfl
@[simp] theorem setBank_bankSelector (s : State) (v : Byte) :
    (s.setBank v).bankSelector = v := rfl
@[simp] theorem setBank_colorPaletteId (s : State) (v : Byte) :
    (s.setBank v).colorPaletteId = s.colorPaletteId := rfl
@[simp] theorem setBank_callStack (s : State) (v : Byte) :
    (s.setBank v).callStack = s.callStack := rfl
@[simp] theorem setBank_pending (s : State) (v : Byte) :
    (s.setBank v).pending = s.pending := rfl
@[simp] theorem setBank_suppressed (s : State) (v : Byte) :
    (s.setBank v).suppressed = s.suppressed := rfl
@[simp] theorem setBank_memory (s : State) (v : Byte) :
    (s.setBank v).memory = s.memory := rfl
@[simp] theorem setBank_videoMemory (s : State) (v : Byte) :
    (s.setBank v).videoMemory = s.videoMemory := rfl
@[simp] theorem setBank_trace (s : State) (v : Byte) :
    (s.setBank v).trace = s.trace := rfl

@[simp] theorem setPalette_config (s : State) (v : Byte) :
    (s.setPalette v).config = s.config := rfl
@[simp] theorem setPalette_regs (s : State) (v : Byte) :
    (s.setPalette v).regs = s.regs := rfl
@[simp] theorem setPalette_pc (s : State) (v : Byte) :
    (s.setPalette v).pc = s.pc := rfl
@[simp] theorem setPalette_carry (s : State) (v : Byte) :
    (s.setPalette v).carry = s.carry := rfl
@[simp] theorem setPalette_bankSelector (s : State) (v : Byte) :
    (s.setPalette v).bankSelector = s.bankSelector := rfl
@[simp] theorem setPalette_colorPaletteId (s : State) (v : Byte) :
    (s.setPalette v).colorPaletteId = v := rfl
@[simp] theorem setPalette_callStack (s : State) (v : Byte) :
    (s.setPalette v).callStack = s.callStack := rfl
@[simp] theorem setPalette_pending (s : State) (v : Byte) :
    (s.setPalette v).pending = s.pending := rfl
@[simp] theorem setPalette_suppressed (s : State) (v : Byte) :
    (s.setPalette v).suppressed = s.suppressed := rfl
@[simp] theorem setPalette_memory (s : State) (v : Byte) :
    (s.setPalette v).memory = s.memory := rfl
@[simp] theorem setPalette_videoMemory (s : State) (v : Byte) :
    (s.setPalette v).videoMemory = s.videoMemory := rfl
@[simp] theorem setPalette_trace (s : State) (v : Byte) :
    (s.setPalette v).trace = s.trace := rfl

@[simp] theorem memWrite_config (s : State) (a v : Byte) :
    (s.memWrite a v).config = s.config := rfl
@[simp] theorem memWrite_regs (s : State) (a v : Byte) :
    (s.memWrite a v).regs = s.regs := rfl
@[simp] theorem memWrite_pc (s : State) (a v : Byte) :
    (s.memWrite a v).pc = s.pc := rfl
@[simp] theorem memWrite_carry (s : State) (a v : Byte) :
    (s.memWrite a v).carry = s.carry := rfl
@[simp] theorem memWrite_bankSelector (s : State) (a v : Byte) :
    (s.memWrite a v).bankSelector = s.bankSelector := rfl
@[simp] theorem memWrite_colorPaletteId (s : State) (a v : Byte) :
    (s.memWrite a v).colorPaletteId = s.colorPaletteId := rfl
@[simp] theorem memWrite_callStack (s : State) (a v : Byte) :
    (s.memWrite a v).callStack = s.callStack := rfl
@[simp] theorem memWrite_pending (s : State) (a v : Byte) :
    (s.memWrite a v).pending = s.pending := rfl
@[simp] theorem memWrite_suppressed (s : State) (a v : Byte) :
    (s.memWrite a v).suppressed = s.suppressed := rfl
@[simp] theorem memWrite_memory (s : State) (a v : Byte) :
    (s.memWrite a v).memory = s.memory.write a.toNat v := rfl
@[simp] theorem memWrite_videoMemory (s : State) (a v : Byte) :
    (s.memWrite a v).videoMemory = s.videoMemory := rfl
@[simp] theorem memWrite_trace (s : State) (a v : Byte) :
    (s.memWrite a v).trace = s.trace ++ [.memoryChanged a v] := rfl

@[simp] theorem vidWrite_config (s : State) (a v : Byte) :
    (s.vidWrite a v).config = s.config := rfl
@[simp] theorem vidWrite_regs (s : State) (a v : Byte) :
    (s.vidWrite a v).regs = s.regs := rfl
@[simp] theorem vidWrite_pc (s : State) (a v : Byte) :
    (s.vidWrite a v).pc = s.pc := rfl
@[simp] theorem vidWrite_carry (s : State) (a v : Byte) :
    (s.vidWrite a v).carry = s.carry := rfl
@[simp] theorem vidWrite_bankSelector (s : State) (a v : Byte) :
    (s.vidWrite a v).bankSelector = s.bankSelector := rfl
@[simp] theorem vidWrite_colorPaletteId (s : State) (a v : Byte) :
    (s.vidWrite a v).colorPaletteId = s.colorPaletteId := rfl
@[simp] theorem vidWrite_callStack (s : State) (a v : Byte) :
    (s.vidWrite a v).callStack = s.callStack := rfl
@[simp] theorem vidWrite_pending (s : State) (a v : Byte) :
    (s.vidWrite a v).pending = s.pending := rfl
@[simp] theorem vidWrite_suppressed (s : State) (a v : Byte) :
    (s.vidWrite a v).suppressed = s.suppressed := rfl
@[simp] theorem vidWrite_memory (s : State) (a v : Byte) :
    (s.vidWrite a v).memory = s.memory := rfl
@[simp] theorem vidWrite_videoMemory (s : State) (a v : Byte) :
    (s.vidWrite a v).videoMemory = s.videoMemory.write a.toNat v := rfl
@[simp] theorem vidWrite_trace (s : State) (a v : Byte) :
    (s.vidWrite a v).trace = s.trace := rfl

@[simp] theorem writePc_config (s : State) (t : Byte) :
    (s.writePc t).config = s.config := rfl
@[simp] theorem writePc_regs (s : State) (t : Byte) :
    (s.writePc t).regs = s.regs := rfl
@[simp] theorem writePc_pc (s : State) (t : Byte) :
    (s.writePc t).pc = t := rfl
@[simp] theorem writePc_carry (s : State) (t : Byte) :
    (s.writePc t).carry = s.carry := rfl
@[simp] theorem writePc_bankSelector (s : State) (t : Byte) :
    (s.writePc t).bankSelector = s.bankSelector := rfl
@[simp] theorem writePc_colorPaletteId (s : State) (t : Byte) :
    (s.writePc t).colorPaletteId = s.colorPaletteId := rfl
@[simp] theorem writePc_callStack (s : State) (t : Byte) :
    (s.writePc t).callStack = s.callStack := rfl
@[simp] theorem writePc_pending (s : State) (t : Byte) :
    (s.writePc t).pending = s.pending := rfl
@[simp] theorem writePc_suppressed (s : State) (t : Byte) :
    (s.writePc t).suppressed = s.suppressed := rfl
@[simp] theorem writePc_memory (s : State) (t : Byte) :
    (s.writePc t).memory = s.memory := rfl
@[simp] theorem writePc_videoMemory (s : State) (t : Byte) :
    (s.writePc t).videoMemory = s.videoMemory := rfl
@[simp] theorem writePc_trace (s : State) (t : Byte) :
    (s.writePc t).trace = s.trace ++ [.programCounterChanged t] := rfl

@[simp] theorem suppressAdvance_config (s : State) :
    (s.suppressAdvance).config = s.config := rfl
@[simp] theorem suppressAdvance_regs (s : State) :
    (s.suppressAdvance).regs = s.regs := rfl
@[simp] theorem suppressAdvance_pc (s : State) :
    (s.suppressAdvance).pc = s.pc := rfl
@[simp] theorem suppressAdvance_carry (s : State) :
    (s.suppressAdvance).carry = s.carry := rfl
@[simp] theorem suppressAdvance_bankSelector (s : State) :
    (s.suppressAdvance).bankSelector = s.bankSelector := rfl
@[simp] theorem suppressAdvance_colorPaletteId (s : State) :
    (s.suppressAdvance).colorPaletteId = s.colorPaletteId := rfl
@[simp] theorem suppressAdvance_callStack (s : State) :
    (s.suppressAdvance).callStack = s.callStack := rfl
@[simp] theorem suppressAdvance_pending (s : State) :
    (s.suppressAdvance).pending = s.pending := rfl
@[simp] theorem suppressAdvance_suppressed (s : State) :
    (s.suppressAdvance).suppressed = true := rfl
@[simp] theorem suppressAdvance_memory (s : State) :
    (s.suppressAdvance).memory = s.memory := rfl
@[simp] theorem suppressAdvance_videoMemory (s : State) :
    (s.suppressAdvance).videoMemory = s.videoMemory := rfl
@[simp] theorem suppressAdvance_trace (s : State) :
    (s.suppressAdvance).trace = s.trace := rfl

@[simp] theorem transferTo_config (s : State) (t : Byte) :
    (s.transferTo t).config = s.config := rfl
@[simp] theorem transferTo_regs (s : State) (t : Byte) :
    (s.transferTo t).regs = s.regs := rfl
@[simp] theorem transferTo_pc (s : State) (t : Byte) :
    (s.transferTo t).pc = t := rfl
@[simp] theorem transferTo_carry (s : State) (t : Byte) :
    (s.transferTo t).carry = s.carry := rfl
@[simp] theorem transferTo_bankSelector (s : State) (t : Byte) :
    (s.transferTo t).bankSelector = s.bankSelector := rfl
@[simp] theorem transferTo_colorPaletteId (s : State) (t : Byte) :
    (s.transferTo t).colorPaletteId = s.colorPaletteId := rfl
@[simp] theorem transferTo_callStack (s : State) (t : Byte) :
    (s.transferTo t).callStack = s.callStack := rfl
@[simp] theorem transferTo_pending (s : State) (t : Byte) :
    (s.transferTo t).pending = s.pending := rfl
@[simp] theorem transferTo_suppressed (s : State) (t : Byte) :
    (s.transferTo t).suppressed = true := rfl
@[simp] theorem transferTo_memory (s : State) (t : Byte) :
    (s.transferTo t).memory = s.memory := rfl
@[simp] theorem transferTo_videoMemory (s : State) (t : Byte) :
    (s.transferTo t).videoMemory = s.videoMemory := rfl
@[simp] theorem transferTo_trace (s : State) (t : Byte) :
    (s.transferTo t).trace = s.trace ++ [.programCounterChanged t] := rfl

@[simp] theorem beginCycle_config (s : State) :
    (s.beginCycle).config = s.config := rfl
@[simp] theorem beginCycle_regs (s : State) :
    (s.beginCycle).regs = s.regs := rfl
@[simp] theorem beginCycle_pc (s : State) :
    (s.beginCycle).pc = s.pc := rfl
@[simp] theorem beginCycle_carry (s : State) :
    (s.beginCycle).carry = s.carry := rfl
@[simp] theorem beginCycle_bankSelector (s : State) :
    (s.beginCycle).bankSelector = s.bankSelector := rfl
@[simp] theorem beginCycle_colorPaletteId (s : State) :
    (s.beginCycle).colorPaletteId = s.colorPaletteId := rfl
@[simp] theorem beginCycle_callStack (s : State) :
    (s.beginCycle).callStack = s.callStack := rfl
@[simp] theorem beginCycle_pending (s : State) :
    (s.beginCycle).pending = s.pending := rfl
@[simp] theorem beginCycle_suppressed (s : State) :
    (s.beginCycle).suppressed = false := rfl
@[simp] theorem beginCycle_memory (s : State) :
    (s.beginCycle).memory = s.memory := rfl
@[simp] theorem beginCycle_videoMemory (s : State) :
    (s.beginCycle).videoMemory = s.videoMemory := rfl
@[simp] theorem beginCycle_trace (s : State) :
    (s.beginCycle).trace = s.trace := rfl

@[simp] theorem beginInstr_config (s : State) (b : Byte) :
    (s.beginInstr b).config = s.config := rfl
@[simp] theorem beginInstr_regs (s : State) (b : Byte) :
    (s.beginInstr b).regs = s.regs := rfl
@[simp] theorem beginInstr_pc (s : State) (b : Byte) :
    (s.beginInstr b).pc = s.pc := rfl
@[simp] theorem beginInstr_carry (s : State) (b : Byte) :
    (s.beginInstr b).carry = s.carry := rfl
@[simp] theorem beginInstr_bankSelector (s : State) (b : Byte) :
    (s.beginInstr b).bankSelector = s.bankSelector := rfl
@[simp] theorem beginInstr_colorPaletteId (s : State) (b : Byte) :
    (s.beginInstr b).colorPaletteId = s.colorPaletteId := rfl
@[simp] theorem beginInstr_callStack (s : State) (b : Byte) :
    (s.beginInstr b).callStack = s.callStack := rfl
@[simp] theorem beginInstr_pending (s : State) (b : Byte) :
    (s.beginInstr b).pending = some ⟨b, [], s.pc⟩ := rfl
@[simp] theorem beginInstr_suppressed (s : State) (b : Byte) :
    (s.beginInstr b).suppressed = s.suppressed := rfl
@[simp] theorem beginInstr_memory (s : State) (b : Byte) :
    (s.beginInstr b).memory = s.memory := rfl
@[simp] theorem beginInstr_videoMemory (s : State) (b : Byte) :
    (s.beginInstr b).videoMemory = s.videoMemory := rfl
@[simp] theorem beginInstr_trace (s : State) (b : Byte) :
    (s.beginInstr b).trace = s.trace ++ [.instructionParseBegun b s.pc] := rfl

@[simp] theorem collect_config (s : State) (p : Pending) (k : OperandKind) (b : Byte) :
    (s.collect p k b).config = s.config := rfl
@[simp] theorem collect_regs (s : State) (p : Pending) (k : OperandKind) (b : Byte) :
    (s.collect p k b).regs = s.regs := rfl
@[simp] theorem collect_pc (s : State) (p : Pending) (k : OperandKind) (b : Byte) :
    (s.collect p k b).pc = s.pc := rfl
@[simp] theorem collect_carry (s : State) (p : Pending) (k : OperandKind) (b : Byte) :
    (s.collect p k b).carry = s.carry := rfl
@[simp] theorem collect_bankSelector (s : State) (p : Pending) (k : OperandKind) (b : Byte) :
    (s.collect p k b).bankSelector = s.bankSelector := rfl
@[simp] theorem collect_colorPaletteId (s : State) (p : Pending) (k : OperandKind) (b : Byte) :
    (s.collect p k b).colorPaletteId = s.colorPaletteId := rfl
@[simp] theorem collect_callStack (s : State) (p : Pending) (k : OperandKind) (b : Byte) :
    (s.collect p k b).callStack = s.callStack := rfl
@[simp] theorem collect_pending (s : State) (p : Pending) (k : OperandKind) (b : Byte) :
    (s.collect p k b).pending = some { p with collected := p.collected ++ [b] } := rfl
@[simp] theorem collect_suppressed (s : State) (p : Pending) (k : OperandKind) (b : Byte) :
    (s.collect p k b).suppressed = s.suppressed := rfl
@[simp] theorem collect_memory (s : State) (p : Pending) (k : OperandKind) (b : Byte) :
    (s.collect p k b).memory = s.memory := rfl
@[simp] theorem collect_videoMemory (s : State) (p : Pending) (k : OperandKind) (b : Byte) :
    (s.collect p k b).videoMemory = s.videoMemory := rfl
@[simp] theorem collect_trace (s : State) (p : Pending) (k : OperandKind) (b : Byte) :
    (s.collect p k b).trace = s.trace ++ [.parameterParsed k b s.pc] := rfl

@[simp] theorem rejectOperand_config (s : State) (p : Pending) (k : OperandKind) (b : Byte) :
    (s.rejectOperand p k b).config = s.config := rfl
@[simp] theorem rejectOperand_regs (s : State) (p : Pending) (k : OperandKind) (b : Byte) :
    (s.rejectOperand p k b).regs = s.regs := rfl
@[simp] theorem rejectOperand_pc (s : State) (p : Pending) (k : OperandKind) (b : Byte) :
    (s.rejectOperand p k b).pc = s.pc := rfl
@[simp] theorem rejectOperand_carry (s : State) (p : Pending) (k : OperandKind) (b : Byte) :
    (s.rejectOperand p k b).carry = s.carry := rfl
@[simp] theorem rejectOperand_bankSelector (s : State) (p : Pending) (k : OperandKind) (b : Byte) :
    (s.rejectOperand p k b).bankSelector = s.bankSelector := rfl
@[simp] theorem rejectOperand_colorPaletteId (s : State) (p : Pending) (k : OperandKind) (b : Byte) :
    (s.rejectOperand p k b).colorPaletteId = s.colorPaletteId := rfl
@[simp] theorem rejectOperand_callStack (s : State) (p : Pending) (k : OperandKind) (b : Byte) :
    (s.rejectOperand p k b).callStack = s.callStack := rfl
@[simp] theorem rejectOperand_pending (s : State) (p : Pending) (k : OperandKind) (b : Byte) :
    (s.rejectOperand p k b).pending = none := rfl
@[simp] theorem rejectOperand_suppressed (s : State) (p : Pending) (k : OperandKind) (b : Byte) :
    (s.rejectOperand p k b).suppressed = s.suppressed := rfl
@[simp] theorem rejectOperand_memory (s : State) (p : Pending) (k : OperandKind) (b : Byte) :
    (s.rejectOperand p k b).memory = s.memory := rfl
@[simp] theorem rejectOperand_videoMemory (s : State) (p : Pending) (k : OperandKind) (b : Byte) :
    (s.rejectOperand p k b).videoMemory = s.videoMemory := rfl
@[simp] theorem rejectOperand_trace (s : State) (p : Pending) (k : OperandKind) (b : Byte) :
    (s.rejectOperand p k b).trace = s.trace ++ [.error (.operandError p.opcode b k s.pc)] := rfl

/-! ## The end of a cycle -/

@[simp] theorem endCycle_config (s : State) : s.endCycle.config = s.config := by
  unfold endCycle; split <;> rfl
@[simp] theorem endCycle_regs (s : State) : s.endCycle.regs = s.regs := by
  unfold endCycle; split <;> rfl
@[simp] theorem endCycle_carry (s : State) : s.endCycle.carry = s.carry := by
  unfold endCycle; split <;> rfl
@[simp] theorem endCycle_bankSelector (s : State) : s.endCycle.bankSelector = s.bankSelector := by
  unfold endCycle; split <;> rfl
@[simp] theorem endCycle_colorPaletteId (s : State) : s.endCycle.colorPaletteId = s.colorPaletteId := by
  unfold endCycle; split <;> rfl
@[simp] theorem endCycle_callStack (s : State) : s.endCycle.callStack = s.callStack := by
  unfold endCycle; split <;> rfl
@[simp] theorem endCycle_pending (s : State) : s.endCycle.pending = s.pending := by
  unfold endCycle; split <;> rfl
@[simp] theorem endCycle_memory (s : State) : s.endCycle.memory = s.memory := by
  unfold endCycle; split <;> rfl
@[simp] theorem endCycle_videoMemory (s : State) : s.endCycle.videoMemory = s.videoMemory := by
  unfold endCycle; split <;> rfl
@[simp] theorem endCycle_suppressed (s : State) : s.endCycle.suppressed = false := by
  unfold endCycle; split
  · rfl
  · simp_all
theorem endCycle_pc (s : State) :
    s.endCycle.pc = if s.suppressed then s.pc else s.pc + 1#8 := by
  unfold endCycle; split <;> rfl
theorem endCycle_trace (s : State) :
    s.endCycle.trace =
      s.trace ++ if s.suppressed then [] else [.programCounterChanged (s.pc + 1#8)] := by
  unfold endCycle; split <;> simp

end Sys2Proof.Machine.State
end

