-- ==== Sys2Proof/Laws/Ops.lean ====
section
/-! SUPPORT. What each named operation reads back as, and one lemma per shared operation that says
everything it can do. -/

namespace Sys2Proof.Machine.State

/-! ## Reads after the operations that do not touch what is read -/

@[simp] theorem readReg_emit (s : State) (e : Event) (x : Reg) :
    (s.emit e).readReg x = s.readReg x := rfl
@[simp] theorem readReg_raise (s : State) (report : ErrorReport) (x : Reg) :
    (s.raise report).readReg x = s.readReg x := rfl
@[simp] theorem readReg_setCarry (s : State) (b : Bool) (x : Reg) :
    (s.setCarry b).readReg x = s.readReg x := rfl
@[simp] theorem readReg_setBank (s : State) (v : Byte) (x : Reg) :
    (s.setBank v).readReg x = s.readReg x := rfl
@[simp] theorem readReg_setPalette (s : State) (v : Byte) (x : Reg) :
    (s.setPalette v).readReg x = s.readReg x := rfl
@[simp] theorem readReg_memWrite (s : State) (a v : Byte) (x : Reg) :
    (s.memWrite a v).readReg x = s.readReg x := rfl
@[simp] theorem readReg_vidWrite (s : State) (a v : Byte) (x : Reg) :
    (s.vidWrite a v).readReg x = s.readReg x := rfl
@[simp] theorem readReg_writePc (s : State) (t : Byte) (x : Reg) :
    (s.writePc t).readReg x = s.readReg x := rfl
@[simp] theorem readReg_suppressAdvance (s : State) (x : Reg) :
    (s.suppressAdvance).readReg x = s.readReg x := rfl
@[simp] theorem readReg_transferTo (s : State) (t : Byte) (x : Reg) :
    (s.transferTo t).readReg x = s.readReg x := rfl
@[simp] theorem readReg_beginCycle (s : State) (x : Reg) :
    (s.beginCycle).readReg x = s.readReg x := rfl
@[simp] theorem readReg_beginInstr (s : State) (b : Byte) (x : Reg) :
    (s.beginInstr b).readReg x = s.readReg x := rfl
@[simp] theorem readReg_collect (s : State) (p : Pending) (k : OperandKind) (b : Byte) (x : Reg) :
    (s.collect p k b).readReg x = s.readReg x := rfl
@[simp] theorem readReg_rejectOperand (s : State) (p : Pending) (k : OperandKind) (b : Byte) (x : Reg) :
    (s.rejectOperand p k b).readReg x = s.readReg x := rfl

@[simp] theorem memRead_emit (s : State) (e : Event) (x : Byte) :
    (s.emit e).memRead x = s.memRead x := rfl
@[simp] theorem memRead_raise (s : State) (report : ErrorReport) (x : Byte) :
    (s.raise report).memRead x = s.memRead x := rfl
@[simp] theorem memRead_writeReg (s : State) (r : Reg) (v : Byte) (x : Byte) :
    (s.writeReg r v).memRead x = s.memRead x := rfl
@[simp] theorem memRead_setCarry (s : State) (b : Bool) (x : Byte) :
    (s.setCarry b).memRead x = s.memRead x := rfl
@[simp] theorem memRead_setBank (s : State) (v : Byte) (x : Byte) :
    (s.setBank v).memRead x = s.memRead x := rfl
@[simp] theorem memRead_setPalette (s : State) (v : Byte) (x : Byte) :
    (s.setPalette v).memRead x = s.memRead x := rfl
@[simp] theorem memRead_vidWrite (s : State) (a v : Byte) (x : Byte) :
    (s.vidWrite a v).memRead x = s.memRead x := rfl
@[simp] theorem memRead_writePc (s : State) (t : Byte) (x : Byte) :
    (s.writePc t).memRead x = s.memRead x := rfl
@[simp] theorem memRead_suppressAdvance (s : State) (x : Byte) :
    (s.suppressAdvance).memRead x = s.memRead x := rfl
@[simp] theorem memRead_transferTo (s : State) (t : Byte) (x : Byte) :
    (s.transferTo t).memRead x = s.memRead x := rfl
@[simp] theorem memRead_beginCycle (s : State) (x : Byte) :
    (s.beginCycle).memRead x = s.memRead x := rfl
@[simp] theorem memRead_beginInstr (s : State) (b : Byte) (x : Byte) :
    (s.beginInstr b).memRead x = s.memRead x := rfl
@[simp] theorem memRead_collect (s : State) (p : Pending) (k : OperandKind) (b : Byte) (x : Byte) :
    (s.collect p k b).memRead x = s.memRead x := rfl
@[simp] theorem memRead_rejectOperand (s : State) (p : Pending) (k : OperandKind) (b : Byte) (x : Byte) :
    (s.rejectOperand p k b).memRead x = s.memRead x := rfl

@[simp] theorem vidRead_emit (s : State) (e : Event) (x : Byte) :
    (s.emit e).vidRead x = s.vidRead x := rfl
@[simp] theorem vidRead_raise (s : State) (report : ErrorReport) (x : Byte) :
    (s.raise report).vidRead x = s.vidRead x := rfl
@[simp] theorem vidRead_writeReg (s : State) (r : Reg) (v : Byte) (x : Byte) :
    (s.writeReg r v).vidRead x = s.vidRead x := rfl
@[simp] theorem vidRead_setCarry (s : State) (b : Bool) (x : Byte) :
    (s.setCarry b).vidRead x = s.vidRead x := rfl
@[simp] theorem vidRead_setBank (s : State) (v : Byte) (x : Byte) :
    (s.setBank v).vidRead x = s.vidRead x := rfl
@[simp] theorem vidRead_setPalette (s : State) (v : Byte) (x : Byte) :
    (s.setPalette v).vidRead x = s.vidRead x := rfl
@[simp] theorem vidRead_memWrite (s : State) (a v : Byte) (x : Byte) :
    (s.memWrite a v).vidRead x = s.vidRead x := rfl
@[simp] theorem vidRead_writePc (s : State) (t : Byte) (x : Byte) :
    (s.writePc t).vidRead x = s.vidRead x := rfl
@[simp] theorem vidRead_suppressAdvance (s : State) (x : Byte) :
    (s.suppressAdvance).vidRead x = s.vidRead x := rfl
@[simp] theorem vidRead_transferTo (s : State) (t : Byte) (x : Byte) :
    (s.transferTo t).vidRead x = s.vidRead x := rfl
@[simp] theorem vidRead_beginCycle (s : State) (x : Byte) :
    (s.beginCycle).vidRead x = s.vidRead x := rfl
@[simp] theorem vidRead_beginInstr (s : State) (b : Byte) (x : Byte) :
    (s.beginInstr b).vidRead x = s.vidRead x := rfl
@[simp] theorem vidRead_collect (s : State) (p : Pending) (k : OperandKind) (b : Byte) (x : Byte) :
    (s.collect p k b).vidRead x = s.vidRead x := rfl
@[simp] theorem vidRead_rejectOperand (s : State) (p : Pending) (k : OperandKind) (b : Byte) (x : Byte) :
    (s.rejectOperand p k b).vidRead x = s.vidRead x := rfl

/-! ## Reads after writes -/

@[simp] theorem readReg_writeReg_same (s : State) (r : Reg) (v : Byte) :
    (s.writeReg r v).readReg r = v := by
  simp [readReg]

theorem readReg_writeReg_other (s : State) {r x : Reg} (h : x ≠ r) (v : Byte) :
    (s.writeReg r v).readReg x = s.readReg x := by
  have : r.val ≠ x.val := fun e => h (Fin.ext e.symm)
  simp [readReg, this]

theorem memRead_memWrite_same {s : State} (h : s.memory.wf = true) (a v : Byte) :
    (s.memWrite a v).memRead a = v := Memory.read_write_same h _ _

theorem memRead_memWrite_other (s : State) {a b : Byte} (h : b ≠ a) (v : Byte) :
    (s.memWrite a v).memRead b = s.memRead b :=
  Memory.read_write_other _ (fun e => h (BitVec.eq_of_toNat_eq e)) _

theorem vidRead_vidWrite_same {s : State} (h : s.videoMemory.wf = true) (a v : Byte) :
    (s.vidWrite a v).vidRead a = v := Memory.read_write_same h _ _

theorem vidRead_vidWrite_other (s : State) {a b : Byte} (h : b ≠ a) (v : Byte) :
    (s.vidWrite a v).vidRead b = s.vidRead b :=
  Memory.read_write_other _ (fun e => h (BitVec.eq_of_toNat_eq e)) _

/-! ## The call stack -/

/-- A push either finds the stack full or appends one entry and changes nothing else. -/
theorem push_cases (s : State) (v : Byte) :
    (s.config.callStackDepth ≤ s.callStack.length ∧ s.push v = none) ∨
      (s.callStack.length < s.config.callStackDepth ∧
        s.push v = some { s with callStack := s.callStack ++ [v] }) := by
  unfold push
  split
  · exact .inl ⟨‹_›, rfl⟩
  · exact .inr ⟨by omega, rfl⟩

/-- A pop either finds the stack empty or takes its last entry and changes nothing else. -/
theorem pop_cases (s : State) :
    (s.callStack = [] ∧ s.pop = none) ∨
      (∃ below v, s.callStack = below ++ [v] ∧ s.pop = some (v, { s with callStack := below })) := by
  rcases List.eq_nil_or_concat s.callStack with h | ⟨below, v, h⟩
  · exact .inl ⟨h, by simp [pop, h]⟩
  · exact .inr ⟨below, v, by simpa using h, by simp [pop, h]⟩

end Sys2Proof.Machine.State

namespace Sys2Proof.Machine

/-! ## Frames -/

theorem FrameExcept.refl (w : Writes) (s : State) : FrameExcept w s s :=
  ⟨fun _ _ => rfl, fun _ => rfl, fun _ => rfl, fun _ => rfl, fun _ => rfl, fun _ => rfl,
    fun _ => rfl, fun _ _ => rfl, fun _ _ => rfl, rfl, rfl⟩

theorem frame_writeReg (s : State) (r : Reg) (v : Byte) :
    FrameExcept { reg := some r } s (s.writeReg r v) :=
  { FrameExcept.refl {} s with
    regs := fun _ h => State.readReg_writeReg_other s (fun e => h (by rw [e])) v }

theorem frame_memWrite (s : State) (a v : Byte) :
    FrameExcept { main := some a } s (s.memWrite a v) :=
  { FrameExcept.refl {} s with
    main := fun _ h => State.memRead_memWrite_other s (fun e => h (by rw [e])) v }

theorem frame_vidWrite (s : State) (a v : Byte) :
    FrameExcept { video := some a } s (s.vidWrite a v) :=
  { FrameExcept.refl {} s with
    video := fun _ h => State.vidRead_vidWrite_other s (fun e => h (by rw [e])) v }

/-! ## The shared operations -/

theorem registerBecomes_writeReg (s : State) (rd : Reg) (v : Byte) :
    RegisterBecomes s (s.writeReg rd v) rd v.toNat :=
  ⟨by simp, by simp, frame_writeReg s rd v⟩

theorem moveToRegister_spec (rd : Reg) (value : State → Byte) (s : State) :
    RegisterBecomes s (moveToRegister rd value s) rd (value s).toNat :=
  registerBecomes_writeReg s rd _

theorem loadMain_spec (rd : Reg) (address : State → Byte) (s : State) :
    RegisterBecomes s (loadMain rd address s) rd (s.memRead (address s)).toNat :=
  registerBecomes_writeReg s rd _

theorem loadVideo_spec (rd : Reg) (address : State → Byte) (s : State) :
    RegisterBecomes s (loadVideo rd address s) rd (s.vidRead (address s)).toNat :=
  registerBecomes_writeReg s rd _

theorem storeMain_spec {s : State} (h : s.memory.wf = true) (address value : State → Byte) :
    MainByteBecomes s (storeMain address value s) (address s) (value s) :=
  ⟨State.memRead_memWrite_same h _ _, Memory.wf_write h _ _, rfl, frame_memWrite s _ _⟩

theorem storeVideo_spec {s : State} (h : s.videoMemory.wf = true) (address value : State → Byte) :
    VideoByteBecomes s (storeVideo address value s) (address s) (value s) :=
  ⟨State.vidRead_vidWrite_same h _ _, Memory.wf_write h _ _, rfl, frame_vidWrite s _ _⟩

theorem arithmetic_spec (result : Byte → Byte → Byte) (flag : Byte → Byte → Bool) (rd : Reg)
    (value : State → Byte) (s : State) :
    RegisterAndCarryBecome s (arithmetic result flag rd value s) rd
      (result (s.readReg rd) (value s)).toNat (flag (s.readReg rd) (value s) = true) :=
  ⟨by simp [arithmetic], by simp [arithmetic], by simp [arithmetic],
    { frame_writeReg s rd (result (s.readReg rd) (value s)) with carry := fun h => nomatch h }⟩

theorem unaryWithCarry_spec (result : Byte → Byte) (flag : Byte → Bool) (rd : Reg) (s : State) :
    RegisterAndCarryBecome s (unaryWithCarry result flag rd s) rd
      (result (s.readReg rd)).toNat (flag (s.readReg rd) = true) :=
  ⟨by simp [unaryWithCarry], by simp [unaryWithCarry], by simp [unaryWithCarry],
    { frame_writeReg s rd (result (s.readReg rd)) with carry := fun h => nomatch h }⟩

theorem division_spec (opcode : Byte) (result : Byte → Byte → Byte) (rs rd : Reg) (s : State) :
    (s.readReg rs = 0#8 ∧
        OnlyRaises s (division opcode result rs rd s) (.divideByZero opcode s.start)) ∨
      (s.readReg rs ≠ 0#8 ∧
        RegisterBecomes s (division opcode result rs rd s) rd
          (result (s.readReg rd) (s.readReg rs)).toNat) := by
  unfold division
  split
  · exact .inl ⟨‹_›, rfl, { FrameExcept.refl {} s with pending := rfl }⟩
  · exact .inr ⟨‹_›, registerBecomes_writeReg s rd _⟩

theorem bitwise_spec (result : Byte → Byte → Byte) (rs rd : Reg) (s : State) :
    RegisterBecomes s (bitwise result rs rd s) rd (result (s.readReg rd) (s.readReg rs)).toNat :=
  registerBecomes_writeReg s rd _

theorem compareOp_spec (truth : Byte → Byte → Bool) (ra : Reg) (value : State → Byte) (s : State) :
    CarryBecomes s (compareOp truth ra value s) (truth (s.readReg ra) (value s) = true) :=
  ⟨Iff.rfl, rfl, { FrameExcept.refl {} s with carry := fun h => nomatch h }⟩

theorem transferTo_spec (t : Byte) (s : State) : TransferTaken s (s.transferTo t) t :=
  ⟨rfl, rfl, rfl,
    { FrameExcept.refl {} s with pc := fun h => (nomatch h), suppressed := fun h => (nomatch h) }⟩

theorem transferIf_cases (taken : Bool) (t : Byte) (s : State) :
    (taken = true ∧ transferIf taken t s = s.transferTo t) ∨
      (taken = false ∧ transferIf taken t s = s) := by
  cases taken <;> simp [transferIf]

/-! ## Results and carries as numbers -/

@[simp] theorem narrow_toNat (t : Nat) : (narrow t).toNat = t % 256 := rfl

theorem subResult_toNat (a b : Byte) : (subResult a b).toNat = (a.toNat + 256 - b.toNat) % 256 := rfl

theorem divResult_toNat (a b : Byte) : (divResult a b).toNat = a.toNat / b.toNat :=
  Nat.mod_eq_of_lt (lt_of_le_of_lt (Nat.div_le_self _ _) a.isLt)

theorem modResult_toNat (a b : Byte) : (modResult a b).toNat = a.toNat % b.toNat :=
  Nat.mod_eq_of_lt (lt_of_le_of_lt (Nat.mod_le _ _) a.isLt)

theorem notResult_toNat (a : Byte) : (notResult a).toNat = 255 - a.toNat :=
  Nat.mod_eq_of_lt (by omega)

theorem shrResult_toNat (a : Byte) : (shrResult a).toNat = a.toNat / 2 :=
  Nat.mod_eq_of_lt (by have := a.isLt; omega)

end Sys2Proof.Machine
end

