-- ==== Sys2Proof/Laws/Exec.lean ====
section
/-! SUPPORT. The inversion of `exec`: every instruction answers a next state, and everything that state
can differ in. Whole-machine facts are derived from this one lemma. -/

namespace Sys2Proof.Machine

/-- What an instruction's tables in Sys2Proof/Safety.lean say it may write in the state `s`. -/
def writesOf (i : Instr) (s : State) : Writes :=
  { reg := writtenReg i
    carry := writesCarry i
    bank := writesBank i
    palette := writesPalette i
    stack := reachesStack i
    control := isTransfer i
    main := storedMain i s
    video := storedVideo i s }

/-- Everything the semantics of `i` can do to `s`, ending in `t` with the events `sem`. -/
structure Effect (i : Instr) (s t : State) (sem : List Event) : Prop where
  trace : t.trace = s.trace ++ sem
  short : sem.length ≤ 1
  semantic : ∀ e ∈ sem, isSemanticEvent e = true
  frame : FrameExcept (writesOf i s) s t
  memory : s.memory.wf = true → t.memory.wf = true
  video : s.videoMemory.wf = true → t.videoMemory.wf = true
  stack : s.callStack.length ≤ s.config.callStackDepth →
    t.callStack.length ≤ s.config.callStackDepth
  /-- pc moves only where the advance is suppressed. -/
  unmoved : t.suppressed = false → t.pc = s.pc
  /-- Where an error is raised nothing but the trace is written, and only RET suppresses. -/
  raised : noError sem = false →
    t = { s with suppressed := s.suppressed || decide (i = .ret), trace := t.trace }

section
variable {i : Instr} (s : State)

theorem effect_nothing : Effect i s s [] :=
  ⟨by simp, by simp, by simp, FrameExcept.refl _ s, id, id, id, fun _ => rfl, fun h => (nomatch h)⟩

theorem effect_emit (e : Event) (h : isSemanticEvent e = true) (hi : i ≠ .ret) :
    Effect i s (s.emit e) [e] :=
  ⟨rfl, by simp, by simpa using h, { FrameExcept.refl _ s with pending := rfl }, id, id, id,
    fun _ => rfl, fun _ => by simp [State.emit, hi]⟩

theorem effect_writeReg {rd : Reg} (h : writtenReg i = some rd) (v : Byte) :
    Effect i s (s.writeReg rd v) [.registerChanged rd v] :=
  ⟨rfl, by simp, by simp [isSemanticEvent],
    { FrameExcept.refl _ s with
      regs := fun r hr => State.readReg_writeReg_other s (by rintro rfl; exact hr h) v },
    id, id, id, fun _ => rfl, fun h => (nomatch h)⟩

theorem effect_setCarry (h : writesCarry i = true) (b : Bool) : Effect i s (s.setCarry b) [] :=
  ⟨by simp, by simp, by simp,
    { FrameExcept.refl _ s with carry := fun hc => absurd (h.symm.trans hc) (by decide) },
    id, id, id, fun _ => rfl, fun h => (nomatch h)⟩

theorem effect_writeReg_setCarry {rd : Reg} (h : writtenReg i = some rd) (hc : writesCarry i = true)
    (v : Byte) (b : Bool) :
    Effect i s ((s.writeReg rd v).setCarry b) [.registerChanged rd v] :=
  ⟨rfl, by simp, by simp [isSemanticEvent],
    { FrameExcept.refl _ s with
      regs := fun r hr => State.readReg_writeReg_other s (by rintro rfl; exact hr h) v
      carry := fun hf => absurd (hc.symm.trans hf) (by decide) },
    id, id, id, fun _ => rfl, fun h => (nomatch h)⟩

theorem effect_memWrite {a : Byte} (h : storedMain i s = some a) (v : Byte) :
    Effect i s (s.memWrite a v) [.memoryChanged a v] :=
  ⟨rfl, by simp, by simp [isSemanticEvent],
    { FrameExcept.refl _ s with
      main := fun b hb => State.memRead_memWrite_other s (by rintro rfl; exact hb h) v },
    fun hm => Memory.wf_write hm a v, id, id, fun _ => rfl, fun h => (nomatch h)⟩

theorem effect_vidWrite {a : Byte} (h : storedVideo i s = some a) (v : Byte) :
    Effect i s (s.vidWrite a v) [] :=
  ⟨by simp, by simp, by simp,
    { FrameExcept.refl _ s with
      video := fun b hb => State.vidRead_vidWrite_other s (by rintro rfl; exact hb h) v },
    id, fun hm => Memory.wf_write hm a v, id, fun _ => rfl, fun h => (nomatch h)⟩

theorem effect_setBank (h : writesBank i = true) (v : Byte) : Effect i s (s.setBank v) [] :=
  ⟨by simp, by simp, by simp,
    { FrameExcept.refl _ s with bank := fun hc => absurd (h.symm.trans hc) (by decide) },
    id, id, id, fun _ => rfl, fun h => (nomatch h)⟩

theorem effect_setPalette (h : writesPalette i = true) (v : Byte) : Effect i s (s.setPalette v) [] :=
  ⟨by simp, by simp, by simp,
    { FrameExcept.refl _ s with palette := fun hc => absurd (h.symm.trans hc) (by decide) },
    id, id, id, fun _ => rfl, fun h => (nomatch h)⟩

theorem effect_transferTo (h : isTransfer i = true) (t : Byte) :
    Effect i s (s.transferTo t) [.programCounterChanged t] :=
  ⟨rfl, by simp, by simp [isSemanticEvent],
    { FrameExcept.refl _ s with
      pc := fun hc => absurd (h.symm.trans hc) (by decide)
      suppressed := fun hc => absurd (h.symm.trans hc) (by decide) },
    id, id, id, fun hs => (nomatch hs), fun h => (nomatch h)⟩

theorem effect_division {opcode : Byte} {result : Byte → Byte → Byte} {rs rd : Reg}
    (h : writtenReg i = some rd) : ∃ sem, Effect i s (division opcode result rs rd s) sem := by
  unfold division
  split
  · exact ⟨_, effect_emit s _ rfl (by rintro rfl; cases h)⟩
  · exact ⟨_, effect_writeReg s h _⟩

theorem effect_transferIf (h : isTransfer i = true) (taken : Bool) (t : Byte) :
    ∃ sem, Effect i s (transferIf taken t s) sem := by
  rcases transferIf_cases taken t s with ⟨_, e⟩ | ⟨_, e⟩ <;> rw [e]
  · exact ⟨_, effect_transferTo s h t⟩
  · exact ⟨_, effect_nothing s⟩

end

/-- CALL either raises CallStackOverflow and writes nothing, or pushes and transfers. -/
theorem execCall_cases (t : Byte) (s : State) :
    (s.config.callStackDepth ≤ s.callStack.length ∧
        execCall t s =
          .next (s.raise (.callStackOverflow 0x54#8 s.start s.config.callStackDepth))) ∨
      (s.callStack.length < s.config.callStackDepth ∧
        execCall t s =
          .next ({ s with callStack := s.callStack ++ [returnAddress s] }.transferTo t)) := by
  unfold execCall
  rcases s.push_cases (returnAddress s) with ⟨h, e⟩ | ⟨h, e⟩ <;> rw [e]
  · exact .inl ⟨h, rfl⟩
  · exact .inr ⟨h, rfl⟩

/-- RET suppresses the advance and either raises CallStackUnderflow or takes the last entry. -/
theorem execRet_cases (s : State) :
    (s.callStack = [] ∧
        execRet s = .next (s.suppressAdvance.raise (.callStackUnderflow 0x55#8 s.start))) ∨
      (∃ below v, s.callStack = below ++ [v] ∧
        execRet s = .next ({ s.suppressAdvance with callStack := below }.writePc v)) := by
  unfold execRet
  rcases s.suppressAdvance.pop_cases with ⟨h, e⟩ | ⟨below, v, h, e⟩ <;> rw [e]
  · exact .inl ⟨h, rfl⟩
  · exact .inr ⟨below, v, h, rfl⟩

theorem effect_call (t : Byte) (s : State) :
    ∃ u sem, execCall t s = .next u ∧ Effect (.call t) s u sem := by
  rcases execCall_cases t s with ⟨_, e⟩ | ⟨h, e⟩ <;> rw [e]
  · exact ⟨_, _, rfl, effect_emit s _ rfl (by simp)⟩
  · exact ⟨_, _, rfl, rfl, by simp, by simp [isSemanticEvent],
      { FrameExcept.refl _ s with
        stack := fun hc => (nomatch hc)
        pc := fun hc => (nomatch hc)
        suppressed := fun hc => (nomatch hc) },
      id, id, fun _ => by simp; omega, fun hs => Bool.noConfusion hs, fun h => (nomatch h)⟩

theorem effect_ret (s : State) : ∃ u sem, execRet s = .next u ∧ Effect .ret s u sem := by
  rcases execRet_cases s with ⟨_, e⟩ | ⟨below, v, h, e⟩ <;> rw [e]
  · exact ⟨_, _, rfl, rfl, by simp, by simp [isSemanticEvent],
      { FrameExcept.refl _ s with
        suppressed := fun hc => (nomatch hc) },
      id, id, id, fun _ => rfl,
      fun _ => by simp [State.suppressAdvance, State.raise, State.emit]⟩
  · refine ⟨_, _, rfl, rfl, by simp, by simp [isSemanticEvent],
      { FrameExcept.refl _ s with
        stack := fun hc => (nomatch hc)
        pc := fun hc => (nomatch hc)
        suppressed := fun hc => (nomatch hc) },
      id, id, fun hs => ?_, fun hs => (nomatch hs), fun h => (nomatch h)⟩
    rw [h] at hs
    simp at hs ⊢
    omega

/-- Every instruction answers a next state; what it can have done stands in `Effect`. -/
theorem exec_effect (i : Instr) (s : State) : ∃ t sem, exec i s = .next t ∧ Effect i s t sem := by
  cases i with
  | nop => exact ⟨_, _, rfl, effect_nothing s⟩
  | movRegReg => exact ⟨_, _, rfl, effect_writeReg s rfl _⟩
  | movConstReg => exact ⟨_, _, rfl, effect_writeReg s rfl _⟩
  | movMemReg => exact ⟨_, _, rfl, effect_writeReg s rfl _⟩
  | movRegMem => exact ⟨_, _, rfl, effect_memWrite s rfl _⟩
  | movConstMem => exact ⟨_, _, rfl, effect_memWrite s rfl _⟩
  | movIndReg => exact ⟨_, _, rfl, effect_writeReg s rfl _⟩
  | movRegInd => exact ⟨_, _, rfl, effect_memWrite s rfl _⟩
  | vmovMemReg => exact ⟨_, _, rfl, effect_writeReg s rfl _⟩
  | vmovRegMem => exact ⟨_, _, rfl, effect_vidWrite s rfl _⟩
  | vmovConstMem => exact ⟨_, _, rfl, effect_vidWrite s rfl _⟩
  | vmovIndReg => exact ⟨_, _, rfl, effect_writeReg s rfl _⟩
  | vmovRegInd => exact ⟨_, _, rfl, effect_vidWrite s rfl _⟩
  | addReg => exact ⟨_, _, rfl, effect_writeReg_setCarry s rfl rfl _ _⟩
  | addConst => exact ⟨_, _, rfl, effect_writeReg_setCarry s rfl rfl _ _⟩
  | subReg => exact ⟨_, _, rfl, effect_writeReg_setCarry s rfl rfl _ _⟩
  | subConst => exact ⟨_, _, rfl, effect_writeReg_setCarry s rfl rfl _ _⟩
  | mulReg => exact ⟨_, _, rfl, effect_writeReg_setCarry s rfl rfl _ _⟩
  | divReg rs rd => obtain ⟨sem, h⟩ := effect_division (i := .divReg rs rd) s rfl; exact ⟨_, sem, rfl, h⟩
  | modReg rs rd => obtain ⟨sem, h⟩ := effect_division (i := .modReg rs rd) s rfl; exact ⟨_, sem, rfl, h⟩
  | inc => exact ⟨_, _, rfl, effect_writeReg_setCarry s rfl rfl _ _⟩
  | dec => exact ⟨_, _, rfl, effect_writeReg_setCarry s rfl rfl _ _⟩
  | andReg => exact ⟨_, _, rfl, effect_writeReg s rfl _⟩
  | orReg => exact ⟨_, _, rfl, effect_writeReg s rfl _⟩
  | xorReg => exact ⟨_, _, rfl, effect_writeReg s rfl _⟩
  | notReg => exact ⟨_, _, rfl, effect_writeReg s rfl _⟩
  | shl => exact ⟨_, _, rfl, effect_writeReg_setCarry s rfl rfl _ _⟩
  | shr => exact ⟨_, _, rfl, effect_writeReg_setCarry s rfl rfl _ _⟩
  | eqReg => exact ⟨_, _, rfl, effect_setCarry s rfl _⟩
  | eqConst => exact ⟨_, _, rfl, effect_setCarry s rfl _⟩
  | ltReg => exact ⟨_, _, rfl, effect_setCarry s rfl _⟩
  | ltConst => exact ⟨_, _, rfl, effect_setCarry s rfl _⟩
  | gtReg => exact ⟨_, _, rfl, effect_setCarry s rfl _⟩
  | gtConst => exact ⟨_, _, rfl, effect_setCarry s rfl _⟩
  | setc => exact ⟨_, _, rfl, effect_setCarry s rfl _⟩
  | clrc => exact ⟨_, _, rfl, effect_setCarry s rfl _⟩
  | jmp => exact ⟨_, _, rfl, effect_transferTo s rfl _⟩
  | jmpReg => exact ⟨_, _, rfl, effect_transferTo s rfl _⟩
  | jc t => obtain ⟨sem, h⟩ := effect_transferIf (i := .jc t) s rfl _ t; exact ⟨_, sem, rfl, h⟩
  | jnc t => obtain ⟨sem, h⟩ := effect_transferIf (i := .jnc t) s rfl _ t; exact ⟨_, sem, rfl, h⟩
  | call t => exact effect_call t s
  | ret => exact effect_ret s
  | print => exact ⟨_, _, rfl, effect_emit s _ rfl (by simp)⟩
  | bank => exact ⟨_, _, rfl, effect_setBank s rfl _⟩
  | palette => exact ⟨_, _, rfl, effect_setPalette s rfl _⟩

end Sys2Proof.Machine
end

