-- ==== Sys2Proof/Laws/Cycle.lean ====
section
/-! SUPPORT. The inversion of `step`: what one cycle can do, by phase and by the byte it reads. -/

namespace Sys2Proof.Machine

/-! ## Operand lists while they are collected -/

theorem operandsAccepted_length {ks : List OperandKind} {bs : List Byte}
    (h : operandsAccepted ks bs = true) : bs.length = ks.length := by
  induction ks generalizing bs with
  | nil => cases bs with
    | nil => rfl
    | cons => cases h
  | cons k ks ih => cases bs with
    | nil => cases h
    | cons b bs =>
      simp only [operandsAccepted, Bool.and_eq_true] at h
      simp [ih h.2]

theorem operandsAccepted_snoc {ks : List OperandKind} {bs : List Byte} {k : OperandKind} {b : Byte}
    (h : operandsAccepted (ks.take bs.length) bs = true) (hk : ks[bs.length]? = some k)
    (hb : accepts k b = true) :
    operandsAccepted (ks.take (bs.length + 1)) (bs ++ [b]) = true := by
  induction bs generalizing ks with
  | nil =>
    cases ks with
    | nil => cases hk
    | cons k' ks =>
      have : k' = k := by simpa using hk
      subst this
      simp [operandsAccepted, hb]
  | cons c cs ih =>
    cases ks with
    | nil => cases hk
    | cons k' ks =>
      simp only [List.length_cons, List.take_succ_cons, operandsAccepted, Bool.and_eq_true] at h
      have := ih h.2 (by simpa using hk)
      simp only [List.length_cons, List.take_succ_cons, List.cons_append, operandsAccepted,
        Bool.and_eq_true]
      exact ⟨h.1, by simpa using this⟩

/-! ## The decoder on a complete instruction -/

/-- A bound opcode with exactly its operands, all accepted, is an instruction with that opcode. -/
theorem decode_of_accepted {b : Byte} {d : Descriptor} (h : lookup b = some d) {bs : List Byte}
    (ha : operandsAccepted d.kinds bs = true) :
    ∃ i, decode (b :: bs) = .ok (i, []) ∧ i.opcode = b ∧ i.operands.map Operand.byte = bs := by
  obtain ⟨os, hos⟩ := decodeOperands_of_accepted b ha
  obtain ⟨hk, hb⟩ := decodeOperands_ok hos
  obtain ⟨i, hi, ho, hops⟩ := build_of_kinds h hk
  exact ⟨i, by simp [decode, h, hos, hi], ho, by simp [hops, hb]⟩

theorem instr_of_decode {p : Pending} {i : Instr} (h : decode (p.opcode :: p.collected) = .ok (i, [])) :
    p.instr = some i := by
  simp [Pending.instr, h]

/-- Execution of a complete instruction always completes (40_decode_execute.md rules R118, R125). -/
theorem execute_of_instr {p : Pending} {i : Instr} (h : p.instr = some i) (s : State) :
    ∃ t sem, exec i s = .next t ∧ Effect i s t sem ∧
      execute p s = .next (t.finishInstr p.opcode) := by
  obtain ⟨t, sem, he, hf⟩ := exec_effect i s
  exact ⟨t, sem, he, hf, by simp [execute, h, he]⟩

/-! ## What follows the semantics -/

theorem finishInstr_eq (opcode : Byte) (t : State) : t.finishInstr opcode = afterExecute opcode t := by
  unfold State.finishInstr State.endCycle afterExecute
  cases h : t.suppressed <;> simp [State.emit, State.writePc, h]

/-! ## One cycle -/

/-- What a cycle in the phase Idle can do. -/
theorem step_idle {s : State} (hp : s.pending = none) :
    (lookup s.fetch = none ∧
        step s = .next (s.beginCycle.emit (.invalidByteParsed s.fetch s.pc)).endCycle) ∨
      (∃ d, lookup s.fetch = some d ∧ 0 < d.n ∧ step s = .next (s.beginCycle.beginInstr s.fetch).endCycle) ∨
      (∃ d i t sem, lookup s.fetch = some d ∧ d.n = 0 ∧ decode [s.fetch] = .ok (i, []) ∧
        i.opcode = s.fetch ∧ exec i (s.beginCycle.beginInstr s.fetch) = .next t ∧
        Effect i (s.beginCycle.beginInstr s.fetch) t sem ∧
        step s = .next (afterExecute s.fetch t)) := by
  have hs : step s = cycleIdle s.fetch s.beginCycle := by simp [step, cycle, hp]
  cases hl : lookup s.fetch with
  | none => exact .inl ⟨rfl, by rw [hs]; simp [cycleIdle, hl]⟩
  | some d =>
    rcases Nat.eq_zero_or_pos d.n with hn | hn
    · have hk : d.kinds = [] := by simpa [Descriptor.n] using hn
      obtain ⟨i, hd, ho, _⟩ := decode_of_accepted hl (bs := []) (by simp [hk, operandsAccepted])
      obtain ⟨t, sem, he, hf, hx⟩ :=
        execute_of_instr (p := ⟨s.fetch, [], s.pc⟩) (instr_of_decode hd) (s.beginCycle.beginInstr s.fetch)
      refine .inr (.inr ⟨d, i, t, sem, rfl, hn, hd, ho, he, hf, ?_⟩)
      rw [hs]
      simp only [cycleIdle, hl, hn, if_true]
      exact hx.trans (by rw [finishInstr_eq])
    · refine .inr (.inl ⟨d, rfl, hn, ?_⟩)
      rw [hs]
      simp [cycleIdle, hl, Nat.pos_iff_ne_zero.1 hn]

/-- What a cycle in the phase Collecting can do, in a decoder state of rule R124. -/
theorem step_collecting {s : State} {p : Pending} (hp : s.pending = some p) (hok : p.ok = true) :
    ∃ d k, lookup p.opcode = some d ∧ d.kinds[p.collected.length]? = some k ∧
      operandsAccepted (d.kinds.take p.collected.length) p.collected = true ∧
      ((accepts k s.fetch = false ∧
          step s = .next (s.beginCycle.rejectOperand p k s.fetch).endCycle) ∨
        (accepts k s.fetch = true ∧ p.collected.length + 1 < d.n ∧
          step s = .next (s.beginCycle.collect p k s.fetch).endCycle) ∨
        (accepts k s.fetch = true ∧ p.collected.length + 1 = d.n ∧
          ∃ i t sem, decode (p.opcode :: (p.collected ++ [s.fetch])) = .ok (i, []) ∧
            i.opcode = p.opcode ∧ exec i (s.beginCycle.collect p k s.fetch) = .next t ∧
            Effect i (s.beginCycle.collect p k s.fetch) t sem ∧
            step s = .next (afterExecute p.opcode t))) := by
  have hs : step s = cycleCollecting p s.fetch s.beginCycle := by simp [step, cycle, hp]
  unfold Pending.ok Pending.desc at hok
  cases hl : lookup p.opcode with
  | none => rw [hl] at hok; cases hok
  | some d =>
    simp only [hl, Bool.and_eq_true, decide_eq_true_eq] at hok
    obtain ⟨hlt, hacc⟩ := hok
    obtain ⟨k, hk⟩ : ∃ k, d.kinds[p.collected.length]? = some k := ⟨_, List.getElem?_eq_getElem hlt⟩
    have hexp : p.expectedKind = some k := by simp [Pending.expectedKind, Pending.desc, hl, hk]
    have hn : p.n = d.n := by simp [Pending.n, Pending.desc, hl]
    refine ⟨d, k, rfl, hk, hacc, ?_⟩
    rw [hs]
    simp only [cycleCollecting, hexp, hn]
    cases ha : accepts k s.fetch with
    | false => exact .inl ⟨rfl, rfl⟩
    | true =>
      simp only [if_true, List.length_append, List.length_singleton]
      by_cases hlast : p.collected.length + 1 = d.n
      · refine .inr (.inr ⟨trivial, hlast, ?_⟩)
        have hall := operandsAccepted_snoc hacc hk ha
        rw [List.take_of_length_le (by rw [hlast]; rfl)] at hall
        obtain ⟨i, hd, ho, _⟩ := decode_of_accepted hl hall
        obtain ⟨t, sem, he, hf, hx⟩ :=
          execute_of_instr (p := { p with collected := p.collected ++ [s.fetch] }) (instr_of_decode hd)
            (s.beginCycle.collect p k s.fetch)
        refine ⟨i, t, sem, hd, ho, he, hf, ?_⟩
        simp only [hlast, if_true]
        exact hx.trans (by rw [finishInstr_eq])
      · refine .inr (.inl ⟨trivial, by omega, ?_⟩)
        simp [hlast]

/-! ## Every completed cycle -/

theorem operandsAccepted_of_decodeOperands {opcode : Byte} {ks : List OperandKind} {bs : List Byte}
    {os : List Operand} (h : decodeOperands opcode ks bs = .ok (os, [])) :
    operandsAccepted ks bs = true := by
  induction ks generalizing bs os with
  | nil => cases h; rfl
  | cons k ks ih =>
    cases bs with
    | nil => cases h
    | cons b bs =>
      unfold decodeOperands at h
      split at h
      · cases h
      · next o ho =>
        split at h
        · cases h
        · next os' rest' hr =>
          cases h
          simp [operandsAccepted, (decodeOperand_some ho).2.2, ih hr]

/-- Bytes that decode with nothing left over are a bound opcode with its operands, all accepted. -/
theorem accepted_of_decode {b : Byte} {bs : List Byte} {i : Instr}
    (h : decode (b :: bs) = .ok (i, [])) :
    ∃ d, lookup b = some d ∧ operandsAccepted d.kinds bs = true ∧ i.opcode = b := by
  unfold decode at h
  cases hl : lookup b with
  | none => simp [hl] at h
  | some d =>
    simp only [hl] at h
    cases hd : decodeOperands b d.kinds bs with
    | error e => simp [hd] at h
    | ok r =>
      obtain ⟨os, rest⟩ := r
      simp only [hd] at h
      obtain ⟨hk, _⟩ := decodeOperands_ok hd
      obtain ⟨j, hj, ho, _⟩ := build_of_kinds hl hk
      simp only [hj] at h
      cases h
      exact ⟨d, rfl, operandsAccepted_of_decodeOperands hd, ho⟩

theorem executing_idle_iff {s : State} (hp : s.pending = none) (i : Instr) :
    s.executing = some i ↔ decode [s.memRead s.pc] = .ok (i, []) := by
  unfold State.executing
  rw [hp]
  simp only
  split
  · next j h => rw [h]; simp
  · next h => exact ⟨fun hc => (nomatch hc), fun hc => absurd hc (h i)⟩

theorem executing_collecting_iff {s : State} {p : Pending} (hp : s.pending = some p) (i : Instr) :
    s.executing = some i ↔
      decode (p.opcode :: (p.collected ++ [s.memRead s.pc])) = .ok (i, []) := by
  unfold State.executing
  rw [hp]
  simp only
  split
  · next j h => rw [h]; simp
  · next h => exact ⟨fun hc => (nomatch hc), fun hc => absurd hc (h i)⟩

theorem operandsAccepted_last {bs : List Byte} {b : Byte} {ks : List OperandKind} {k : OperandKind}
    (h : operandsAccepted ks (bs ++ [b]) = true) (hk : ks[bs.length]? = some k) :
    accepts k b = true := by
  induction bs generalizing ks with
  | nil =>
    cases ks with
    | nil => cases hk
    | cons k' ks =>
      have : k' = k := by simpa using hk
      subst this
      simp only [List.nil_append, operandsAccepted, Bool.and_eq_true] at h
      exact h.1
  | cons c cs ih =>
    cases ks with
    | nil => cases hk
    | cons k' ks =>
      simp only [List.cons_append, operandsAccepted, Bool.and_eq_true] at h
      exact ih h.2 (by simpa using hk)

/-- Everything a completed cycle can have done: after its decode event it either ends, or executes one
instruction and then ends. -/
theorem step_next {s t : State} (h : step s = .next t) :
    ∃ ev q, isDecodeEvent ev = true ∧
      ((s.executing = none ∧ (ev.errorKind.isSome = true → q = none) ∧
          t = { s with
            suppressed := false, pending := q, trace := s.trace ++ [ev] : State }.endCycle) ∨
        ∃ i u sem, s.executing = some i ∧ ev.errorKind = none ∧
          exec i { s with suppressed := false, pending := q, trace := s.trace ++ [ev] } = .next u ∧
          Effect i { s with suppressed := false, pending := q, trace := s.trace ++ [ev] } u sem ∧
          t = afterExecute i.opcode u) := by
  cases hp : s.pending with
  | none =>
    rcases step_idle hp with ⟨hl, hs⟩ | ⟨d, hl, hn, hs⟩ | ⟨d, i, u, sem, hl, hn, hd, ho, he, hf, hs⟩ <;>
      rw [hs] at h <;> cases h
    · refine ⟨_, none, ?_, .inl ⟨?_, fun _ => rfl, by rw [← hp]; rfl⟩⟩
      · rfl
      · cases hx : s.executing with
        | none => rfl
        | some i =>
          obtain ⟨d, hd, _⟩ := accepted_of_decode ((executing_idle_iff hp i).1 hx)
          exact absurd (hl.symm.trans hd) (by simp)
    · refine ⟨_, _, ?_, .inl ⟨?_, ?_, rfl⟩⟩
      · rfl
      · cases hx : s.executing with
        | none => rfl
        | some i =>
          obtain ⟨d', hd, ha, _⟩ := accepted_of_decode ((executing_idle_iff hp i).1 hx)
          have : d = d' := Option.some.inj (hl.symm.trans hd)
          subst this
          have := operandsAccepted_length ha
          simp [Descriptor.n] at hn this
          omega
      · intro hc; cases hc
    · have hx : s.executing = some i := (executing_idle_iff hp i).2 hd
      exact ⟨_, _, rfl, .inr ⟨i, u, sem, hx, rfl, he, hf, by rw [ho]⟩⟩
  | some p =>
    have hs : step s = cycleCollecting p s.fetch s.beginCycle := by simp [step, cycle, hp]
    rw [hs] at h
    unfold cycleCollecting at h
    cases hexp : p.expectedKind with
    | none => rw [hexp] at h; cases h
    | some k =>
      obtain ⟨d, hl, hk⟩ : ∃ d, lookup p.opcode = some d ∧ d.kinds[p.collected.length]? = some k := by
        unfold Pending.expectedKind Pending.desc at hexp
        cases hl : lookup p.opcode with
        | none => rw [hl] at hexp; cases hexp
        | some d => rw [hl] at hexp; exact ⟨d, rfl, hexp⟩
      have hn : p.n = d.n := by simp [Pending.n, Pending.desc, hl]
      simp only [hexp, hn] at h
      have hlen : ∀ i, s.executing = some i → p.collected.length + 1 = d.n := by
        intro i hx
        obtain ⟨d', hd, ha, _⟩ := accepted_of_decode ((executing_collecting_iff hp i).1 hx)
        have : d = d' := Option.some.inj (hl.symm.trans hd)
        subst this
        have := operandsAccepted_length ha
        simpa [Descriptor.n] using this
      split at h
      · next ha =>
        split at h
        · next hlast =>
          unfold execute at h
          cases hi : Pending.instr { p with collected := p.collected ++ [s.fetch] } with
          | none => rw [hi] at h; cases h
          | some i =>
            rw [hi] at h
            obtain ⟨u, sem, he, hf⟩ := exec_effect i (s.beginCycle.collect p k s.fetch)
            simp only [he] at h
            cases h
            have hd : decode (p.opcode :: (p.collected ++ [s.fetch])) = .ok (i, []) := by
              unfold Pending.instr at hi
              split at hi
              · next j hj => cases hi; exact hj
              · cases hi
            obtain ⟨_, _, _, ho⟩ := accepted_of_decode hd
            exact ⟨_, _, rfl, .inr ⟨i, u, sem, (executing_collecting_iff hp i).2 hd, rfl, he, hf,
              by rw [finishInstr_eq, ho]⟩⟩
        · next hlast =>
          cases h
          refine ⟨_, _, ?_, .inl ⟨?_, ?_, rfl⟩⟩
          · rfl
          · cases hx : s.executing with
            | none => rfl
            | some i => exact absurd (hlen i hx) (by simpa using hlast)
          · intro hc; cases hc
      · next ha =>
        cases h
        refine ⟨.error (.operandError p.opcode s.fetch k s.pc), none, rfl, .inl ⟨?_, fun _ => rfl, rfl⟩⟩
        cases hx : s.executing with
        | none => rfl
        | some i =>
          obtain ⟨d', hd, hacc, _⟩ := accepted_of_decode ((executing_collecting_iff hp i).1 hx)
          have : d = d' := Option.some.inj (hl.symm.trans hd)
          subst this
          exact absurd (operandsAccepted_last hacc hk) ha

/-! ## Runs -/

/-- `run` is the host interface's own run. -/
theorem run_eq_core_run (k : Nat) (s : State) : run k s = Host.Core.run core k s := by
  induction k generalizing s with
  | zero => rfl
  | succ k ih =>
    refine Eq.trans ?_ (Host.Core.run.eq_def core (k + 1) s).symm
    unfold run
    cases hs : step s with
    | next t =>
      have hc : core.step s = .next t := hs
      simp only [hc]
      exact ih t
    | fault f =>
      have hc : core.step s = .fault f := hs
      simp only [hc]
      rfl
    | refused r =>
      have hc : core.step s = .refused r := hs
      simp only [hc]
      rfl

theorem run_succ {s t : State} (h : step s = .next t) (k : Nat) : run (k + 1) s = run k t := by
  simp [run, h]

theorem run_add {s t : State} {j : Nat} (h : run j s = .next t) (k : Nat) :
    run (j + k) s = run k t := by
  induction j generalizing s with
  | zero => cases h; simp
  | succ j ih =>
    rw [show j + 1 + k = (j + k) + 1 by omega]
    simp only [run] at h ⊢
    cases hs : step s with
    | next u => rw [hs] at h; exact ih h
    | fault f => rw [hs] at h; cases h
    | refused r => rw [hs] at h; cases h

end Sys2Proof.Machine
end

