-- ==== Sys2Proof/Tests/Slice0.lean ====
section
/-! SUPPORT. The model's own tests. Words and expected results are taken from spec/: the encodings of
30_encoding.md rule R80 (bit by bit, as spec/opcode_table.json writes them), the worked vectors of
95_test_vectors.md, and the rules named. The last part shows, for every obligation with hypotheses,
concrete values that meet them. -/

namespace Sys2Proof.Tests

open Sys2Proof Sys2Proof.Machine

/-! ## Well-formedness refuses each ill-formed term -/

/-- 30_encoding.md rule R82: 0x17 is unbound. -/
theorem test_unbound_opcode_refused : (RawInstr.mk 0x17#8 []).wellFormed = false := by decide

/-- 30_encoding.md rule R79: MOV Rs Rd has two operand bytes, not one. -/
theorem test_missing_operand_refused : (RawInstr.mk 0x10#8 [2#8]).wellFormed = false := by decide

/-- 30_encoding.md rule R79: INC has one operand byte, not two. -/
theorem test_extra_operand_refused : (RawInstr.mk 0x27#8 [2#8, 0#8]).wellFormed = false := by decide

/-- 30_encoding.md rule R73: a register byte is at most 7. -/
theorem test_register_byte_8_refused : (RawInstr.mk 0x27#8 [8#8]).wellFormed = false := by decide

/-- 30_encoding.md rule R73: so is the second register byte. -/
theorem test_second_register_byte_9_refused :
    (RawInstr.mk 0x10#8 [2#8, 9#8]).wellFormed = false := by decide

/-- 30_encoding.md rule R72: bit 7 of a pair byte is 0. -/
theorem test_pair_bit_7_refused : (RawInstr.mk 0x15#8 [0x80#8]).wellFormed = false := by decide

/-- 30_encoding.md rule R72: bit 3 of a pair byte is 0. -/
theorem test_pair_bit_3_refused : (RawInstr.mk 0x16#8 [0x08#8]).wellFormed = false := by decide

/-- 30_encoding.md rule R73: constants and addresses take every byte, a pair 7,7 is accepted. -/
theorem test_wellFormed_accepts : (RawInstr.mk 0x14#8 [255#8, 255#8]).wellFormed = true ∧
    (RawInstr.mk 0x15#8 [0x77#8]).wellFormed = true := by decide

/-- 30_encoding.md rule R78: a ROM that binds an opcode twice is refused, with the error's name. -/
theorem test_duplicate_opcode_refused :
    constructRom [] [(0x00#8, ⟨"NOP", "NOP", [], []⟩), (0x00#8, ⟨"RET", "RET", [], []⟩)] =
      .error (.duplicateOpcode 0x00#8) := rfl

/-- 00_scope.md rule R10: a call-stack depth of 0 is no legal configuration. -/
theorem test_depth_0_refused : (Config.mk 0).valid = false := by decide

/-! ## Decoding: one word of every row, written out from its encoding -/

/-- `NOP` = `00000000`. -/
theorem test_decode_nop : decode [0b00000000#8] = .ok (.nop, []) := rfl

/-- `MOV Rs Rd` = `00010000 00000sss 00000ddd`. -/
theorem test_decode_movRegReg : decode [0b00010000#8, 0b00000010#8, 0b00000101#8] = .ok (.movRegReg 2 5, []) := rfl

/-- `MOV NUMc Rd` = `00010001 cccccccc 00000ddd`. -/
theorem test_decode_movConstReg : decode [0b00010001#8, 0b10100101#8, 0b00000101#8] = .ok (.movConstReg 0xA5#8 5, []) := rfl

/-- `MOV [m] Rd` = `00010010 mmmmmmmm 00000ddd`. -/
theorem test_decode_movMemReg : decode [0b00010010#8, 0b11001000#8, 0b00000101#8] = .ok (.movMemReg 0xC8#8 5, []) := rfl

/-- `MOV Rs [m]` = `00010011 00000sss mmmmmmmm`. -/
theorem test_decode_movRegMem : decode [0b00010011#8, 0b00000010#8, 0b11001000#8] = .ok (.movRegMem 2 0xC8#8, []) := rfl

/-- `MOV NUMc [m]` = `00010100 cccccccc mmmmmmmm`. -/
theorem test_decode_movConstMem : decode [0b00010100#8, 0b10100101#8, 0b11001000#8] = .ok (.movConstMem 0xA5#8 0xC8#8, []) := rfl

/-- `MOV [Ra] Rd` = `00010101 0aaa0ddd`. -/
theorem test_decode_movIndReg : decode [0b00010101#8, 0b01000101#8] = .ok (.movIndReg 4 5, []) := rfl

/-- `MOV Rs [Ra]` = `00010110 0sss0aaa`. -/
theorem test_decode_movRegInd : decode [0b00010110#8, 0b00100100#8] = .ok (.movRegInd 2 4, []) := rfl

/-- `VMOV [m] Rd` = `00011000 mmmmmmmm 00000ddd`. -/
theorem test_decode_vmovMemReg : decode [0b00011000#8, 0b11001000#8, 0b00000101#8] = .ok (.vmovMemReg 0xC8#8 5, []) := rfl

/-- `VMOV Rs [m]` = `00011001 00000sss mmmmmmmm`. -/
theorem test_decode_vmovRegMem : decode [0b00011001#8, 0b00000010#8, 0b11001000#8] = .ok (.vmovRegMem 2 0xC8#8, []) := rfl

/-- `VMOV NUMc [m]` = `00011010 cccccccc mmmmmmmm`. -/
theorem test_decode_vmovConstMem : decode [0b00011010#8, 0b10100101#8, 0b11001000#8] = .ok (.vmovConstMem 0xA5#8 0xC8#8, []) := rfl

/-- `VMOV [Ra] Rd` = `00011011 0aaa0ddd`. -/
theorem test_decode_vmovIndReg : decode [0b00011011#8, 0b01000101#8] = .ok (.vmovIndReg 4 5, []) := rfl

/-- `VMOV Rs [Ra]` = `00011100 0sss0aaa`. -/
theorem test_decode_vmovRegInd : decode [0b00011100#8, 0b00100100#8] = .ok (.vmovRegInd 2 4, []) := rfl

/-- `ADD Rs Rd` = `00100000 00000sss 00000ddd`. -/
theorem test_decode_addReg : decode [0b00100000#8, 0b00000010#8, 0b00000101#8] = .ok (.addReg 2 5, []) := rfl

/-- `ADD NUMc Rd` = `00100001 cccccccc 00000ddd`. -/
theorem test_decode_addConst : decode [0b00100001#8, 0b10100101#8, 0b00000101#8] = .ok (.addConst 0xA5#8 5, []) := rfl

/-- `SUB Rs Rd` = `00100010 00000sss 00000ddd`. -/
theorem test_decode_subReg : decode [0b00100010#8, 0b00000010#8, 0b00000101#8] = .ok (.subReg 2 5, []) := rfl

/-- `SUB NUMc Rd` = `00100011 cccccccc 00000ddd`. -/
theorem test_decode_subConst : decode [0b00100011#8, 0b10100101#8, 0b00000101#8] = .ok (.subConst 0xA5#8 5, []) := rfl

/-- `MUL Rs Rd` = `00100100 00000sss 00000ddd`. -/
theorem test_decode_mulReg : decode [0b00100100#8, 0b00000010#8, 0b00000101#8] = .ok (.mulReg 2 5, []) := rfl

/-- `DIV Rs Rd` = `00100101 00000sss 00000ddd`. -/
theorem test_decode_divReg : decode [0b00100101#8, 0b00000010#8, 0b00000101#8] = .ok (.divReg 2 5, []) := rfl

/-- `MOD Rs Rd` = `00100110 00000sss 00000ddd`. -/
theorem test_decode_modReg : decode [0b00100110#8, 0b00000010#8, 0b00000101#8] = .ok (.modReg 2 5, []) := rfl

/-- `INC Rd` = `00100111 00000ddd`. -/
theorem test_decode_inc : decode [0b00100111#8, 0b00000101#8] = .ok (.inc 5, []) := rfl

/-- `DEC Rd` = `00101000 00000ddd`. -/
theorem test_decode_dec : decode [0b00101000#8, 0b00000101#8] = .ok (.dec 5, []) := rfl

/-- `AND Rs Rd` = `00110000 00000sss 00000ddd`. -/
theorem test_decode_andReg : decode [0b00110000#8, 0b00000010#8, 0b00000101#8] = .ok (.andReg 2 5, []) := rfl

/-- `OR Rs Rd` = `00110001 00000sss 00000ddd`. -/
theorem test_decode_orReg : decode [0b00110001#8, 0b00000010#8, 0b00000101#8] = .ok (.orReg 2 5, []) := rfl

/-- `XOR Rs Rd` = `00110010 00000sss 00000ddd`. -/
theorem test_decode_xorReg : decode [0b00110010#8, 0b00000010#8, 0b00000101#8] = .ok (.xorReg 2 5, []) := rfl

/-- `NOT Rd` = `00110011 00000ddd`. -/
theorem test_decode_notReg : decode [0b00110011#8, 0b00000101#8] = .ok (.notReg 5, []) := rfl

/-- `SHL Rd` = `00110100 00000ddd`. -/
theorem test_decode_shl : decode [0b00110100#8, 0b00000101#8] = .ok (.shl 5, []) := rfl

/-- `SHR Rd` = `00110101 00000ddd`. -/
theorem test_decode_shr : decode [0b00110101#8, 0b00000101#8] = .ok (.shr 5, []) := rfl

/-- `EQ Ra Rb` = `01000000 00000aaa 00000bbb`. -/
theorem test_decode_eqReg : decode [0b01000000#8, 0b00000100#8, 0b00000111#8] = .ok (.eqReg 4 7, []) := rfl

/-- `EQ Ra NUMc` = `01000001 00000aaa cccccccc`. -/
theorem test_decode_eqConst : decode [0b01000001#8, 0b00000100#8, 0b10100101#8] = .ok (.eqConst 4 0xA5#8, []) := rfl

/-- `LT Ra Rb` = `01000010 00000aaa 00000bbb`. -/
theorem test_decode_ltReg : decode [0b01000010#8, 0b00000100#8, 0b00000111#8] = .ok (.ltReg 4 7, []) := rfl

/-- `LT Ra NUMc` = `01000011 00000aaa cccccccc`. -/
theorem test_decode_ltConst : decode [0b01000011#8, 0b00000100#8, 0b10100101#8] = .ok (.ltConst 4 0xA5#8, []) := rfl

/-- `GT Ra Rb` = `01000100 00000aaa 00000bbb`. -/
theorem test_decode_gtReg : decode [0b01000100#8, 0b00000100#8, 0b00000111#8] = .ok (.gtReg 4 7, []) := rfl

/-- `GT Ra NUMc` = `01000101 00000aaa cccccccc`. -/
theorem test_decode_gtConst : decode [0b01000101#8, 0b00000100#8, 0b10100101#8] = .ok (.gtConst 4 0xA5#8, []) := rfl

/-- `SETC` = `01000110`. -/
theorem test_decode_setc : decode [0b01000110#8] = .ok (.setc, []) := rfl

/-- `CLRC` = `01000111`. -/
theorem test_decode_clrc : decode [0b01000111#8] = .ok (.clrc, []) := rfl

/-- `JMP t` = `01010000 tttttttt`. -/
theorem test_decode_jmp : decode [0b01010000#8, 0b10011101#8] = .ok (.jmp 0x9D#8, []) := rfl

/-- `JMP Rr` = `01010001 00000rrr`. -/
theorem test_decode_jmpReg : decode [0b01010001#8, 0b00000110#8] = .ok (.jmpReg 6, []) := rfl

/-- `JC t` = `01010010 tttttttt`. -/
theorem test_decode_jc : decode [0b01010010#8, 0b10011101#8] = .ok (.jc 0x9D#8, []) := rfl

/-- `JNC t` = `01010011 tttttttt`. -/
theorem test_decode_jnc : decode [0b01010011#8, 0b10011101#8] = .ok (.jnc 0x9D#8, []) := rfl

/-- `CALL t` = `01010100 tttttttt`. -/
theorem test_decode_call : decode [0b01010100#8, 0b10011101#8] = .ok (.call 0x9D#8, []) := rfl

/-- `RET` = `01010101`. -/
theorem test_decode_ret : decode [0b01010101#8] = .ok (.ret, []) := rfl

/-- `PRINT Rr` = `01100000 00000rrr`. -/
theorem test_decode_print : decode [0b01100000#8, 0b00000110#8] = .ok (.print 6, []) := rfl

/-- `BANK NUMc` = `01100001 cccccccc`. -/
theorem test_decode_bank : decode [0b01100001#8, 0b10100101#8] = .ok (.bank 0xA5#8, []) := rfl

/-- `PALETTE NUMc` = `01100010 cccccccc`. -/
theorem test_decode_palette : decode [0b01100010#8, 0b10100101#8] = .ok (.palette 0xA5#8, []) := rfl

/-- The table's numbering: bit 0 of the word is the least significant bit of the first byte. -/
theorem test_decode_table_word : decodeTableWord 24 0x050210 = some (.movRegReg 2 5) := by decide

/-- Operand bytes the table gives no bits are 0. -/
theorem test_decode_table_word_short : decodeTableWord 8 0x10 = some (.movRegReg 0 0) := by decide

/-- An unbound byte, a rejected first and a rejected second operand, a missing operand: each by name. -/
theorem test_decode_rejects : decode [0xFF#8] = .error (.unboundOpcode 0xFF#8) ∧
    decode [0x10#8, 9#8, 1#8] = .error (.operandRejected 0x10#8 9#8 .register) ∧
    decode [0x10#8, 2#8, 9#8] = .error (.operandRejected 0x10#8 9#8 .register) ∧
    decode [0x15#8, 0x80#8] = .error (.operandRejected 0x15#8 0x80#8 .registerPair) ∧
    decode [0x10#8, 2#8] = .error (.missingOperand 0x10#8) := ⟨rfl, rfl, rfl, rfl, rfl⟩

/-! ## One step of every instruction, from 95_test_vectors.md -/

/-- The reset state with pc and some registers set. -/
def given (p : Byte) (x : List (Reg × Byte)) : State :=
  { x.foldl (fun s r => { s with regs := s.regs.set r.1.val r.2 r.1.isLt }) State.reset with pc := p }

/-- Whether the one step that executes the instruction `w` (numbered as the table numbers it) at `s`
answers a state with the property. -/
def stepGives (s : State) (w : Nat) (p : State → Bool) : Bool :=
  match step (s.withFetchWord 24 w) with
  | .next t => p t
  | .fault _ => false
  | .refused _ => false

/-- SY-1. -/
theorem test_step_nop :
    stepGives (given 5#8 []) 0x00 (fun t =>
      t.carry == false && t.pc == 6#8 &&
      t.trace == [.instructionParseBegun 0#8 5#8,
        .instructionExecuted 0#8,
        .programCounterChanged 6#8]) = true := by
  decide

/-- DM-1. -/
theorem test_step_movRegReg :
    stepGives (given 0#8 [(2, 7#8)]) 0x050210 (fun t =>
      t.readReg 5 == 7#8 && t.carry == false && t.pc == 3#8 &&
      t.trace == [.parameterParsed .register 5#8 2#8,
        .registerChanged 5 7#8,
        .instructionExecuted 16#8,
        .programCounterChanged 3#8]) = true := by
  decide

/-- DM-3. -/
theorem test_step_movConstReg :
    stepGives (given 0#8 []) 0x07FF11 (fun t =>
      t.readReg 7 == 255#8 && t.carry == false && t.pc == 3#8 &&
      t.trace == [.parameterParsed .register 7#8 2#8,
        .registerChanged 7 255#8,
        .instructionExecuted 17#8,
        .programCounterChanged 3#8]) = true := by
  decide

/-- DM-5. -/
theorem test_step_movMemReg :
    stepGives (given 16#8 []) 0x011012 (fun t =>
      t.readReg 1 == 18#8 && t.carry == false && t.pc == 19#8 &&
      t.trace == [.parameterParsed .register 1#8 18#8,
        .registerChanged 1 18#8,
        .instructionExecuted 18#8,
        .programCounterChanged 19#8]) = true := by
  decide

/-- DM-6. -/
theorem test_step_movRegMem :
    stepGives (given 0#8 [(3, 65#8)]) 0x100313 (fun t =>
      t.memRead 16#8 == 65#8 && t.carry == false && t.pc == 3#8 &&
      t.trace == [.parameterParsed .memoryAddress 16#8 2#8,
        .memoryChanged 16#8 65#8,
        .instructionExecuted 19#8,
        .programCounterChanged 3#8]) = true := by
  decide

/-- DM-8. -/
theorem test_step_movConstMem :
    stepGives (given 16#8 []) 0x120714 (fun t =>
      t.memRead 18#8 == 7#8 && t.carry == false && t.pc == 19#8 &&
      t.trace == [.parameterParsed .memoryAddress 18#8 18#8,
        .memoryChanged 18#8 7#8,
        .instructionExecuted 20#8,
        .programCounterChanged 19#8]) = true := by
  decide

/-- DM-9. -/
theorem test_step_movIndReg :
    stepGives { given 0#8 [(1, 200#8)] with memory := [(200, 9#8)] } 0x1115 (fun t =>
      t.readReg 1 == 9#8 && t.carry == false && t.pc == 2#8 &&
      t.trace == [.parameterParsed .registerPair 17#8 1#8,
        .registerChanged 1 9#8,
        .instructionExecuted 21#8,
        .programCounterChanged 2#8]) = true := by
  decide

/-- DM-10. -/
theorem test_step_movRegInd :
    stepGives (given 0#8 [(0, 5#8), (2, 100#8)]) 0x0216 (fun t =>
      t.memRead 100#8 == 5#8 && t.carry == false && t.pc == 2#8 &&
      t.trace == [.parameterParsed .registerPair 2#8 1#8,
        .memoryChanged 100#8 5#8,
        .instructionExecuted 22#8,
        .programCounterChanged 2#8]) = true := by
  decide

/-- DM-15. -/
theorem test_step_vmovMemReg :
    stepGives { given 0#8 [] with videoMemory := [(3, 2#8)] } 0x040318 (fun t =>
      t.readReg 4 == 2#8 && t.carry == false && t.pc == 3#8 &&
      t.trace == [.parameterParsed .register 4#8 2#8,
        .registerChanged 4 2#8,
        .instructionExecuted 24#8,
        .programCounterChanged 3#8]) = true := by
  decide

/-- DM-16. -/
theorem test_step_vmovRegMem :
    stepGives (given 0#8 [(0, 7#8)]) 0xFF0019 (fun t =>
      t.vidRead 255#8 == 7#8 && t.carry == false && t.pc == 3#8 &&
      t.trace == [.parameterParsed .memoryAddress 255#8 2#8,
        .instructionExecuted 25#8,
        .programCounterChanged 3#8]) = true := by
  decide

/-- DM-17. -/
theorem test_step_vmovConstMem :
    stepGives (given 0#8 []) 0x00011A (fun t =>
      t.vidRead 0#8 == 1#8 && t.carry == false && t.pc == 3#8 &&
      t.trace == [.parameterParsed .memoryAddress 0#8 2#8,
        .instructionExecuted 26#8,
        .programCounterChanged 3#8]) = true := by
  decide

/-- DM-18. -/
theorem test_step_vmovIndReg :
    stepGives { given 0#8 [(5, 10#8)] with videoMemory := [(10, 3#8)] } 0x561B (fun t =>
      t.readReg 6 == 3#8 && t.carry == false && t.pc == 2#8 &&
      t.trace == [.parameterParsed .registerPair 86#8 1#8,
        .registerChanged 6 3#8,
        .instructionExecuted 27#8,
        .programCounterChanged 2#8]) = true := by
  decide

/-- DM-19. -/
theorem test_step_vmovRegInd :
    stepGives (given 0#8 [(7, 1#8), (0, 64#8)]) 0x701C (fun t =>
      t.vidRead 64#8 == 1#8 && t.carry == false && t.pc == 2#8 &&
      t.trace == [.parameterParsed .registerPair 112#8 1#8,
        .instructionExecuted 28#8,
        .programCounterChanged 2#8]) = true := by
  decide

/-- AR-1. -/
theorem test_step_addReg :
    stepGives (given 0#8 [(1, 200#8), (2, 100#8)]) 0x020120 (fun t =>
      t.readReg 2 == 44#8 && t.carry == true && t.pc == 3#8) = true := by
  decide

/-- AR-7. -/
theorem test_step_addReg_2 :
    stepGives { given 0#8 [(0, 1#8), (1, 1#8)] with carry := true } 0x010020 (fun t =>
      t.readReg 1 == 2#8 && t.carry == false && t.pc == 3#8) = true := by
  decide

/-- AR-8. -/
theorem test_step_addConst :
    stepGives (given 0#8 [(0, 255#8)]) 0x000121 (fun t =>
      t.readReg 0 == 0#8 && t.carry == true && t.pc == 3#8) = true := by
  decide

/-- AR-10. -/
theorem test_step_subReg :
    stepGives (given 0#8 [(1, 5#8), (2, 3#8)]) 0x020122 (fun t =>
      t.readReg 2 == 254#8 && t.carry == true && t.pc == 3#8) = true := by
  decide

/-- AR-13. -/
theorem test_step_subReg_2 :
    stepGives { given 0#8 [(2, 77#8)] with carry := true } 0x020222 (fun t =>
      t.readReg 2 == 0#8 && t.carry == false && t.pc == 3#8) = true := by
  decide

/-- AR-17. -/
theorem test_step_subConst :
    stepGives (given 0#8 [(0, 0#8)]) 0x000123 (fun t =>
      t.readReg 0 == 255#8 && t.carry == true && t.pc == 3#8) = true := by
  decide

/-- AR-18. -/
theorem test_step_mulReg :
    stepGives (given 0#8 [(1, 16#8), (2, 17#8)]) 0x020124 (fun t =>
      t.readReg 2 == 16#8 && t.carry == true && t.pc == 3#8) = true := by
  decide

/-- AR-19. -/
theorem test_step_mulReg_2 :
    stepGives (given 0#8 [(1, 255#8), (2, 255#8)]) 0x020124 (fun t =>
      t.readReg 2 == 1#8 && t.carry == true && t.pc == 3#8) = true := by
  decide

/-- AR-23. -/
theorem test_step_divReg :
    stepGives { given 0#8 [(1, 4#8), (2, 19#8)] with carry := true } 0x020125 (fun t =>
      t.readReg 2 == 4#8 && t.carry == true && t.pc == 3#8) = true := by
  decide

/-- AR-29. -/
theorem test_step_modReg :
    stepGives { given 0#8 [(1, 4#8), (2, 19#8)] with carry := true } 0x020126 (fun t =>
      t.readReg 2 == 3#8 && t.carry == true && t.pc == 3#8) = true := by
  decide

/-- AR-33. -/
theorem test_step_inc :
    stepGives (given 0#8 [(3, 255#8)]) 0x0327 (fun t =>
      t.readReg 3 == 0#8 && t.carry == true && t.pc == 2#8) = true := by
  decide

/-- AR-35. -/
theorem test_step_inc_2 :
    stepGives (given 0#8 [(3, 254#8)]) 0x0327 (fun t =>
      t.readReg 3 == 255#8 && t.carry == false && t.pc == 2#8) = true := by
  decide

/-- AR-36. -/
theorem test_step_dec :
    stepGives (given 0#8 [(3, 0#8)]) 0x0328 (fun t =>
      t.readReg 3 == 255#8 && t.carry == true && t.pc == 2#8) = true := by
  decide

/-- AR-37. -/
theorem test_step_dec_2 :
    stepGives { given 0#8 [(3, 1#8)] with carry := true } 0x0328 (fun t =>
      t.readReg 3 == 0#8 && t.carry == false && t.pc == 2#8) = true := by
  decide

/-- LG-1. -/
theorem test_step_andReg :
    stepGives { given 0#8 [(1, 15#8), (2, 60#8)] with carry := true } 0x020130 (fun t =>
      t.readReg 2 == 12#8 && t.carry == true && t.pc == 3#8) = true := by
  decide

/-- LG-4. -/
theorem test_step_orReg :
    stepGives (given 0#8 [(1, 15#8), (2, 60#8)]) 0x020131 (fun t =>
      t.readReg 2 == 63#8 && t.carry == false && t.pc == 3#8) = true := by
  decide

/-- LG-6. -/
theorem test_step_xorReg :
    stepGives (given 0#8 [(1, 15#8), (2, 60#8)]) 0x020132 (fun t =>
      t.readReg 2 == 51#8 && t.carry == false && t.pc == 3#8) = true := by
  decide

/-- LG-10. -/
theorem test_step_notReg :
    stepGives { given 0#8 [(4, 255#8)] with carry := true } 0x0433 (fun t =>
      t.readReg 4 == 0#8 && t.carry == true && t.pc == 2#8) = true := by
  decide

/-- LG-11. -/
theorem test_step_shl :
    stepGives (given 0#8 [(0, 193#8)]) 0x0034 (fun t =>
      t.readReg 0 == 130#8 && t.carry == true && t.pc == 2#8) = true := by
  decide

/-- LG-13. -/
theorem test_step_shl_2 :
    stepGives { given 0#8 [(0, 1#8)] with carry := true } 0x0034 (fun t =>
      t.readReg 0 == 2#8 && t.carry == false && t.pc == 2#8) = true := by
  decide

/-- LG-15. -/
theorem test_step_shr :
    stepGives (given 0#8 [(0, 193#8)]) 0x0035 (fun t =>
      t.readReg 0 == 96#8 && t.carry == true && t.pc == 2#8) = true := by
  decide

/-- LG-17. -/
theorem test_step_shr_2 :
    stepGives { given 0#8 [(0, 128#8)] with carry := true } 0x0035 (fun t =>
      t.readReg 0 == 64#8 && t.carry == false && t.pc == 2#8) = true := by
  decide

/-- CC-2. -/
theorem test_step_eqReg :
    stepGives { given 0#8 [(0, 5#8), (1, 6#8)] with carry := true } 0x010040 (fun t =>
      t.carry == false && t.pc == 3#8) = true := by
  decide

/-- CC-4. -/
theorem test_step_eqConst :
    stepGives (given 0#8 [(2, 10#8)]) 0x0A0241 (fun t =>
      t.carry == true && t.pc == 3#8) = true := by
  decide

/-- CC-6. -/
theorem test_step_ltReg :
    stepGives (given 0#8 [(0, 3#8), (1, 200#8)]) 0x010042 (fun t =>
      t.carry == true && t.pc == 3#8) = true := by
  decide

/-- CC-9. -/
theorem test_step_ltReg_2 :
    stepGives (given 0#8 [(0, 255#8), (1, 0#8)]) 0x010042 (fun t =>
      t.carry == false && t.pc == 3#8) = true := by
  decide

/-- CC-10. -/
theorem test_step_ltConst :
    stepGives (given 0#8 [(0, 5#8)]) 0x050043 (fun t =>
      t.carry == false && t.pc == 3#8) = true := by
  decide

/-- CC-11. -/
theorem test_step_ltConst_2 :
    stepGives (given 0#8 [(0, 4#8)]) 0x050043 (fun t =>
      t.carry == true && t.pc == 3#8) = true := by
  decide

/-- CC-14. -/
theorem test_step_gtReg :
    stepGives (given 0#8 [(0, 200#8), (1, 3#8)]) 0x010044 (fun t =>
      t.carry == true && t.pc == 3#8) = true := by
  decide

/-- CC-16. -/
theorem test_step_gtConst :
    stepGives (given 0#8 [(0, 255#8)]) 0x7F0045 (fun t =>
      t.carry == true && t.pc == 3#8) = true := by
  decide

/-- CC-17. -/
theorem test_step_gtConst_2 :
    stepGives { given 0#8 [(0, 255#8)] with carry := true } 0xFF0045 (fun t =>
      t.carry == false && t.pc == 3#8) = true := by
  decide

/-- CC-18. -/
theorem test_step_setc :
    stepGives (given 0#8 []) 0x46 (fun t =>
      t.carry == true && t.pc == 1#8 &&
      t.trace == [.instructionParseBegun 70#8 0#8,
        .instructionExecuted 70#8,
        .programCounterChanged 1#8]) = true := by
  decide

/-- CC-19. -/
theorem test_step_clrc :
    stepGives { given 0#8 [] with carry := true } 0x47 (fun t =>
      t.carry == false && t.pc == 1#8 &&
      t.trace == [.instructionParseBegun 71#8 0#8,
        .instructionExecuted 71#8,
        .programCounterChanged 1#8]) = true := by
  decide

/-- CT-1. -/
theorem test_step_jmp :
    stepGives (given 16#8 []) 0x4050 (fun t =>
      t.carry == false && t.pc == 64#8 &&
      t.trace == [.parameterParsed .memoryAddress 64#8 17#8,
        .programCounterChanged 64#8,
        .instructionExecuted 80#8]) = true := by
  decide

/-- CT-2. -/
theorem test_step_jmpReg :
    stepGives (given 0#8 [(6, 64#8)]) 0x0651 (fun t =>
      t.carry == false && t.pc == 64#8 &&
      t.trace == [.parameterParsed .register 6#8 1#8,
        .programCounterChanged 64#8,
        .instructionExecuted 81#8]) = true := by
  decide

/-- CT-4. -/
theorem test_step_jc :
    stepGives { given 16#8 [] with carry := true } 0x3052 (fun t =>
      t.carry == true && t.pc == 48#8 &&
      t.trace == [.parameterParsed .memoryAddress 48#8 17#8,
        .programCounterChanged 48#8,
        .instructionExecuted 82#8]) = true := by
  decide

/-- CT-5. -/
theorem test_step_jc_2 :
    stepGives (given 16#8 []) 0x3052 (fun t =>
      t.carry == false && t.pc == 18#8 &&
      t.trace == [.parameterParsed .memoryAddress 48#8 17#8,
        .instructionExecuted 82#8,
        .programCounterChanged 18#8]) = true := by
  decide

/-- CT-6. -/
theorem test_step_jnc :
    stepGives (given 16#8 []) 0x3053 (fun t =>
      t.carry == false && t.pc == 48#8 &&
      t.trace == [.parameterParsed .memoryAddress 48#8 17#8,
        .programCounterChanged 48#8,
        .instructionExecuted 83#8]) = true := by
  decide

/-- CT-7. -/
theorem test_step_jnc_2 :
    stepGives { given 16#8 [] with carry := true } 0x3053 (fun t =>
      t.carry == true && t.pc == 18#8 &&
      t.trace == [.parameterParsed .memoryAddress 48#8 17#8,
        .instructionExecuted 83#8,
        .programCounterChanged 18#8]) = true := by
  decide

/-- CT-9. -/
theorem test_step_call :
    stepGives (given 254#8 []) 0x1054 (fun t =>
      t.carry == false && t.callStack == [0#8] && t.pc == 16#8 &&
      t.trace == [.parameterParsed .memoryAddress 16#8 255#8,
        .programCounterChanged 16#8,
        .instructionExecuted 84#8]) = true := by
  decide

/-- CT-13. -/
theorem test_step_call_2 :
    stepGives { given 48#8 [] with callStack := List.replicate 16 2#8 } 0x0054 (fun t =>
      t.carry == false && t.callStack == List.replicate 16 2#8 && t.pc == 50#8 &&
      t.trace == [.parameterParsed .memoryAddress 0#8 49#8,
        .error (.callStackOverflow 84#8 48#8 16),
        .instructionExecuted 84#8,
        .programCounterChanged 50#8]) = true := by
  decide

/-- CT-11. -/
theorem test_step_ret :
    stepGives { given 32#8 [] with callStack := [5#8, 18#8] } 0x55 (fun t =>
      t.carry == false && t.callStack == [5#8] && t.pc == 18#8 &&
      t.trace == [.instructionParseBegun 85#8 32#8,
        .programCounterChanged 18#8,
        .instructionExecuted 85#8]) = true := by
  decide

/-- CT-12. -/
theorem test_step_ret_2 :
    stepGives (given 0#8 []) 0x55 (fun t =>
      t.carry == false && t.callStack == [] && t.pc == 0#8 &&
      t.trace == [.instructionParseBegun 85#8 0#8,
        .error (.callStackUnderflow 85#8 0#8),
        .instructionExecuted 85#8]) = true := by
  decide

/-- SY-2. -/
theorem test_step_print :
    stepGives (given 0#8 [(1, 73#8)]) 0x0160 (fun t =>
      t.carry == false && t.pc == 2#8 &&
      t.trace == [.parameterParsed .register 1#8 1#8,
        .printRequested "73",
        .instructionExecuted 96#8,
        .programCounterChanged 2#8]) = true := by
  decide

/-- SY-4. -/
theorem test_step_print_2 :
    stepGives (given 0#8 [(1, 255#8)]) 0x0160 (fun t =>
      t.pc == 2#8 && t.trace == [.parameterParsed .register 1#8 1#8, .printRequested "255",
        .instructionExecuted 96#8, .programCounterChanged 2#8]) = true := by
  decide

/-- SY-7. -/
theorem test_step_bank :
    stepGives (given 0#8 []) 0xFF61 (fun t =>
      t.carry == false && t.bankSelector == 255#8 && t.pc == 2#8 &&
      t.trace == [.parameterParsed .constant 255#8 1#8,
        .instructionExecuted 97#8,
        .programCounterChanged 2#8]) = true := by
  decide

/-- SY-8. -/
theorem test_step_palette :
    stepGives (given 0#8 []) 0x0362 (fun t =>
      t.carry == false && t.colorPaletteId == 3#8 && t.pc == 2#8 &&
      t.trace == [.parameterParsed .constant 3#8 1#8,
        .instructionExecuted 98#8,
        .programCounterChanged 2#8]) = true := by
  decide

/-- AR-40: the divisor is 0. -/
theorem test_step_divReg_by_zero :
    stepGives { given 0#8 [(2, 19#8)] with carry := true } 0x020125 (fun t =>
      t.readReg 2 == 19#8 && t.carry == true && t.pc == 3#8 &&
      t.trace == [.parameterParsed .register 2#8 2#8, .error (.divideByZero 0x25#8 0#8),
        .instructionExecuted 0x25#8, .programCounterChanged 3#8]) = true := by
  decide

/-- AR-41: 0 % 0. -/
theorem test_step_modReg_by_zero :
    stepGives (given 0#8 []) 0x020126 (fun t =>
      t.readReg 2 == 0#8 && t.carry == false && t.pc == 3#8 &&
      t.trace == [.parameterParsed .register 2#8 2#8, .error (.divideByZero 0x26#8 0#8),
        .instructionExecuted 0x26#8, .programCounterChanged 3#8]) = true := by
  decide

/-- DM-13: a pair byte with bit 7 set is rejected when it is collected. -/
theorem test_step_operand_error :
    stepGives (given 0#8 []) 0x8015 (fun t =>
      t.phase == .idle && t.pc == 2#8 &&
      t.trace == [.error (.operandError 0x15#8 0x80#8 .registerPair 1#8),
        .programCounterChanged 2#8]) = true := by
  decide

/-- L1-1: an unbound byte at 0xFF, and the wrap of pc. -/
theorem test_step_unbound_byte :
    stepGives (given 0xFF#8 []) 0x01 (fun t =>
      t.pc == 0#8 && t.trace == [.invalidByteParsed 0x01#8 0xFF#8, .programCounterChanged 0#8]) =
        true := by
  decide

/-- DE-7: the first cycle after power-on reads 0 as a NOP. -/
theorem test_first_cycle : (match step State.reset with
    | .next t => t.pc == 1#8 && t.trace == [.instructionParseBegun 0#8 0#8, .instructionExecuted 0#8,
        .programCounterChanged 1#8]
    | _ => false) = true := by
  decide

/-! ## The assembler -/

/-- 30_encoding.md rule R99. -/
theorem test_assemble_scenario_A :
    Assembler.assemble "MOV NUM0 R0\nMOV NUM73 R1\n".toList =
      .ok [0x11#8, 0x00#8, 0x00#8, 0x11#8, 0x49#8, 0x01#8] := rfl

/-- 30_encoding.md rules R90 to R93, R96: blanks, a comment, cases, a label before its declaration. -/
theorem test_assemble_forms :
    Assembler.assemble "  ; c\n\n jc\t:end\nmov  num0xfF r3\n:end\nMOV [R1] R2".toList =
      .ok [0x52#8, 0x05#8, 0x11#8, 0xFF#8, 0x03#8, 0x15#8, 0x12#8] := rfl

/-- 30_encoding.md rules R92 to R94, R96: each failure is named, with its line. -/
theorem test_assemble_errors :
    Assembler.assemble "NOP\nINC R9".toList = .error ⟨.registerOutOfRange, 2⟩ ∧
    Assembler.assemble "BANK NUM256".toList = .error ⟨.literalOutOfRange, 1⟩ ∧
    Assembler.assemble "HALT".toList = .error ⟨.invalidOperandCombination, 1⟩ ∧
    Assembler.assemble "INC NUM1".toList = .error ⟨.invalidOperandCombination, 1⟩ ∧
    Assembler.assemble "NOP ; no".toList = .error ⟨.malformedToken, 1⟩ ∧
    Assembler.assemble ":a\n:a".toList = .error ⟨.duplicateLabel, 2⟩ ∧
    Assembler.assemble "JMP :b".toList = .error ⟨.labelNotFound, 1⟩ :=
  ⟨rfl, rfl, rfl, rfl, rfl, rfl, rfl⟩

/-! ## Host ports -/

/-- DE-6: byte 256 of a load is ignored, zero bytes are not listed, the one event is Reset. -/
theorem test_load_ignores_byte_256 :
    (State.reset.load (List.replicate 256 0#8 ++ [0xFF#8])).memory = [] ∧
      (State.reset.load (List.replicate 256 0#8 ++ [0xFF#8])).trace = [.reset] := by
  decide +kernel

/-! ## Witnesses: the hypotheses of every obligation that has some, met together -/

/-- An Idle state with these bytes in memory from `p` on and pc at `p`. -/
def holding (p : Byte) (bytes : List Byte) : State := { State.reset.placeBytes p bytes with pc := p }

/-- The same memory, with an instruction of this opcode pending and `pc` after its collected bytes. -/
def collecting (p : Byte) (bytes : List Byte) (opcode : Byte) (taken : List Byte) : State :=
  (State.reset.placeBytes p bytes).decoderAt p opcode taken

/-- A state after a number of cycles, for the witnesses that name one. -/
def next (s : State) : State :=
  match step s with
  | .next t => t
  | _ => s

theorem witness_EncodeDecodeAgree : decode [0x27#8, 3#8, 0xFF#8] = .ok (.inc 3, [0xFF#8]) := rfl

theorem witness_DecodeAcceptsExactlyWellFormedBytes_unbound : lookup 0x17#8 = none := rfl

theorem witness_DecodeAcceptsExactlyWellFormedBytes_rejected :
    (lookup 0x10#8).map Descriptor.kinds = some [.register, .register] ∧
      ([.register, .register] : List OperandKind)[[7#8].length]? = some .register ∧
      operandsAccepted [.register] [7#8] = true ∧ accepts .register 8#8 = false := by decide

theorem witness_DecodeAcceptsExactlyWellFormedBytes_missing :
    (lookup 0x10#8).map Descriptor.n = some 2 ∧ [7#8].length < 2 ∧
      operandsAccepted [.register] [7#8] = true := by decide

theorem witness_DuplicateOpcodesAreRefused :
    (0x62#8, (⟨"PALETTE", "PALETTE NUMc", [.constant], [.constant]⟩ : Descriptor)) ∈ rom := by decide

theorem witness_StepRunsDecodedInstruction_idle :
    (holding 255#8 [0x46#8]).pending = none ∧
      decode [(holding 255#8 [0x46#8]).memRead (holding 255#8 [0x46#8]).pc] = .ok (.setc, []) :=
  ⟨rfl, rfl⟩

theorem witness_StepRunsDecodedInstruction_collecting :
    (collecting 254#8 [0x10#8, 2#8, 5#8] 0x10#8 [2#8]).pending = some ⟨0x10#8, [2#8], 254#8⟩ ∧
      decode (0x10#8 :: ([2#8] ++ [(collecting 254#8 [0x10#8, 2#8, 5#8] 0x10#8 [2#8]).memRead
        (collecting 254#8 [0x10#8, 2#8, 5#8] 0x10#8 [2#8]).pc])) = .ok (.movRegReg 2 5, []) ∧
      (lookup 0x10#8).map Descriptor.kinds = some [.register, .register] ∧
      ([.register, .register] : List OperandKind)[[2#8].length]? = some .register :=
  ⟨rfl, rfl, rfl, rfl⟩

/-- The instruction straddles the top of memory (20_memory.md rule R48). -/
theorem witness_InstructionRunsOneCyclePerByte :
    (holding 255#8 [0x11#8, 7#8, 2#8]).pending = none ∧
      holdsBytes (holding 255#8 [0x11#8, 7#8, 2#8]) (holding 255#8 [0x11#8, 7#8, 2#8]).pc
        (encode (.movConstReg 7#8 2)) :=
  ⟨rfl, rfl, rfl, rfl, trivial⟩

theorem witness_UnboundByteIsSkipped :
    (holding 255#8 [0x01#8]).pending = none ∧
      lookup ((holding 255#8 [0x01#8]).memRead (holding 255#8 [0x01#8]).pc) = none := ⟨rfl, rfl⟩

theorem witness_OpcodeBeginsInstruction_none :
    (holding 255#8 [0x46#8]).pending = none ∧
      (lookup ((holding 255#8 [0x46#8]).memRead 255#8)).map Descriptor.n = some 0 := ⟨rfl, rfl⟩

theorem witness_OpcodeBeginsInstruction_some :
    (holding 255#8 [0x27#8]).pending = none ∧
      (lookup ((holding 255#8 [0x27#8]).memRead 255#8)).map Descriptor.n = some 1 := ⟨rfl, rfl⟩

theorem witness_AcceptedOperandIsCollected_last :
    (collecting 255#8 [0x27#8, 7#8] 0x27#8 []).pending = some ⟨0x27#8, [], 255#8⟩ ∧
      (⟨0x27#8, [], 255#8⟩ : Pending).ok = true ∧
      (lookup 0x27#8).map Descriptor.kinds = some [.register] ∧
      accepts .register ((collecting 255#8 [0x27#8, 7#8] 0x27#8 []).memRead 0#8) = true := by decide

theorem witness_AcceptedOperandIsCollected_more :
    (collecting 255#8 [0x10#8, 7#8] 0x10#8 []).pending = some ⟨0x10#8, [], 255#8⟩ ∧
      (⟨0x10#8, [], 255#8⟩ : Pending).ok = true ∧
      (lookup 0x10#8).map Descriptor.kinds = some [.register, .register] ∧
      accepts .register ((collecting 255#8 [0x10#8, 7#8] 0x10#8 []).memRead 0#8) = true := by decide

theorem witness_RejectedOperandAbandonsInstruction :
    (collecting 255#8 [0x27#8, 8#8] 0x27#8 []).pending = some ⟨0x27#8, [], 255#8⟩ ∧
      (lookup 0x27#8).map Descriptor.kinds = some [.register] ∧
      accepts .register ((collecting 255#8 [0x27#8, 8#8] 0x27#8 []).memRead 0#8) = false := by decide

theorem witness_ResetMeetsInvariant : (Config.mk 1).valid = true := by decide

/-- Meets the invariant while Collecting, with a full call stack. -/
theorem witness_CycleAnswersAndKeepsInvariant :
    Inv { collecting 255#8 [0x54#8, 7#8] 0x54#8 [] with callStack := List.replicate 16 2#8 } :=
  ⟨by decide, by decide, by decide, by decide, by decide, by decide⟩

theorem witness_HostSessionKeepsInvariant : Inv State.reset :=
  ⟨by decide, by decide, by decide, by decide, by decide, by decide⟩

theorem witness_EventOrderOfACycle_executes :
    Inv (holding 0#8 [0x46#8]) ∧ step (holding 0#8 [0x46#8]) = .next (next (holding 0#8 [0x46#8])) ∧
      (holding 0#8 [0x46#8]).executing = some .setc :=
  ⟨⟨by decide, by decide, by decide, by decide, by decide, by decide⟩, rfl, rfl⟩

theorem witness_EventOrderOfACycle_decodes :
    Inv (holding 0#8 [0x27#8]) ∧ step (holding 0#8 [0x27#8]) = .next (next (holding 0#8 [0x27#8])) ∧
      (holding 0#8 [0x27#8]).executing = none :=
  ⟨⟨by decide, by decide, by decide, by decide, by decide, by decide⟩, rfl, rfl⟩

theorem witness_AtMostOneErrorPerCycle :
    Inv (holding 0#8 [0x55#8]) ∧ step (holding 0#8 [0x55#8]) = .next (next (holding 0#8 [0x55#8])) :=
  ⟨⟨by decide, by decide, by decide, by decide, by decide, by decide⟩, rfl⟩

theorem witness_TraceIsNeverReadBack :
    step (holding 0#8 [0x46#8]) = .next (next (holding 0#8 [0x46#8])) := rfl

theorem witness_BankAndPaletteHaveNoEffect :
    step (collecting 0#8 [0x61#8, 9#8] 0x61#8 []) =
      .next (next (collecting 0#8 [0x61#8, 9#8] 0x61#8 [])) ∧
    (collecting 0#8 [0x61#8, 9#8] 0x61#8 []).executing = some (.bank 9#8) := ⟨rfl, rfl⟩

/-- Every kind of state does change in some cycle: each clause's hypothesis is met. -/
theorem witness_OnlyNamedInstructionsWriteState :
    (next (collecting 0#8 [0x27#8, 7#8] 0x27#8 [])).readReg 7 ≠ State.reset.readReg 7 ∧
    (next (holding 0#8 [0x46#8])).carry ≠ State.reset.carry ∧
    (next (collecting 0#8 [0x61#8, 9#8] 0x61#8 [])).bankSelector ≠ State.reset.bankSelector ∧
    (next (collecting 0#8 [0x62#8, 9#8] 0x62#8 [])).colorPaletteId ≠ State.reset.colorPaletteId ∧
    (next (collecting 0#8 [0x54#8, 9#8] 0x54#8 [])).callStack ≠ State.reset.callStack ∧
    (next (collecting 0#8 [0x14#8, 9#8, 255#8] 0x14#8 [9#8])).memRead 255#8 ≠
      (collecting 0#8 [0x14#8, 9#8, 255#8] 0x14#8 [9#8]).memRead 255#8 ∧
    (next (collecting 0#8 [0x1A#8, 9#8, 255#8] 0x1A#8 [9#8])).vidRead 255#8 ≠
      State.reset.vidRead 255#8 := by
  decide

theorem witness_PcAdvancesUnlessTransfer :
    step (holding 255#8 [0x46#8]) = .next (next (holding 255#8 [0x46#8])) := rfl

theorem witness_ErrorsLeaveNoPartialResult_ret :
    step (holding 0#8 [0x55#8]) = .next (next (holding 0#8 [0x55#8])) ∧
      (holding 0#8 [0x55#8]).executing = some .ret ∧
      (next (holding 0#8 [0x55#8])).trace = [] ++ [.instructionParseBegun 0x55#8 0#8,
        .error (.callStackUnderflow 0x55#8 0#8), .instructionExecuted 0x55#8] ∧
      noError (next (holding 0#8 [0x55#8])).trace = false := ⟨rfl, rfl, rfl, rfl⟩

theorem witness_ErrorsLeaveNoPartialResult_other :
    step (holding 0#8 [0x17#8]) = .next (next (holding 0#8 [0x17#8])) ∧
      (holding 0#8 [0x17#8]).executing ≠ some .ret ∧
      (next (holding 0#8 [0x17#8])).trace = [] ++ [.invalidByteParsed 0x17#8 0#8,
        .programCounterChanged 1#8] ∧
      noError (next (holding 0#8 [0x17#8])).trace = false := ⟨rfl, by decide, rfl, rfl⟩

theorem witness_MovStoresByte : (holding 255#8 [0x14#8, 255#8, 255#8]).memory.wf = true := by decide

theorem witness_VmovStoresByte :
    ({ State.reset with videoMemory := [(0, 1#8), (255, 7#8)] } : State).videoMemory.wf = true := by
  decide

theorem witness_DivAndModDivideOrRaise :
    (given 0#8 [(1, 255#8)]).readReg 1 ≠ 0#8 ∧ (given 0#8 [(1, 255#8)]).readReg 0 = 0#8 ∧
      (collecting 0#8 [] 0x25#8 [1#8]).pending = some ⟨0x25#8, [1#8], 0#8⟩ := by decide

theorem witness_ConditionalJumpsTestCarry :
    ({ State.reset with carry := true } : State).carry = true ∧ State.reset.carry = false := by decide

theorem witness_CallPushesReturnAddress :
    ({ State.reset with callStack := List.replicate 15 2#8 } : State).callStack.length <
      State.reset.config.callStackDepth := by decide

theorem witness_CallAtMaximumDepthRaises :
    ({ State.reset with callStack := List.replicate 16 2#8 } : State).callStack.length =
      State.reset.config.callStackDepth := by decide

theorem witness_RetTakesTheLastEntry :
    ({ State.reset with callStack := [5#8, 18#8] } : State).callStack = [5#8] ++ [18#8] := by decide

theorem witness_RetOnEmptyStackRepeatsTheError :
    (holding 255#8 [0x55#8]).pending = none ∧ (holding 255#8 [0x55#8]).suppressed = false ∧
      (holding 255#8 [0x55#8]).memRead (holding 255#8 [0x55#8]).pc = 0x55#8 ∧
      (holding 255#8 [0x55#8]).callStack = [] := by decide

theorem witness_CallThenRetReturns :
    State.reset.callStack.length < State.reset.config.callStackDepth ∧
      (next (collecting 0#8 [0x54#8, 9#8] 0x54#8 [])).callStack = [2#8] := by decide

theorem witness_NopOnlyAdvances :
    (holding 255#8 [0x00#8]).pending = none ∧
      (holding 255#8 [0x00#8]).memRead (holding 255#8 [0x00#8]).pc = 0x00#8 := by decide

/-- A text of one digit and one of more than one. -/
theorem witness_PrintPublishesDecimal :
    (decimal 0#8).toList = ['0'] ∧ (decimal 255#8).toList = ['2', '5', '5'] := ⟨rfl, rfl⟩

/-- Accepted at the top of the range, refused just above it (DE-5). -/
theorem witness_SetRegisterPort :
    (State.reset.setRegister 7 255).accepted = true ∧ (State.reset.setRegister 8 1).accepted = false ∧
    (State.reset.setRegister 0 256).accepted = false := by decide

/-- Accepted at the top of the range, refused just above it (DE-5). -/
theorem witness_SetMemoryPort : State.reset.memory.wf = true ∧
    (State.reset.setMemory 255 255).accepted = true ∧ (State.reset.setMemory 256 0).accepted = false ∧
    (State.reset.setMemory 0 256).accepted = false := by decide

/-- Accepted at the top of the range, refused just above it (DE-5). -/
theorem witness_SetProgramCounterPort :
    (State.reset.setProgramCounter 255).accepted = true ∧
    (State.reset.setProgramCounter 256).accepted = false := by decide

theorem witness_HostEditsKeepLatchedBytes :
    (collecting 0#8 [0x11#8, 5#8, 0#8] 0x11#8 [5#8]).pending = some ⟨0x11#8, [5#8], 0#8⟩ ∧
      BitVec.ofNat 8 1 ≠ (collecting 0#8 [0x11#8, 5#8, 0#8] 0x11#8 [5#8]).pc := by decide

/-- L1-7, shortened: a cycle and an edit between the two loads. -/
theorem witness_LoadIsIdempotent :
    session [.cycle, .setMemory 200 9] (State.reset.load [0x46#8]) =
      .next ((next (State.reset.load [0x46#8])).setMemory 200 9).state := rfl

theorem witness_GetStateShowsEverything :
    Inv State.reset ∧ Inv (State.reset.load []) ∧ State.reset.config = (State.reset.load []).config ∧
      State.reset.getState = (State.reset.load []).getState ∧
      State.reset.trace ≠ (State.reset.load []).trace :=
  ⟨⟨by decide, by decide, by decide, by decide, by decide, by decide⟩,
    ⟨by decide, by decide, by decide, by decide, by decide, by decide⟩, rfl, rfl, by decide⟩

theorem witness_ReadAfterWrite :
    Memory.wf [(0, 1#8), (255, 7#8)] = true ∧ Memory.wf [(255, 7#8)] = true := by decide

/-- The self-loop stands at the top of memory. -/
theorem witness_SelfLoopAlternatesForever :
    (holding 255#8 [0x50#8, 255#8]).atSelfLoop = true ∧
      (holding 255#8 [0x50#8, 255#8]).suppressed = false := by decide

/-- Both clauses at the boundary: 256 bytes fit, 257 do not. -/
theorem witness_AssemblerEncodesPrograms :
    ((List.replicate 256 Instr.nop).flatMap encode).length = 256 ∧
      ((List.replicate 257 Instr.nop).flatMap encode).length = 257 := by decide +kernel

/-- A source with a label, as the two label statements read it: a NUM and a bracket reference before
the declaration of `_a7`, a target reference after it, and lines to follow. -/
def labelledSource (tail : List Assembler.SourceLine) : List Assembler.SourceLine :=
  [.instruction (.movConstMem 0#8 0#8) ⟨some ['_', 'a', '7'], some ['_', 'a', '7']⟩,
    .instruction .ret ⟨some ['x'], some ['x']⟩, .label ['_', 'a', '7'], .instruction .nop {},
    .instruction (.jmp 0#8) ⟨none, some ['_', 'a', '7']⟩] ++ tail

/-- An offset for the one label of `labelledSource []`. -/
theorem witness_LabelStandsForItsOffset :
    (∀ l ∈ labelledSource [], l.namesWellFormed = true) ∧
    Assembler.sourceSize (labelledSource []) ≤ 256 ∧
    ((labelledSource []).flatMap Assembler.SourceLine.declares).Nodup ∧
    (∀ before name after, labelledSource [] = before ++ .label name :: after →
      4 = Assembler.sourceSize before) ∧
    (∀ name ∈ (labelledSource []).flatMap Assembler.SourceLine.refersTo,
      name ∈ (labelledSource []).flatMap Assembler.SourceLine.declares ∧ 4 < 256) := by
  refine ⟨by decide, by decide, by decide, fun before name after h => ?_, by decide⟩
  match before, h with
  | [_, _], h => cases h; rfl
  | [_, _, _, _, _], h => cases h
  | _ :: _ :: _ :: _ :: _ :: _ :: _, h => cases h

/-- The text of `labelledSource []` and its bytes, written out from 30_encoding.md rules R80 to R96. -/
theorem test_labelledSource :
    Assembler.sourceText (labelledSource []) =
      "MOV NUM:_a7 [:_a7]\nRET\n:_a7\nNOP\nJMP :_a7\n".toList ∧
    Assembler.assemble (Assembler.sourceText (labelledSource [])) =
      .ok [0x14#8, 4#8, 4#8, 0x55#8, 0x00#8, 0x50#8, 4#8] :=
  ⟨rfl, rfl⟩

/-- `JC :b`, as many NOPs as are asked for, and the declaration of `b` at the end. -/
def forwardSource (nops : Nat) : List Assembler.SourceLine :=
  .instruction (.jc 0#8) ⟨none, some ['b']⟩ :: List.replicate nops (.instruction .nop {}) ++
    [.label ['b']]

/-- The last offset a byte holds, referred to from the first line. -/
theorem test_labelAtOffset255 :
    Assembler.assemble (Assembler.sourceText (forwardSource 253 ++ [.instruction .nop {}])) =
      .ok (0x52#8 :: 255#8 :: List.replicate 254 0x00#8) := by decide +kernel

/-- A label declared twice. -/
theorem witness_LabelErrorsGiveNoOutput_duplicate :
    (∀ l ∈ labelledSource [.label ['_', 'a', '7']], l.namesWellFormed = true) ∧
    Assembler.sourceSize (labelledSource [.label ['_', 'a', '7']]) ≤ 256 ∧
    ¬ ((labelledSource [.label ['_', 'a', '7']]).flatMap Assembler.SourceLine.declares).Nodup := by
  decide

/-- A label declared nowhere, in a source of fewer than 256 bytes. -/
theorem witness_LabelErrorsGiveNoOutput_notFound :
    (∀ l ∈ (forwardSource 253).dropLast, l.namesWellFormed = true) ∧
    Assembler.sourceSize (forwardSource 253).dropLast = 255 ∧
    ((forwardSource 253).dropLast.flatMap Assembler.SourceLine.declares).Nodup ∧
    ['b'] ∈ (forwardSource 253).dropLast.flatMap Assembler.SourceLine.refersTo ∧
    ['b'] ∉ (forwardSource 253).dropLast.flatMap Assembler.SourceLine.declares := by decide +kernel

/-- A label at offset 256, referred to. -/
theorem witness_LabelErrorsGiveNoOutput_range :
    (∀ l ∈ forwardSource 254, l.namesWellFormed = true) ∧
    Assembler.sourceSize (forwardSource 254) = 256 ∧
    ((forwardSource 254).flatMap Assembler.SourceLine.declares).Nodup ∧
    forwardSource 254 = (forwardSource 254).dropLast ++ .label ['b'] :: [] ∧
    Assembler.sourceSize (forwardSource 254).dropLast = 256 ∧
    ['b'] ∈ (forwardSource 254).flatMap Assembler.SourceLine.refersTo := by decide +kernel

end Sys2Proof.Tests
end

section
/-! The host ports, the invariant along host sessions, and what a cycle reads and writes: the
statements about 10_state.md. -/

namespace Sys2Proof.Machine

/-! ## The editing ports, one equation per answer (10_state.md rules R38 to R40) -/

theorem setRegister_of_lt {i v : Nat} (hi : i < 8) (hv : v < 256) (s : State) :
    s.setRegister i v = ⟨true, s.writeReg ⟨i, hi⟩ (BitVec.ofNat 8 v)⟩ := dif_pos ⟨hi, hv⟩

theorem setRegister_of_le {i v : Nat} (h : 8 ≤ i ∨ 256 ≤ v) (s : State) :
    s.setRegister i v = ⟨false, s⟩ := dif_neg (by omega)

theorem setMemory_of_lt {a v : Nat} (ha : a < 256) (hv : v < 256) (s : State) :
    s.setMemory a v = ⟨true, s.memWrite (BitVec.ofNat 8 a) (BitVec.ofNat 8 v)⟩ := if_pos ⟨ha, hv⟩

theorem setMemory_of_le {a v : Nat} (h : 256 ≤ a ∨ 256 ≤ v) (s : State) :
    s.setMemory a v = ⟨false, s⟩ := if_neg (by omega)

theorem setProgramCounter_of_lt {v : Nat} (hv : v < 256) (s : State) :
    s.setProgramCounter v = ⟨true, s.writePc (BitVec.ofNat 8 v)⟩ := if_pos hv

theorem setProgramCounter_of_le {v : Nat} (hv : 256 ≤ v) (s : State) :
    s.setProgramCounter v = ⟨false, s⟩ := if_neg (by omega)

theorem frame_writePc (s : State) (t : Byte) : FrameExcept { control := true } s (s.writePc t) :=
  { FrameExcept.refl _ s with pc := fun h => nomatch h }

/-- Settles O48, by the two answers of `set_register`. -/
theorem setRegisterPort : Obligations.SetRegisterPort := by
  intro s i v
  refine ⟨fun hi hv => ?_, fun h => setRegister_of_le h s⟩
  rw [setRegister_of_lt hi hv]
  have h := registerBecomes_writeReg s ⟨i, hi⟩ (BitVec.ofNat 8 v)
  rw [BitVec.toNat_ofNat, Nat.mod_eq_of_lt hv] at h
  exact ⟨rfl, h⟩

/-- Settles O49, by the two answers of `set_memory`; an accepted one is a store. -/
theorem setMemoryPort : Obligations.SetMemoryPort := by
  intro s a v hm
  refine ⟨fun ha hv => ?_, fun h => setMemory_of_le h s⟩
  rw [setMemory_of_lt ha hv]
  exact ⟨rfl, storeMain_spec hm (fun _ => BitVec.ofNat 8 a) (fun _ => BitVec.ofNat 8 v)⟩

/-- Settles O50, by the two answers of `set_program_counter`. -/
theorem setProgramCounterPort : Obligations.SetProgramCounterPort := by
  intro s v
  refine ⟨fun hv => ?_, fun hv => setProgramCounter_of_le hv s⟩
  rw [setProgramCounter_of_lt hv]
  exact ⟨rfl, Nat.mod_eq_of_lt hv, rfl, rfl, frame_writePc s _⟩

/-! ## What a snapshot determines (10_state.md rule R41) -/

theorem Pending.info_injective : Function.Injective Pending.info := by
  rintro ⟨_, _, _⟩ ⟨_, _, _⟩ h
  obtain ⟨rfl, -, -, rfl, rfl⟩ := PendingInfo.mk.inj h
  rfl

/-- Two canonical memories that list the same 256 bytes are equal. -/
theorem Memory.eq_of_bytes_eq {m m' : Memory} (h : m.wf = true) (h' : m'.wf = true)
    (hb : (List.range 256).map (fun a => m.read a) = (List.range 256).map (fun a => m'.read a)) :
    m = m' :=
  Memory.ext_of_wfFrom h h' fun a ha => List.map_inj_left.1 hb a (List.mem_range.2 ha)

/-- Settles O54: every field but the trace is a snapshot item, the configuration, or fixed by the
invariant. -/
theorem getStateShowsEverything : Obligations.GetStateShowsEverything := by
  intro s t hs ht hconfig hsnap
  have hmemory := Memory.eq_of_bytes_eq hs.memory ht.memory (congrArg Snapshot.memory hsnap)
  have hvideo := Memory.eq_of_bytes_eq hs.video ht.video (congrArg Snapshot.videoMemory hsnap)
  have hregs := Vector.toList_inj.1 (congrArg Snapshot.regs hsnap)
  have hpending := Option.map_injective Pending.info_injective (congrArg Snapshot.pending hsnap)
  have hflag := hs.flag.trans ht.flag.symm
  have hpc : s.pc = t.pc := congrArg Snapshot.pc hsnap
  have hcarry : s.carry = t.carry := congrArg Snapshot.carry hsnap
  have hstack : s.callStack = t.callStack := congrArg Snapshot.callStack hsnap
  have hbank : s.bankSelector = t.bankSelector := congrArg Snapshot.bankSelector hsnap
  have hpalette : s.colorPaletteId = t.colorPaletteId := congrArg Snapshot.colorPaletteId hsnap
  rw [hconfig, hregs, hpc, hcarry, hbank, hpalette, hstack, hpending, hflag, hmemory, hvideo]

/-! ## The invariant along host sessions -/

section
variable {s : State} (hs : Inv s)
include hs

/-- A cycle that executes nothing keeps the invariant when the decoder state it leaves is one of
40_decode_execute.md rule R124. -/
theorem Inv.endCycle {q : Option Pending} (hq : ∀ p, q = some p → p.ok = true) (flag : Bool)
    (events : List Event) :
    Inv { s with suppressed := flag, pending := q, trace := events : State }.endCycle := by
  refine ⟨?_, ?_, ?_, ?_, ?_, State.endCycle_suppressed _⟩
  · simpa using hs.config
  · simpa using hs.memory
  · simpa using hs.video
  · simpa using hs.stack
  · cases q with
    | none => simp [State.decoderOk]
    | some p => simpa [State.decoderOk] using hq p rfl

/-- A cycle that executes an instruction keeps the invariant and the configuration. -/
theorem Inv.afterExecute {i : Instr} {q : Option Pending} {flag : Bool} {events sem : List Event}
    {t : State} (he : Effect i { s with suppressed := flag, pending := q, trace := events } t sem)
    (opcode : Byte) :
    Inv (afterExecute opcode t) ∧ (afterExecute opcode t).config = s.config := by
  have hconfig : t.config = s.config := he.frame.config
  refine ⟨⟨?_, he.memory hs.memory, he.video hs.video, ?_, rfl, rfl⟩, hconfig⟩
  · exact hconfig ▸ hs.config
  · exact hconfig ▸ he.stack hs.stack

/-- From every state of the invariant a cycle answers a next state of the invariant, with the same
configuration. -/
theorem Inv.step : ∃ t, step s = .next t ∧ Inv t ∧ t.config = s.config := by
  cases hp : s.pending with
  | none =>
    rcases step_idle hp with ⟨_, e⟩ | ⟨d, hl, hn, e⟩ | ⟨_, _, _, _, _, _, _, _, _, he, e⟩
    · exact ⟨_, e, hs.endCycle (q := s.pending) (by simp [hp]) _ _, by simp⟩
    · refine ⟨_, e, hs.endCycle (fun p h => ?_) _ _, by simp⟩
      cases h
      simpa [Pending.ok, Pending.desc, hl, operandsAccepted] using hn
    · exact ⟨_, e, hs.afterExecute he _⟩
  | some p =>
    have hok : p.ok = true := by simpa [State.decoderOk, hp] using hs.decoder
    obtain ⟨d, k, hl, hk, hacc, ⟨_, e⟩ | ⟨ha, hn, e⟩ | ⟨_, _, _, _, _, _, _, _, he, e⟩⟩ :=
      step_collecting hp hok
    · exact ⟨_, e, hs.endCycle (q := none) nofun _ _, by simp⟩
    · refine ⟨_, e, hs.endCycle (fun p' h => ?_) _ _, by simp⟩
      cases h
      simpa [Pending.ok, Pending.desc, hl, hn] using operandsAccepted_snoc hacc hk ha
    · exact ⟨_, e, hs.afterExecute he _⟩

theorem Inv.load (bytes : List Byte) : Inv (s.load bytes) :=
  ⟨hs.config, Memory.wf_ofBytes bytes, rfl, Nat.zero_le _, rfl, rfl⟩

theorem Inv.setRegister (i v : Nat) :
    Inv (s.setRegister i v).state ∧ (s.setRegister i v).state.config = s.config := by
  by_cases h : i < 8 ∧ v < 256
  · rw [setRegister_of_lt h.1 h.2]
    exact ⟨{ hs with }, rfl⟩
  · rw [setRegister_of_le (by omega)]
    exact ⟨hs, rfl⟩

theorem Inv.setMemory (a v : Nat) :
    Inv (s.setMemory a v).state ∧ (s.setMemory a v).state.config = s.config := by
  by_cases h : a < 256 ∧ v < 256
  · rw [setMemory_of_lt h.1 h.2]
    exact ⟨{ hs with memory := Memory.wf_write hs.memory _ _ }, rfl⟩
  · rw [setMemory_of_le (by omega)]
    exact ⟨hs, rfl⟩

theorem Inv.setProgramCounter (v : Nat) :
    Inv (s.setProgramCounter v).state ∧ (s.setProgramCounter v).state.config = s.config := by
  by_cases h : v < 256
  · rw [setProgramCounter_of_lt h]
    exact ⟨{ hs with }, rfl⟩
  · rw [setProgramCounter_of_le (by omega)]
    exact ⟨hs, rfl⟩

/-- Every host call answers a state of the invariant, with the same configuration. -/
theorem Inv.hostCall (c : HostCall) :
    ∃ t, hostCall c s = .next t ∧ Inv t ∧ t.config = s.config := by
  cases c with
  | cycle => exact hs.step
  | load bytes => exact ⟨_, rfl, hs.load bytes, rfl⟩
  | getState => exact ⟨_, rfl, hs, rfl⟩
  | setRegister i v => exact ⟨_, rfl, hs.setRegister i v⟩
  | setMemory a v => exact ⟨_, rfl, hs.setMemory a v⟩
  | setProgramCounter v => exact ⟨_, rfl, hs.setProgramCounter v⟩

end

theorem session_cons_of_next {c : HostCall} {s t : State} (h : hostCall c s = .next t)
    (cs : List HostCall) : session (c :: cs) s = session cs t := by
  simp [session, h]

/-- Settles O17, by induction on the calls: each keeps the invariant and the configuration. -/
theorem hostSessionKeepsInvariant : Obligations.HostSessionKeepsInvariant := by
  intro calls
  induction calls with
  | nil => exact fun s hs => ⟨s, rfl, hs, rfl⟩
  | cons c cs ih =>
    intro s hs
    obtain ⟨t, hcall, ht, hct⟩ := hs.hostCall c
    obtain ⟨u, hsession, hu, hcu⟩ := ih t ht
    exact ⟨u, (session_cons_of_next hcall cs).trans hsession, hu, hcu.trans hct⟩

/-! ## What one cycle can write -/

@[simp] theorem State.readReg_endCycle (s : State) (r : Reg) :
    s.endCycle.readReg r = s.readReg r := by simp [State.readReg]

@[simp] theorem State.memRead_endCycle (s : State) (a : Byte) :
    s.endCycle.memRead a = s.memRead a := by simp [State.memRead]

@[simp] theorem State.vidRead_endCycle (s : State) (a : Byte) :
    s.endCycle.vidRead a = s.vidRead a := by simp [State.vidRead]

/-- Settles O22: a cycle that executes nothing writes none of these, and one that executes `i`
writes only what the frame of `i` names. -/
theorem onlyNamedInstructionsWriteState : Obligations.OnlyNamedInstructionsWriteState := by
  intro s t h
  obtain ⟨_, _, _, ⟨_, _, rfl⟩ | ⟨i, u, _, hx, _, _, he, rfl⟩⟩ := step_next h
  · exact ⟨fun r hne => absurd (State.readReg_endCycle _ r) hne,
      absurd (State.endCycle_carry _), absurd (State.endCycle_bankSelector _),
      absurd (State.endCycle_colorPaletteId _), absurd (State.endCycle_callStack _),
      fun a hne => absurd (State.memRead_endCycle _ a) hne,
      fun a hne => absurd (State.vidRead_endCycle _ a) hne⟩
  · have hf := he.frame
    refine ⟨fun r hne => ⟨i, hx, ?_⟩, fun hne => ⟨i, hx, ?_⟩, fun hne => ⟨i, hx, ?_⟩,
      fun hne => ⟨i, hx, ?_⟩, fun hne => ⟨i, hx, ?_⟩, fun a hne => ⟨i, hx, ?_⟩,
      fun a hne => ⟨i, hx, ?_⟩⟩
    · exact not_not.1 (mt (hf.regs r) hne)
    · exact Bool.not_eq_false _ ▸ mt hf.carry hne
    · exact Bool.not_eq_false _ ▸ mt hf.bank hne
    · exact Bool.not_eq_false _ ▸ mt hf.palette hne
    · exact Bool.not_eq_false _ ▸ mt hf.stack hne
    · exact not_not.1 (mt (hf.main a) hne)
    · exact not_not.1 (mt (hf.video a) hne)

/-! ## Noninterference: the trace and the two control registers are never read

One simulation shows both: two states that agree in everything else make the same cycle and publish
the same events. -/

/-- The states agree in all but the control registers and the trace, and have published the same
events since their traces were `past` and `past'`. -/
structure Alike (past past' : List Event) (s s' : State) : Prop where
  config : s'.config = s.config
  regs : s'.regs = s.regs
  pc : s'.pc = s.pc
  carry : s'.carry = s.carry
  callStack : s'.callStack = s.callStack
  pending : s'.pending = s.pending
  suppressed : s'.suppressed = s.suppressed
  memory : s'.memory = s.memory
  videoMemory : s'.videoMemory = s.videoMemory
  trace : ∃ events, s.trace = past ++ events ∧ s'.trace = past' ++ events

/-- If `r` is a next state, so is `r'`, and the two states are alike. -/
def NextsAlike (past past' : List Event) (r r' : Result) : Prop :=
  ∀ t, r = .next t → ∃ t', r' = .next t' ∧ Alike past past' t t'

section
variable {past past' : List Event} {s s' : State} (h : Alike past past' s s')
include h

/-! ### Reads agree -/

theorem Alike.readReg (r : Reg) : s'.readReg r = s.readReg r := by simp [State.readReg, h.regs]

theorem Alike.memRead (a : Byte) : s'.memRead a = s.memRead a := by simp [State.memRead, h.memory]

theorem Alike.vidRead (a : Byte) : s'.vidRead a = s.vidRead a := by
  simp [State.vidRead, h.videoMemory]

theorem Alike.memRead_indirect (r : Reg) :
    s'.memRead (s'.readReg r) = s.memRead (s.readReg r) := by rw [h.readReg, h.memRead]

theorem Alike.vidRead_indirect (r : Reg) :
    s'.vidRead (s'.readReg r) = s.vidRead (s.readReg r) := by rw [h.readReg, h.vidRead]

theorem Alike.start : s'.start = s.start := by simp [State.start, h.pending, h.pc]

theorem Alike.fetch : s'.fetch = s.fetch := by simp [State.fetch, h.memRead, h.pc]

/-! ### The operations keep the states alike -/

theorem Alike.next : NextsAlike past past' (.next s) (.next s') := by
  rintro _ ⟨⟩
  exact ⟨s', rfl, h⟩

theorem Alike.withPending {q q' : Option Pending} (hq : q' = q) :
    Alike past past' { s with pending := q } { s' with pending := q' } :=
  { h with pending := hq }

theorem Alike.withSuppressed (flag : Bool) :
    Alike past past' { s with suppressed := flag } { s' with suppressed := flag } :=
  { h with suppressed := rfl }

theorem Alike.withCallStack (stack : List Byte) :
    Alike past past' { s with callStack := stack } { s' with callStack := stack } :=
  { h with callStack := rfl }

theorem Alike.emit {e e' : Event} (he : e' = e) : Alike past past' (s.emit e) (s'.emit e') := by
  subst he
  obtain ⟨events, ht, ht'⟩ := h.trace
  exact { h with trace := ⟨events ++ [e'], by simp [ht], by simp [ht']⟩ }

theorem Alike.writeReg (r : Reg) {v v' : Byte} (hv : v' = v) :
    Alike past past' (s.writeReg r v) (s'.writeReg r v') := by
  subst hv
  exact { h.emit (e := .registerChanged r v') rfl with regs := by simp [h.regs] }

theorem Alike.setCarry {b b' : Bool} (hb : b' = b) :
    Alike past past' (s.setCarry b) (s'.setCarry b') :=
  { h with carry := hb }

theorem Alike.setBank (v : Byte) : Alike past past' (s.setBank v) (s'.setBank v) := { h with }

theorem Alike.setPalette (v : Byte) : Alike past past' (s.setPalette v) (s'.setPalette v) :=
  { h with }

theorem Alike.memWrite {a a' v v' : Byte} (ha : a' = a) (hv : v' = v) :
    Alike past past' (s.memWrite a v) (s'.memWrite a' v') := by
  subst ha hv
  exact { h.emit (e := .memoryChanged a' v') rfl with memory := by simp [h.memory] }

theorem Alike.vidWrite {a a' v v' : Byte} (ha : a' = a) (hv : v' = v) :
    Alike past past' (s.vidWrite a v) (s'.vidWrite a' v') := by
  subst ha hv
  exact { h with videoMemory := by simp [h.videoMemory] }

theorem Alike.writePc {t t' : Byte} (ht : t' = t) :
    Alike past past' (s.writePc t) (s'.writePc t') := by
  subst ht
  exact { h.emit (e := .programCounterChanged t') rfl with pc := rfl }

theorem Alike.transferTo {t t' : Byte} (ht : t' = t) :
    Alike past past' (s.transferTo t) (s'.transferTo t') :=
  (h.withSuppressed true).writePc ht

theorem Alike.print (r : Reg) :
    Alike past past' (s.emit (.printRequested (decimal (s.readReg r))))
      (s'.emit (.printRequested (decimal (s'.readReg r)))) :=
  h.emit (by rw [h.readReg])

/-! ### The shared meanings keep the states alike -/

theorem Alike.arithmetic (result : Byte → Byte → Byte) (flag : Byte → Byte → Bool) (rd : Reg)
    {value : State → Byte} (hv : value s' = value s) :
    Alike past past' (arithmetic result flag rd value s) (arithmetic result flag rd value s') :=
  (h.writeReg rd (by rw [h.readReg, hv])).setCarry (by rw [h.readReg, hv])

theorem Alike.unaryWithCarry (result : Byte → Byte) (flag : Byte → Bool) (rd : Reg) :
    Alike past past' (unaryWithCarry result flag rd s) (unaryWithCarry result flag rd s') :=
  (h.setCarry (by rw [h.readReg])).writeReg rd (by rw [h.readReg])

theorem Alike.bitwise (result : Byte → Byte → Byte) (rs rd : Reg) :
    Alike past past' (bitwise result rs rd s) (bitwise result rs rd s') :=
  h.writeReg rd (by rw [h.readReg, h.readReg])

theorem Alike.division (opcode : Byte) (result : Byte → Byte → Byte) (rs rd : Reg) :
    Alike past past' (division opcode result rs rd s) (division opcode result rs rd s') := by
  simp only [Machine.division, h.readReg, h.start]
  split
  · exact h.emit rfl
  · exact h.writeReg rd rfl

theorem Alike.compareOp (truth : Byte → Byte → Bool) (ra : Reg) {value : State → Byte}
    (hv : value s' = value s) :
    Alike past past' (compareOp truth ra value s) (compareOp truth ra value s') :=
  h.setCarry (by rw [h.readReg, hv])

theorem Alike.transferIf {taken taken' : Bool} (hb : taken' = taken) (t : Byte) :
    Alike past past' (transferIf taken t s) (transferIf taken' t s') := by
  subst hb
  cases taken'
  · exact h
  · exact h.transferTo rfl

theorem Alike.execCall (t : Byte) : NextsAlike past past' (execCall t s) (execCall t s') := by
  have hpush : returnAddress s' = returnAddress s := by simp [returnAddress, h.pc]
  rcases execCall_cases t s with ⟨hd, e⟩ | ⟨hd, e⟩ <;> rw [← h.config, ← h.callStack] at hd
  · obtain ⟨_, e'⟩ := (execCall_cases t s').resolve_right fun ⟨hd', _⟩ => absurd hd (by omega)
    rw [e, e', h.start, h.config]
    exact (h.emit rfl).next
  · obtain ⟨_, e'⟩ := (execCall_cases t s').resolve_left fun ⟨hd', _⟩ => absurd hd (by omega)
    rw [e, e', hpush, h.callStack]
    exact ((h.withCallStack _).transferTo rfl).next

theorem Alike.execRet : NextsAlike past past' (execRet s) (execRet s') := by
  have hstack := h.callStack
  rcases execRet_cases s with ⟨hs, e⟩ | ⟨below, v, hs, e⟩ <;>
    rcases execRet_cases s' with ⟨hs', e'⟩ | ⟨below', v', hs', e'⟩ <;> rw [hs, hs'] at hstack
  · rw [e, e', h.start]
    exact ((h.withSuppressed true).emit rfl).next
  · simp at hstack
  · simp at hstack
  · obtain ⟨hbelow, hv⟩ := List.append_inj' hstack rfl
    rw [e, e', hbelow]
    exact (((h.withSuppressed true).withCallStack below).writePc (List.cons.inj hv).1).next

/-- Every instruction takes alike states to alike states. -/
theorem Alike.exec (i : Instr) : NextsAlike past past' (exec i s) (exec i s') := by
  cases i with
  | nop => exact h.next
  | movRegReg rs rd => exact (h.writeReg rd (h.readReg rs)).next
  | movConstReg c rd => exact (h.writeReg rd rfl).next
  | movMemReg m rd => exact (h.writeReg rd (h.memRead m)).next
  | movRegMem rs m => exact (h.memWrite rfl (h.readReg rs)).next
  | movConstMem c m => exact (h.memWrite rfl rfl).next
  | movIndReg ra rd => exact (h.writeReg rd (h.memRead_indirect ra)).next
  | movRegInd rs ra => exact (h.memWrite (h.readReg ra) (h.readReg rs)).next
  | vmovMemReg m rd => exact (h.writeReg rd (h.vidRead m)).next
  | vmovRegMem rs m => exact (h.vidWrite rfl (h.readReg rs)).next
  | vmovConstMem c m => exact (h.vidWrite rfl rfl).next
  | vmovIndReg ra rd => exact (h.writeReg rd (h.vidRead_indirect ra)).next
  | vmovRegInd rs ra => exact (h.vidWrite (h.readReg ra) (h.readReg rs)).next
  | addReg rs rd => exact (h.arithmetic _ _ rd (h.readReg rs)).next
  | addConst c rd => exact (h.arithmetic _ _ rd rfl).next
  | subReg rs rd => exact (h.arithmetic _ _ rd (h.readReg rs)).next
  | subConst c rd => exact (h.arithmetic _ _ rd rfl).next
  | mulReg rs rd => exact (h.arithmetic _ _ rd (h.readReg rs)).next
  | divReg rs rd => exact (h.division _ _ rs rd).next
  | modReg rs rd => exact (h.division _ _ rs rd).next
  | inc rd => exact (h.unaryWithCarry _ _ rd).next
  | dec rd => exact (h.unaryWithCarry _ _ rd).next
  | andReg rs rd => exact (h.bitwise _ rs rd).next
  | orReg rs rd => exact (h.bitwise _ rs rd).next
  | xorReg rs rd => exact (h.bitwise _ rs rd).next
  | notReg rd => exact (h.writeReg rd (congrArg notResult (h.readReg rd))).next
  | shl rd => exact (h.unaryWithCarry _ _ rd).next
  | shr rd => exact (h.unaryWithCarry _ _ rd).next
  | eqReg ra rb => exact (h.compareOp _ ra (h.readReg rb)).next
  | eqConst ra c => exact (h.compareOp _ ra rfl).next
  | ltReg ra rb => exact (h.compareOp _ ra (h.readReg rb)).next
  | ltConst ra c => exact (h.compareOp _ ra rfl).next
  | gtReg ra rb => exact (h.compareOp _ ra (h.readReg rb)).next
  | gtConst ra c => exact (h.compareOp _ ra rfl).next
  | setc => exact (h.setCarry rfl).next
  | clrc => exact (h.setCarry rfl).next
  | jmp t => exact (h.transferTo rfl).next
  | jmpReg rr => exact (h.transferTo (h.readReg rr)).next
  | jc t => exact (h.transferIf h.carry t).next
  | jnc t => exact (h.transferIf (congrArg not h.carry) t).next
  | call t => exact h.execCall t
  | ret => exact h.execRet
  | print rr => exact (h.print rr).next
  | bank c => exact (h.setBank c).next
  | palette c => exact (h.setPalette c).next

/-! ### The cycle keeps the states alike -/

theorem Alike.endCycle : Alike past past' s.endCycle s'.endCycle := by
  simp only [State.endCycle, h.suppressed]
  split
  · exact h.withSuppressed false
  · exact h.writePc (by rw [h.pc])

theorem Alike.beginInstr (b : Byte) : Alike past past' (s.beginInstr b) (s'.beginInstr b) :=
  (h.withPending (by rw [h.pc])).emit (by rw [h.pc])

theorem Alike.collect (p : Pending) (k : OperandKind) (b : Byte) :
    Alike past past' (s.collect p k b) (s'.collect p k b) :=
  (h.withPending rfl).emit (by rw [h.pc])

theorem Alike.rejectOperand (p : Pending) (k : OperandKind) (b : Byte) :
    Alike past past' (s.rejectOperand p k b) (s'.rejectOperand p k b) :=
  (h.emit (by rw [h.pc])).withPending rfl

theorem Alike.finishInstr (opcode : Byte) :
    Alike past past' (s.finishInstr opcode) (s'.finishInstr opcode) :=
  ((h.emit rfl).withPending rfl).endCycle

theorem Alike.execute (p : Pending) : NextsAlike past past' (execute p s) (execute p s') := by
  unfold Machine.execute
  cases p.instr with
  | none => exact nofun
  | some i =>
    obtain ⟨t, _, e, _⟩ := exec_effect i s
    obtain ⟨t', e', ht⟩ := h.exec i t e
    simp only [e, e']
    exact (ht.finishInstr p.opcode).next

theorem Alike.cycleIdle (b : Byte) : NextsAlike past past' (cycleIdle b s) (cycleIdle b s') := by
  simp only [Machine.cycleIdle, h.pc]
  split
  · exact (h.emit rfl).endCycle.next
  · split
    · exact (h.beginInstr b).execute _
    · exact (h.beginInstr b).endCycle.next

theorem Alike.cycleCollecting (p : Pending) (b : Byte) :
    NextsAlike past past' (cycleCollecting p b s) (cycleCollecting p b s') := by
  unfold Machine.cycleCollecting
  split
  · exact nofun
  · split
    · split
      · exact (h.collect p _ b).execute _
      · exact (h.collect p _ b).endCycle.next
    · exact (h.rejectOperand p _ b).endCycle.next

/-- The simulation: a cycle takes alike states to alike states. -/
theorem Alike.step : NextsAlike past past' (step s) (step s') := by
  simp only [Machine.step, cycle, h.pending, h.fetch]
  have hb := h.withSuppressed false
  split
  · exact hb.cycleIdle _
  · exact hb.cycleCollecting _ _

/-! ### What is left to differ -/

/-- Of two alike states the second is the first with its own control registers and trace. -/
theorem Alike.eq_with : s' = { s with
    bankSelector := s'.bankSelector, colorPaletteId := s'.colorPaletteId, trace := s'.trace } := by
  obtain ⟨hconfig, hregs, hpc, hcarry, hstack, hpending, hflag, hmemory, hvideo, _⟩ := h
  rw [← hconfig, ← hregs, ← hpc, ← hcarry, ← hstack, ← hpending, ← hflag, ← hmemory, ← hvideo]

end

/-- `bank_selector` after a cycle that executes `executing` and started with the value `old`. -/
def bankAfter (executing : Option Instr) (old : Byte) : Byte :=
  match executing with
  | some (.bank c) => c
  | _ => old

/-- `color_palette_id` after a cycle that executes `executing` and started with the value `old`. -/
def paletteAfter (executing : Option Instr) (old : Byte) : Byte :=
  match executing with
  | some (.palette c) => c
  | _ => old

theorem writesBank_iff {i : Instr} : writesBank i = true ↔ ∃ c, i = .bank c := by
  cases i <;> simp [writesBank]

theorem bankAfter_of_ne {i : Instr} (hi : ¬ ∃ c, i = .bank c) (old : Byte) :
    bankAfter (some i) old = old := by
  unfold bankAfter
  split
  · next c e => exact absurd ⟨c, Option.some.inj e⟩ hi
  · rfl

theorem exec_bankSelector {i : Instr} {s t : State} (h : exec i s = .next t) :
    t.bankSelector = bankAfter (some i) s.bankSelector := by
  by_cases hi : ∃ c, i = .bank c
  · obtain ⟨c, rfl⟩ := hi
    cases h
    rfl
  · obtain ⟨u, _, e, he⟩ := exec_effect i s
    cases e.symm.trans h
    rw [bankAfter_of_ne hi]
    exact he.frame.bank (Bool.eq_false_iff.2 (mt writesBank_iff.1 hi))

/-- 10_state.md rule R27. -/
theorem step_bankSelector {s t : State} (h : step s = .next t) :
    t.bankSelector = bankAfter s.executing s.bankSelector := by
  obtain ⟨_, _, _, ⟨hx, _, rfl⟩ | ⟨i, u, _, hx, _, he, _, rfl⟩⟩ := step_next h <;> rw [hx]
  · exact State.endCycle_bankSelector _
  · exact (exec_bankSelector he :)

theorem writesPalette_iff {i : Instr} : writesPalette i = true ↔ ∃ c, i = .palette c := by
  cases i <;> simp [writesPalette]

theorem paletteAfter_of_ne {i : Instr} (hi : ¬ ∃ c, i = .palette c) (old : Byte) :
    paletteAfter (some i) old = old := by
  unfold paletteAfter
  split
  · next c e => exact absurd ⟨c, Option.some.inj e⟩ hi
  · rfl

theorem exec_colorPaletteId {i : Instr} {s t : State} (h : exec i s = .next t) :
    t.colorPaletteId = paletteAfter (some i) s.colorPaletteId := by
  by_cases hi : ∃ c, i = .palette c
  · obtain ⟨c, rfl⟩ := hi
    cases h
    rfl
  · obtain ⟨u, _, e, he⟩ := exec_effect i s
    cases e.symm.trans h
    rw [paletteAfter_of_ne hi]
    exact he.frame.palette (Bool.eq_false_iff.2 (mt writesPalette_iff.1 hi))

/-- 10_state.md rule R28. -/
theorem step_colorPaletteId {s t : State} (h : step s = .next t) :
    t.colorPaletteId = paletteAfter s.executing s.colorPaletteId := by
  obtain ⟨_, _, _, ⟨hx, _, rfl⟩ | ⟨i, u, _, hx, _, he, _, rfl⟩⟩ := step_next h <;> rw [hx]
  · exact State.endCycle_colorPaletteId _
  · exact (exec_colorPaletteId he :)

/-- Settles O20: the simulation between two traces; the control registers end as `step_bankSelector`
and `step_colorPaletteId` say, which read no trace. -/
theorem traceIsNeverReadBack : Obligations.TraceIsNeverReadBack := by
  intro s t other hs
  have h : Alike s.trace other s { s with trace := other } :=
    ⟨rfl, rfl, rfl, rfl, rfl, rfl, rfl, rfl, rfl, [], by simp, by simp⟩
  obtain ⟨t', hs', ht⟩ := h.step t hs
  obtain ⟨events, htrace, htrace'⟩ := ht.trace
  have hbank : t'.bankSelector = t.bankSelector :=
    (step_bankSelector hs').trans (step_bankSelector hs).symm
  have hpalette : t'.colorPaletteId = t.colorPaletteId :=
    (step_colorPaletteId hs').trans (step_colorPaletteId hs).symm
  refine ⟨events, htrace, hs'.trans (congrArg Host.Outcome.next ?_)⟩
  rw [ht.eq_with, hbank, hpalette, htrace']

/-- Settles O21: the simulation between two settings of the control registers, which end as
`step_bankSelector` and `step_colorPaletteId` say. -/
theorem bankAndPaletteHaveNoEffect : Obligations.BankAndPaletteHaveNoEffect := by
  intro s t bank palette hs
  have h : Alike s.trace s.trace s { s with bankSelector := bank, colorPaletteId := palette } :=
    ⟨rfl, rfl, rfl, rfl, rfl, rfl, rfl, rfl, rfl, [], by simp, by simp⟩
  obtain ⟨t', hs', ht⟩ := h.step t hs
  obtain ⟨events, htrace, htrace'⟩ := ht.trace
  refine hs'.trans (congrArg Host.Outcome.next ?_)
  rw [ht.eq_with, step_bankSelector hs', step_colorPaletteId hs', htrace', ← htrace]
  rfl

end Sys2Proof.Machine
end

section
/-! The two byte spaces under a write: the statement about 20_memory.md rule R45. -/

namespace Sys2Proof.Machine

theorem State.memRead_memWrite {s : State} (h : s.memory.wf = true) (a b v : Byte) :
    (s.memWrite a v).memRead b = if b = a then v else s.memRead b := by
  split
  · next hb => exact hb ▸ memRead_memWrite_same h b v
  · next hb => exact memRead_memWrite_other s hb v

theorem State.vidRead_vidWrite {s : State} (h : s.videoMemory.wf = true) (a b v : Byte) :
    (s.vidWrite a v).vidRead b = if b = a then v else s.vidRead b := by
  split
  · next hb => exact hb ▸ vidRead_vidWrite_same h b v
  · next hb => exact vidRead_vidWrite_other s hb v

/-- Settles O55, from read after write in each space and what each write leaves of the other. -/
theorem readAfterWrite : Obligations.ReadAfterWrite := by
  intro s a b v hmain hvideo
  refine ⟨State.memRead_memWrite hmain a b v, State.vidRead_memWrite s a v b, ?_,
    State.memWrite_trace s a v, State.vidRead_vidWrite hvideo a b v, State.memRead_vidWrite s a v b,
    ?_, State.vidWrite_trace s a v⟩
  · exact Memory.wf_write hmain a v
  · exact Memory.wf_write hvideo a v

end Sys2Proof.Machine
end

section
/-! The decoder, the encoder and the ROM: the statements about 30_encoding.md rules R71 to R83. -/

namespace Sys2Proof

/-! ## The ROM (30_encoding.md rules R76 to R78) -/

/-- No opcode is bound twice in the rows. -/
def OpcodesDistinct (rows : List (Byte × Descriptor)) : Prop := (rows.map Prod.fst).Nodup

theorem bindOpcode_of_mem {rows : List (Byte × Descriptor)} {opcode : Byte}
    (h : opcode ∈ rows.map Prod.fst) (d : Descriptor) :
    bindOpcode rows opcode d = .error (.duplicateOpcode opcode) :=
  if_pos (by simpa using h)

theorem bindOpcode_of_not_mem {rows : List (Byte × Descriptor)} {opcode : Byte}
    (h : opcode ∉ rows.map Prod.fst) (d : Descriptor) :
    bindOpcode rows opcode d = .ok (rows ++ [(opcode, d)]) :=
  if_neg (by simpa using h)

/-- Construction succeeds, with the rows as they are given, where no opcode repeats. -/
theorem constructRom_of_distinct {bound rows : List (Byte × Descriptor)}
    (h : OpcodesDistinct (bound ++ rows)) : constructRom bound rows = .ok (bound ++ rows) := by
  induction rows generalizing bound with
  | nil => simp [constructRom]
  | cons row rows ih =>
    have hnew : row.1 ∉ bound.map Prod.fst := by
      intro hm
      rw [OpcodesDistinct, List.map_append, List.nodup_append] at h
      exact h.2.2 _ hm row.1 (by simp) rfl
    rw [constructRom, bindOpcode_of_not_mem hnew]
    simpa using ih (bound := bound ++ [row]) (by simpa using h)

/-- Construction onto rows with distinct opcodes fails where the whole list repeats one. -/
theorem constructRom_of_not_distinct {bound rows : List (Byte × Descriptor)}
    (hbound : OpcodesDistinct bound) (h : ¬ OpcodesDistinct (bound ++ rows)) :
    ∃ e, constructRom bound rows = .error e := by
  induction rows generalizing bound with
  | nil => exact absurd (by simpa using hbound) h
  | cons row rows ih =>
    by_cases hm : row.1 ∈ bound.map Prod.fst
    · exact ⟨.duplicateOpcode row.1, by rw [constructRom, bindOpcode_of_mem hm]⟩
    · have hbound' : OpcodesDistinct (bound ++ [row]) := by
        rw [OpcodesDistinct, List.map_append]
        exact List.Nodup.append hbound (List.nodup_singleton _) (List.disjoint_singleton.2 hm)
      rw [constructRom, bindOpcode_of_not_mem hm]
      exact ih hbound' (by simpa using h)

theorem rom_distinct : OpcodesDistinct rom := by unfold OpcodesDistinct; decide

theorem lookup_eq_none_iff (b : Byte) : lookup b = none ↔ b ∉ rom.map Prod.fst := by
  simp only [lookup, Option.map_eq_none_iff, List.find?_eq_none, beq_iff_eq, List.mem_map,
    not_exists, not_and]

/-- Looking up a row's opcode gives that row: it is bound, and by no other row. -/
theorem lookup_of_mem_rom {row : Byte × Descriptor} (h : row ∈ rom) :
    lookup row.1 = some row.2 := by
  cases hl : lookup row.1 with
  | none => exact absurd (List.mem_map_of_mem h) ((lookup_eq_none_iff _).1 hl)
  | some d =>
    have : (row.1, d) = row := List.inj_on_of_nodup_map rom_distinct (mem_rom_of_lookup hl) h rfl
    rw [← this]

/-- Settles O7: construction fails exactly on a repeated opcode, and `rom` repeats none. -/
theorem duplicateOpcodesAreRefused : Obligations.DuplicateOpcodesAreRefused := by
  refine ⟨fun rows => ⟨?_, constructRom_of_not_distinct (bound := []) List.nodup_nil⟩,
    constructRom_of_distinct (bound := []) rom_distinct, rfl,
    fun row h => ⟨lookup_of_mem_rom h, n_le_two (lookup_of_mem_rom h)⟩⟩
  rintro ⟨e, he⟩ hnodup
  rw [constructRom_of_distinct (bound := []) hnodup] at he
  cases he

/-- Settles O6, by comparing the opcodes of the ROM with the listed ranges. -/
theorem unboundOpcodesAreTheListed : Obligations.UnboundOpcodesAreTheListed := by
  intro b
  rw [lookup_eq_none_iff]
  revert b
  decide

/-! ## Operand bytes (30_encoding.md rules R72, R73) -/

theorem accepts_register_iff (b : Byte) : accepts .register b = true ↔ b.toNat ≤ 7 :=
  decide_eq_true_iff

theorem accepts_registerPair_iff (b : Byte) :
    accepts .registerPair b = true ↔ b &&& 0x88#8 = 0#8 := beq_iff_eq

theorem pairFirst_val (b : Byte) : (pairFirst b).val = b.toNat / 16 % 8 := by
  simp [pairFirst, Nat.shiftRight_eq_div_pow]

theorem pairSecond_val (b : Byte) : (pairSecond b).val = b.toNat % 8 := by
  simp [pairSecond]

/-- Settles O5, kind by kind and field by field. -/
theorem operandBytesAccepted : Obligations.OperandBytesAccepted := fun b =>
  ⟨rfl, rfl, accepts_register_iff b, accepts_registerPair_iff b, pairFirst_val b, pairSecond_val b⟩

theorem accepts_kind_byte (o : Operand) : accepts o.kind o.byte = true :=
  (decodeOperand_some (decodeOperand_byte o)).2.2

theorem operandsAccepted_bytes (os : List Operand) :
    operandsAccepted (os.map Operand.kind) (os.map Operand.byte) = true := by
  induction os with
  | nil => rfl
  | cons o os ih => simp [operandsAccepted, accepts_kind_byte, ih]

/-- The first byte its kind rejects ends the operands, whatever follows it. -/
theorem decodeOperands_rejected (opcode : Byte) {ks : List OperandKind} {before : List Byte}
    {x : Byte} {after : List Byte} {k : OperandKind} (hk : ks[before.length]? = some k)
    (hb : operandsAccepted (ks.take before.length) before = true) (hx : accepts k x = false) :
    decodeOperands opcode ks (before ++ x :: after) = .error (.operandRejected opcode x k) := by
  induction before generalizing ks with
  | nil =>
    cases ks with
    | nil => cases hk
    | cons k' ks =>
      cases hk
      simp [decodeOperands, (decodeOperand_none_iff k x).2 hx]
  | cons b before ih =>
    cases ks with
    | nil => cases hk
    | cons k' ks =>
      simp only [List.length_cons, List.take_succ_cons, operandsAccepted, Bool.and_eq_true] at hb
      obtain ⟨o, ho⟩ := decodeOperand_of_accepts hb.1
      simp [decodeOperands, ho, ih (by simpa using hk) hb.2]

/-- Accepted bytes that end before the last kind leave an operand missing. -/
theorem decodeOperands_missing (opcode : Byte) {ks : List OperandKind} {bs : List Byte}
    (hlen : bs.length < ks.length) (hb : operandsAccepted (ks.take bs.length) bs = true) :
    decodeOperands opcode ks bs = .error (.missingOperand opcode) := by
  induction bs generalizing ks with
  | nil =>
    cases ks with
    | nil => cases hlen
    | cons k ks => rfl
  | cons b bs ih =>
    cases ks with
    | nil => cases hlen
    | cons k ks =>
      simp only [List.length_cons, List.take_succ_cons, operandsAccepted, Bool.and_eq_true] at hb
      obtain ⟨o, ho⟩ := decodeOperand_of_accepts hb.1
      simp [decodeOperands, ho, ih (by simpa using hlen) hb.2]

/-! ## The decoder (30_encoding.md rules R74, R77) -/

theorem decode_of_unbound {b : Byte} (h : lookup b = none) (bs : List Byte) :
    decode (b :: bs) = .error (.unboundOpcode b) := by
  simp [decode, h]

/-- Operand bytes that are refused are refused under the same name by the decoder. -/
theorem decode_of_operands_error {b : Byte} {d : Descriptor} (h : lookup b = some d)
    {bs : List Byte} {e : DecodeReject} (he : decodeOperands b d.kinds bs = .error e) :
    decode (b :: bs) = .error e := by
  simp [decode, h, he]

/-- Bytes that decode to `i` are its encoding and the bytes left over: `build` keeps the opcode and the
operands, and each operand keeps its byte. -/
theorem eq_encode_of_decode {bs : List Byte} {i : Instr} {rest : List Byte}
    (h : decode bs = .ok (i, rest)) : bs = encode i ++ rest := by
  unfold decode at h
  split at h
  · cases h
  · next b bs =>
    split at h
    · cases h
    · next d hd =>
      split at h
      · cases h
      · next ops rest' hops =>
        obtain ⟨hkinds, rfl⟩ := decodeOperands_ok hops
        obtain ⟨j, hj, hopcode, hoperands⟩ := build_of_kinds hd hkinds
        simp only [hj, Except.ok.injEq, Prod.mk.injEq] at h
        obtain ⟨rfl, rfl⟩ := h
        simp [encode, hopcode, hoperands]

/-- Settles O3, which is `eq_encode_of_decode`. -/
theorem encodeDecodeAgree : Obligations.EncodeDecodeAgree := fun _ _ _ => eq_encode_of_decode

theorem wellFormed_instr (i : Instr) : i.wellFormed = true := by
  obtain ⟨d, hd, hk, -⟩ := Laws.RomRow.all i
  simp [Instr.wellFormed, RawInstr.wellFormed, Instr.raw, hd, hk, operandsAccepted_bytes]

theorem decode_encode (i : Instr) (rest : List Byte) :
    decode (encode i ++ rest) = .ok (i, rest) := by
  obtain ⟨d, hd, hk, -⟩ := Laws.RomRow.all i
  have hb : build i.opcode i.operands = some i := Laws.BuildsBack.all i
  simp [encode, decode, hd, hk, decodeOperands_bytes, hb]

/-- Settles O2: the row of the instruction's opcode lists its operands' kinds, and the opcode and the
operands read back build it again. -/
theorem decodeEncodeAgree : Obligations.DecodeEncodeAgree := fun i rest =>
  ⟨wellFormed_instr i, decode_encode i rest⟩

/-- A raw instruction is well-formed exactly when it decodes with nothing left over: then its bytes
are an instruction's own (`eq_encode_of_decode`). -/
theorem wellFormed_iff_decode (r : RawInstr) :
    r.wellFormed = true ↔ ∃ i, decode (r.opcode :: r.operands) = .ok (i, []) := by
  constructor
  · intro h
    unfold RawInstr.wellFormed at h
    split at h
    · cases h
    · next d hd =>
      obtain ⟨i, hi, -⟩ := Machine.decode_of_accepted hd h
      exact ⟨i, hi⟩
  · rintro ⟨i, hi⟩
    have hr : r.opcode :: r.operands = encode i := by simpa using eq_encode_of_decode hi
    obtain ⟨hopcode, hoperands⟩ := List.cons.inj hr
    have : r = i.raw := congrArg₂ RawInstr.mk hopcode hoperands
    exact this ▸ wellFormed_instr i

/-- Settles O4: acceptance is `wellFormed_iff_decode`, and each rejection is that of the operands or
of the opcode. -/
theorem decodeAcceptsExactlyWellFormedBytes : Obligations.DecodeAcceptsExactlyWellFormedBytes :=
  ⟨wellFormed_iff_decode, rfl, fun _ bs h => decode_of_unbound h bs,
    fun b _ _ _ _ _ hd hk hb hx => decode_of_operands_error hd (decodeOperands_rejected b hk hb hx),
    fun b _ _ hd hlen hb => decode_of_operands_error hd (decodeOperands_missing b hlen hb)⟩

/-- Settles O1: each sequence is the encoding of its instruction. -/
theorem specWordsDecode : Obligations.SpecWordsDecode :=
  ⟨decode_encode (.movRegReg 2 5) [], decode_encode (.movConstReg 73#8 1) [],
    decode_encode (.movIndReg 1 2) [], decode_encode (.movRegInd 0 2) [],
    decode_encode (.vmovRegInd 7 0) [], decode_encode (.subReg 1 2) [], decode_encode (.shl 0) [],
    decode_encode (.gtConst 0 5#8) [], decode_encode .setc [], decode_encode (.call 0x20#8) [],
    decode_encode (.bank 1#8) []⟩

end Sys2Proof
end

section
/-! The assembler on programs and on source with labels: the statements about 30_encoding.md rules
R90 to R99. -/

namespace Sys2Proof.Machine.Assembler

/-! ## The offsets that pass one binds -/

theorem mem_labelsFrom (offset : Nat) (before : List SourceLine) (name : List Char)
    (after : List SourceLine) :
    (name, offset + sourceSize before) ∈ labelsFrom offset (before ++ .label name :: after) := by
  induction before generalizing offset with
  | nil => simp [labelsFrom]
  | cons l before ih =>
    cases l with
    | label other => simpa [labelsFrom, SourceLine.size] using .inr (ih offset)
    | instruction i use =>
      simpa [labelsFrom, SourceLine.size, Nat.add_assoc] using ih (offset + (1 + i.operands.length))

/-- A label's offset lies within the source, at most at its end. -/
theorem labelsFrom_le {offset : Nat} {source : List SourceLine} {p : List Char × Nat}
    (h : p ∈ labelsFrom offset source) : p.2 ≤ offset + sourceSize source := by
  obtain ⟨before, after, rfl, hp⟩ := labelsFrom_offset h
  rw [hp, sourceSize_append]
  omega

/-- A label of a source of fewer than 256 bytes is refused only where it is declared nowhere. -/
theorem eq_labelNotFound_of_resolve {source : List SourceLine} {name : List Char} {e : ErrorKind}
    (hsize : sourceSize source < 256)
    (h : resolve (labelsFrom 0 source) (.label name) = .error e) : e = .labelNotFound := by
  by_cases hn : name ∈ (labelsFrom 0 source).map Prod.fst
  · obtain ⟨p, hp, -, hr⟩ := resolve_bound hn
    have hlt : p.2 < 256 := by have := labelsFrom_le hp; omega
    rw [hr, if_pos hlt] at h
    cases h
  · rw [resolve_unbound hn] at h
    cases h
    rfl

/-- A label that no line declares has no byte. -/
theorem resolve_ne_ok_of_undeclared {source : List SourceLine} {name : List Char}
    (h : name ∉ source.flatMap SourceLine.declares) (b : Byte) :
    resolve (labelsFrom 0 source) (.label name) ≠ .ok b := by
  rw [resolve_unbound (by rwa [labelsFrom_names])]
  nofun

/-- A label that is declared once, after 256 bytes, has no byte. -/
theorem resolve_ne_ok_of_offset_256 {before after : List SourceLine} {name : List Char}
    (hnodup : ((before ++ .label name :: after).flatMap SourceLine.declares).Nodup)
    (hsize : sourceSize before = 256) (b : Byte) :
    resolve (labelsFrom 0 (before ++ .label name :: after)) (.label name) ≠ .ok b := by
  have hm := mem_labelsFrom 0 before name after
  obtain ⟨p, hp, hname, hr⟩ := resolve_bound (List.mem_map_of_mem (f := Prod.fst) hm)
  have hpeq : p = (name, 0 + sourceSize before) :=
    List.inj_on_of_nodup_map (by rwa [labelsFrom_names]) hp hm hname
  have hge : ¬ p.2 < 256 := by simp [hpeq, hsize]
  rw [hr, if_neg hge]
  nofun

/-- A label that is declared, only ever at the offset given for it, and below 256, is the byte of that
offset. -/
theorem resolve_declared {source : List SourceLine} {offset : List Char → Nat}
    (hoffset : ∀ before name after, source = before ++ .label name :: after →
      offset name = sourceSize before)
    {name : List Char} (hn : name ∈ source.flatMap SourceLine.declares) (hlt : offset name < 256) :
    resolve (labelsFrom 0 source) (.label name) = .ok (BitVec.ofNat 8 (offset name)) := by
  rw [← labelsFrom_names 0] at hn
  obtain ⟨p, hp, rfl, hr⟩ := resolve_bound hn
  obtain ⟨before, after, hsource, hsize⟩ := labelsFrom_offset hp
  have : p.2 = offset p.1 := by rw [hoffset _ _ _ hsource, hsize, Nat.zero_add]
  rw [hr, this, if_pos hlt]

/-! ## The two passes together -/

section
variable {source : List SourceLine} (hw : ∀ l ∈ source, l.namesWellFormed = true)
  (hfit : sourceSize source ≤ 256)
include hw hfit

theorem assemble_of_duplicate (hdup : ¬ (source.flatMap SourceLine.declares).Nodup) :
    ∃ line, assemble (sourceText source) = .error ⟨.duplicateLabel, line⟩ := by
  obtain ⟨line, h⟩ := passOne_duplicate hw 1 0 [] (by omega) List.nodup_nil hdup
  exact ⟨line, by rw [assemble, h]⟩

variable (hnodup : (source.flatMap SourceLine.declares).Nodup)
include hnodup

/-- A source that fits and declares no label twice comes to pass two with its labels bound. -/
theorem assemble_eq_passTwo :
    ∃ items, ItemsOf source items ∧
      assemble (sourceText source) = passTwo (labelsFrom 0 source) items := by
  obtain ⟨items, hi, h⟩ := passOne_source hw 1 0 [] (by omega) hnodup
  exact ⟨items, hi, by rw [assemble, h, List.nil_append]⟩

theorem assemble_of_resolved {offset : List Char → Nat}
    (hr : ∀ n ∈ source.flatMap SourceLine.refersTo,
      resolve (labelsFrom 0 source) (.label n) = .ok (BitVec.ofNat 8 (offset n))) :
    assemble (sourceText source) = .ok (source.flatMap (SourceLine.bytes offset)) := by
  obtain ⟨items, hi, h⟩ := assemble_eq_passTwo hw hfit hnodup
  rw [h, hi.bytes _ _ hr]

theorem assemble_of_unresolved {name : List Char}
    (hn : name ∈ source.flatMap SourceLine.refersTo)
    (hr : ∀ b, resolve (labelsFrom 0 source) (.label name) ≠ .ok b) :
    ∃ e, assemble (sourceText source) = .error e ∧
      (sourceSize source < 256 → e.kind = .labelNotFound) := by
  obtain ⟨items, hi, h⟩ := assemble_eq_passTwo hw hfit hnodup
  obtain ⟨m, -, e, line, he, h2⟩ := hi.error _ ⟨name, hn, hr⟩
  exact ⟨⟨e, line⟩, by rw [h, h2], fun hsize => eq_labelNotFound_of_resolve hsize he⟩

end

/-- Settles O58: pass one binds each label to the offset of its declaration, and there pass two
resolves every reference. -/
theorem labelStandsForItsOffset : Obligations.LabelStandsForItsOffset := by
  intro source offset hw hfit hnodup hoffset hrefs
  refine assemble_of_resolved hw hfit hnodup fun name hn => ?_
  obtain ⟨hdeclared, hlt⟩ := hrefs name hn
  exact resolve_declared hoffset hdeclared hlt

/-- Settles O59: pass one refuses the second declaration, and pass two a reference without a byte. -/
theorem labelErrorsGiveNoOutput : Obligations.LabelErrorsGiveNoOutput := by
  intro source hw hfit
  refine ⟨assemble_of_duplicate hw hfit, fun hnodup => ⟨fun name hn hundeclared => ?_, ?_⟩⟩
  · exact assemble_of_unresolved hw hfit hnodup hn (resolve_ne_ok_of_undeclared hundeclared)
  · rintro before name after rfl hsize hn
    obtain ⟨e, he, -⟩ :=
      assemble_of_unresolved hw hfit hnodup hn (resolve_ne_ok_of_offset_256 hnodup hsize)
    exact ⟨e, he⟩

/-! ## Programs without labels -/

/-- A program as source lines with no label in them. -/
def plainSource (program : List Instr) : List SourceLine :=
  program.map fun i => .instruction i {}

theorem plainSource_declares (program : List Instr) :
    (plainSource program).flatMap SourceLine.declares = [] := by
  simp [plainSource, SourceLine.declares]

theorem refersTo_plain (i : Instr) : (SourceLine.instruction i {}).refersTo = [] := by
  refine List.filterMap_eq_nil_iff.2 fun o _ => ?_
  cases o <;> rfl

theorem plainSource_refersTo (program : List Instr) :
    (plainSource program).flatMap SourceLine.refersTo = [] := by
  simp [plainSource, refersTo_plain]

theorem plainSource_namesWellFormed (program : List Instr) :
    ∀ l ∈ plainSource program, l.namesWellFormed = true := by
  intro l hl
  obtain ⟨i, -, rfl⟩ := List.mem_map.1 hl
  simp [SourceLine.namesWellFormed, SourceLine.declares, refersTo_plain]

theorem plainSource_bytes (program : List Instr) (offset : List Char → Nat) :
    (plainSource program).flatMap (SourceLine.bytes offset) = program.flatMap encode := by
  simp [plainSource, List.flatMap_map, bytes_plain]

theorem sourceSize_plainSource (program : List Instr) :
    sourceSize (plainSource program) = (program.flatMap encode).length := by
  induction program with
  | nil => rfl
  | cons i program ih =>
    have hcons : plainSource (i :: program) = .instruction i {} :: plainSource program := rfl
    rw [hcons, sourceSize_cons, ih, List.flatMap_cons, List.length_append]
    simp [SourceLine.size, encode, Nat.add_comm]

/-- Settles O57: a program is a source with no label in it; where it does not fit, pass one stops. -/
theorem assemblerEncodesPrograms : Obligations.AssemblerEncodesPrograms := by
  intro program
  constructor
  · intro hfit
    rw [← sourceSize_plainSource] at hfit
    have h := assemble_of_resolved (offset := fun _ => 0) (plainSource_namesWellFormed program) hfit
      (by simp [plainSource_declares]) (by simp [plainSource_refersTo])
    rwa [plainSource_bytes, plainSource, ← programText_eq] at h
  · intro hlong
    obtain ⟨line, h⟩ := passOne_tooLong program 1 0 [] (by omega) (by omega)
    exact ⟨line, by rw [assemble, h]⟩

end Sys2Proof.Machine.Assembler
end

section
/-! The decode/execute cycle: the statements about 40_decode_execute.md rules R111 to R127. -/

namespace Sys2Proof.Machine

/-! ## The state a decode leaves -/

/-- `s` once a cycle has decoded its byte: the flag cleared (40_decode_execute.md rule R112), `q`
pending, the one decode event published (rules R113 to R117). Instructions execute in such a state. -/
def State.decoded (q : Option Pending) (ev : Event) (s : State) : State :=
  { s with suppressed := false, pending := q, trace := s.trace ++ [ev] }

/-- `s` after a whole cycle that executes nothing: the decode, then the advance of rule R121. -/
def State.advanced (q : Option Pending) (ev : Event) (s : State) : State :=
  { s with
    suppressed := false
    pc := s.pc + 1#8
    pending := q
    trace := s.trace ++ [ev, .programCounterChanged (s.pc + 1#8)] }

theorem endCycle_decoded (q : Option Pending) (ev : Event) (s : State) :
    (s.decoded q ev).endCycle = s.advanced q ev := by
  simp [State.decoded, State.advanced, State.endCycle, State.writePc, State.emit]

@[simp] theorem State.advanced_memory (q : Option Pending) (ev : Event) (s : State) :
    (s.advanced q ev).memory = s.memory := rfl

/-! ## One cycle, by the byte it reads -/

section
variable {s : State} (hp : s.pending = none)
include hp

theorem step_of_idle : step s = cycleIdle (s.memRead s.pc) s.beginCycle := by
  simp [step, cycle, hp, State.fetch]

theorem step_of_unbound (hl : lookup (s.memRead s.pc) = none) :
    step s = .next (s.advanced none (.invalidByteParsed (s.memRead s.pc) s.pc)) := by
  rw [step_of_idle hp, cycleIdle, hl, ← endCycle_decoded, ← hp]
  rfl

theorem step_of_opcode {d : Descriptor} (hl : lookup (s.memRead s.pc) = some d) (hn : 0 < d.n) :
    step s = .next (s.advanced (some ⟨s.memRead s.pc, [], s.pc⟩)
      (.instructionParseBegun (s.memRead s.pc) s.pc)) := by
  rw [step_of_idle hp, cycleIdle, hl, ← endCycle_decoded]
  exact if_neg hn.ne'

/-- An opcode byte that is an instruction by itself executes in its own cycle (rules R113, R118). -/
theorem step_executes_opcode {i : Instr} (hd : decode [s.memRead s.pc] = .ok (i, [])) :
    ∃ t, exec i (s.decoded (some ⟨s.memRead s.pc, [], s.pc⟩)
        (.instructionParseBegun (s.memRead s.pc) s.pc)) = .next t ∧
      step s = .next (afterExecute i.opcode t) := by
  obtain ⟨d, hl, ha, ho⟩ := accepted_of_decode hd
  have hn : d.n = 0 := (operandsAccepted_length ha).symm
  obtain ⟨t, _, he, _, hx⟩ := execute_of_instr (p := ⟨s.memRead s.pc, [], s.pc⟩)
    (instr_of_decode hd) (s.beginCycle.beginInstr (s.memRead s.pc))
  refine ⟨t, he, ?_⟩
  rw [step_of_idle hp, cycleIdle, hl, ho, ← finishInstr_eq]
  exact (if_pos hn).trans hx

end

section
variable {s : State} {p : Pending} {d : Descriptor} {k : OperandKind} (hp : s.pending = some p)
  (hl : lookup p.opcode = some d) (hk : d.kinds[p.collected.length]? = some k)
include hp hl hk

/-- The three cases of rules R116 and R117 for the operand byte at pc. -/
theorem step_of_collecting : step s =
    if accepts k (s.memRead s.pc) then
      if p.collected.length + 1 = d.n then
        execute { p with collected := p.collected ++ [s.memRead s.pc] }
          (s.beginCycle.collect p k (s.memRead s.pc))
      else .next (s.beginCycle.collect p k (s.memRead s.pc)).endCycle
    else .next (s.beginCycle.rejectOperand p k (s.memRead s.pc)).endCycle := by
  have hexpected : p.expectedKind = some k := by simp [Pending.expectedKind, Pending.desc, hl, hk]
  have hn : p.n = d.n := by simp [Pending.n, Pending.desc, hl]
  simp [step, cycle, hp, cycleCollecting, hexpected, hn, State.fetch]

theorem step_of_rejected (ha : accepts k (s.memRead s.pc) = false) :
    step s = .next (s.advanced none
      (.error (.operandError p.opcode (s.memRead s.pc) k s.pc))) := by
  rw [step_of_collecting hp hl hk, ha, ← endCycle_decoded]
  rfl

theorem step_of_accepted (ha : accepts k (s.memRead s.pc) = true)
    (hmore : p.collected.length + 1 < d.n) :
    step s = .next (s.advanced (some { p with collected := p.collected ++ [s.memRead s.pc] })
      (.parameterParsed k (s.memRead s.pc) s.pc)) := by
  rw [step_of_collecting hp hl hk, if_pos ha, if_neg hmore.ne, ← endCycle_decoded]
  rfl

/-- The byte that completes an instruction executes it in the same cycle (rules R116, R118). -/
theorem step_executes_collected {i : Instr}
    (hd : decode (p.opcode :: (p.collected ++ [s.memRead s.pc])) = .ok (i, [])) :
    ∃ t, exec i (s.decoded (some { p with collected := p.collected ++ [s.memRead s.pc] })
        (.parameterParsed k (s.memRead s.pc) s.pc)) = .next t ∧
      step s = .next (afterExecute i.opcode t) := by
  obtain ⟨d', hl', hall, ho⟩ := accepted_of_decode hd
  obtain rfl : d' = d := Option.some.inj (hl'.symm.trans hl)
  have ha : accepts k (s.memRead s.pc) = true := operandsAccepted_last hall hk
  have hlast : p.collected.length + 1 = d'.n := by
    simpa [Descriptor.n] using operandsAccepted_length hall
  obtain ⟨t, _, he, _, hx⟩ :=
    execute_of_instr (p := { p with collected := p.collected ++ [s.memRead s.pc] })
      (instr_of_decode hd) (s.beginCycle.collect p k (s.memRead s.pc))
  refine ⟨t, he, ?_⟩
  rw [step_of_collecting hp hl hk, if_pos ha, if_pos hlast, hx, ho, finishInstr_eq]

end

/-- Settles O8: an instruction of one byte, and one whose last operand byte is at pc. -/
theorem stepRunsDecodedInstruction : Obligations.StepRunsDecodedInstruction := fun _ _ =>
  ⟨fun hp hd => step_executes_opcode hp hd,
    fun _ _ _ hp hd hl hk => step_executes_collected hp hl hk hd⟩

/-- Settles O10, which is `step_of_unbound` where nothing is pending. -/
theorem unboundByteIsSkipped : Obligations.UnboundByteIsSkipped := by
  intro s hp hl
  rw [step_of_unbound hp hl, ← hp]
  rfl

/-- Settles O11: an opcode without operands decodes by itself; any other becomes pending. -/
theorem opcodeBeginsInstruction : Obligations.OpcodeBeginsInstruction := by
  intro s d hp hl
  refine ⟨fun hn => ?_, fun hn => ⟨_, step_of_opcode hp hl hn, rfl, rfl⟩⟩
  have hkinds : d.kinds = [] := List.length_eq_zero_iff.1 hn
  obtain ⟨i, hd, ho, -⟩ := decode_of_accepted hl (bs := []) (by rw [hkinds]; rfl)
  obtain ⟨t, he, hs⟩ := step_executes_opcode hp hd
  exact ⟨i, t, hd, he, ho ▸ hs⟩

theorem operandsAccepted_of_ok {p : Pending} {d : Descriptor} (hok : p.ok = true)
    (hl : lookup p.opcode = some d) :
    operandsAccepted (d.kinds.take p.collected.length) p.collected = true := by
  simp only [Pending.ok, Pending.desc, hl, Bool.and_eq_true] at hok
  exact hok.2

/-- Settles O12: the collected bytes and this one are all accepted, so where none is missing they
decode; otherwise the byte is added. -/
theorem acceptedOperandIsCollected : Obligations.AcceptedOperandIsCollected := by
  intro s p d k hp hok hl hk ha
  refine ⟨fun hlast => ?_, fun hmore => ⟨_, step_of_accepted hp hl hk ha hmore, rfl, rfl⟩⟩
  have hall := operandsAccepted_snoc (operandsAccepted_of_ok hok hl) hk ha
  rw [List.take_of_length_le (show d.n ≤ _ from hlast.ge)] at hall
  obtain ⟨i, hd, ho, -⟩ := decode_of_accepted hl hall
  obtain ⟨t, he, hs⟩ := step_executes_collected hp hl hk hd
  exact ⟨i, t, hd, he, ho ▸ hs⟩

/-- Settles O13, which is `step_of_rejected`. -/
theorem rejectedOperandAbandonsInstruction : Obligations.RejectedOperandAbandonsInstruction :=
  fun _ _ _ _ hp hl hk ha => step_of_rejected hp hl hk ha

/-! ## Every completed cycle -/

@[simp] theorem errorKind_programCounterChanged (a : Byte) :
    (Event.programCounterChanged a).errorKind = none := rfl

@[simp] theorem errorKind_instructionParseBegun (opcode a : Byte) :
    (Event.instructionParseBegun opcode a).errorKind = none := rfl

@[simp] theorem errorKind_parameterParsed (k : OperandKind) (b a : Byte) :
    (Event.parameterParsed k b a).errorKind = none := rfl

@[simp] theorem errorKind_instructionExecuted (opcode : Byte) :
    (Event.instructionExecuted opcode).errorKind = none := rfl

/-- Settles O16, which is `Inv.step`. -/
theorem cycleAnswersAndKeepsInvariant : Obligations.CycleAnswersAndKeepsInvariant :=
  fun _ hs => hs.step

/-- Where the semantics suppress the advance, the instruction is a control transfer. -/
theorem Effect.isTransfer_of_suppressed {i : Instr} {s t : State} {sem : List Event}
    (he : Effect i s t sem) (hs : s.suppressed = false) (ht : t.suppressed = true) :
    isTransfer i = true := by
  by_contra hi
  have hsame : t.suppressed = s.suppressed := he.frame.suppressed (Bool.not_eq_true _ ▸ hi)
  simp [hs, ht] at hsame

/-- The advance after the execution of `i` in a cycle that began with pc at `a` and ended in `t`: done
and published, or suppressed by a control transfer (rule R121). -/
def AdvancesUnless (i : Instr) (a : Byte) (t : State) (advance : List Event) : Prop :=
  (advance = [.programCounterChanged (a + 1#8)] ∧ t.pc = a + 1#8) ∨
    (advance = [] ∧ isTransfer i = true)

/-- The events of a completed cycle, in the order of rule R122. -/
theorem step_events {s t : State} (h : step s = .next t) :
    ∃ ev, isDecodeEvent ev = true ∧
      ((s.executing = none ∧ t.pc = s.pc + 1#8 ∧
          t.trace = s.trace ++ [ev, .programCounterChanged (s.pc + 1#8)]) ∨
        ∃ i sem advance, s.executing = some i ∧ ev.errorKind = none ∧ sem.length ≤ 1 ∧
          (∀ e ∈ sem, isSemanticEvent e = true) ∧ AdvancesUnless i s.pc t advance ∧
          t.trace = s.trace ++ ev :: (sem ++ .instructionExecuted i.opcode :: advance)) := by
  obtain ⟨ev, q, hev, ⟨hx, _, rfl⟩ | ⟨i, u, sem, hx, herr, _, he, rfl⟩⟩ := step_next h
  · exact ⟨ev, hev, .inl ⟨hx, by simp [State.endCycle_pc], by simp [State.endCycle_trace]⟩⟩
  · refine ⟨ev, hev, .inr ⟨i, sem,
      if u.suppressed then [] else [.programCounterChanged (u.pc + 1#8)],
      hx, herr, he.short, he.semantic, ?_, by simp [afterExecute, he.trace]⟩⟩
    cases hu : u.suppressed with
    | true => exact .inr ⟨by simp, he.isTransfer_of_suppressed rfl hu⟩
    | false =>
      have hpc : u.pc = s.pc := he.unmoved hu
      exact .inl ⟨by simp [hpc], by simp [afterExecute, hu, hpc]⟩

/-- Settles O18, which is `step_events` with the events named. -/
theorem eventOrderOfACycle : Obligations.EventOrderOfACycle := by
  intro s t _ h
  obtain ⟨ev, hev, ⟨hx, _, htrace⟩ | ⟨i, sem, advance, hx, _, hshort, hsem, hadv, htrace⟩⟩ :=
    step_events h
  · exact ⟨ev, [], [], _, htrace, hev, by simp, by simp, fun _ => ⟨rfl, rfl⟩,
      by simp [hx], .inl rfl⟩
  · refine ⟨ev, sem, [.instructionExecuted i.opcode], advance, by simpa using htrace, hev, hshort,
      hsem, by simp [hx], by simp [hx], ?_⟩
    exact hadv.imp And.left fun ⟨hnone, hi⟩ => ⟨hnone, i, hx, hi⟩

theorem AdvancesUnless.length_le_one_and_noError {i : Instr} {a : Byte} {t : State}
    {advance : List Event} (h : AdvancesUnless i a t advance) :
    advance.length ≤ 1 ∧ ∀ e ∈ advance, e.errorKind = none := by
  obtain ⟨rfl, _⟩ | ⟨rfl, _⟩ := h
  · exact ⟨le_rfl, by simp⟩
  · exact ⟨Nat.zero_le _, by simp⟩

/-- Settles O19: an error is the decode event, where nothing executes, or the one event of the
semantics. -/
theorem atMostOneErrorPerCycle : Obligations.AtMostOneErrorPerCycle := by
  intro s t _ h
  obtain ⟨ev, _, ⟨_, _, htrace⟩ | ⟨i, sem, advance, _, herr, hshort, _, hadv, htrace⟩⟩ :=
    step_events h
  · refine ⟨_, htrace, le_rfl, by simp, ?_⟩
    have hone : ([ev].filter fun e => e.errorKind.isSome).length ≤ 1 := List.length_filter_le _ _
    simpa [List.filter_cons] using hone
  · obtain ⟨hlen, hadvance⟩ := hadv.length_le_one_and_noError
    refine ⟨_, htrace, by simp; omega, by simp; omega, ?_⟩
    have hnone : (advance.filter fun e => e.errorKind.isSome) = [] := by
      simpa [List.filter_eq_nil_iff] using hadvance
    have hone : (sem.filter fun e => e.errorKind.isSome).length ≤ 1 :=
      (List.length_filter_le _ _).trans hshort
    simpa [List.filter_cons, herr, hnone] using hone

/-- Settles O23: a cycle that executes no control transfer ends with the advance. -/
theorem pcAdvancesUnlessTransfer : Obligations.PcAdvancesUnlessTransfer := by
  intro s t h
  obtain ⟨ev, _, ⟨_, hpc, htrace⟩ | ⟨i, sem, _, hx, _, _, _, ⟨rfl, hpc⟩ | ⟨_, hi⟩, htrace⟩⟩ :=
    step_events h
  · exact .inl ⟨hpc, by simp [htrace]⟩
  · exact .inl ⟨hpc, by simp [htrace, List.getLast?_cons]⟩
  · exact .inr ⟨i, hx, hi⟩

/-! ## A whole instruction (rule R126) -/

/-- The bytes an address range holds depend on main memory only. -/
theorem holdsBytes_congr {s t : State} (h : t.memory = s.memory) {a : Byte} {bs : List Byte}
    (hb : holdsBytes s a bs) : holdsBytes t a bs := by
  induction bs generalizing a with
  | nil => trivial
  | cons b bs ih => exact ⟨by simpa [State.memRead, h] using hb.1, ih hb.2⟩

theorem add_one_add_ofNat (a : Byte) (n : Nat) :
    a + 1#8 + BitVec.ofNat 8 n = a + BitVec.ofNat 8 (n + 1) := by
  rw [BitVec.ofNat_add, BitVec.add_assoc, BitVec.add_comm (BitVec.ofNat 8 n)]

/-- With the operands `taken` collected and the bytes of the others at pc, one cycle for each of those
runs the instruction. -/
theorem run_operands {i : Instr} {start : Byte} {o : Operand} {os : List Operand}
    {taken : List Operand} {s : State} (hi : i.operands = taken ++ o :: os)
    (hp : s.pending = some ⟨i.opcode, taken.map Operand.byte, start⟩)
    (hb : holdsBytes s s.pc ((o :: os).map Operand.byte)) :
    ∃ t, exec i { s with
        pending := some ⟨i.opcode, i.operands.map Operand.byte, start⟩
        suppressed := false
        pc := s.pc + BitVec.ofNat 8 os.length
        trace := s.trace ++ .parameterParsed o.kind o.byte s.pc :: collectEvents (s.pc + 1#8) os } =
          .next t ∧
      run (os.length + 1) s = .next (afterExecute i.opcode t) := by
  obtain ⟨d, hl, hkinds, -⟩ := Laws.RomRow.all i
  have hk : d.kinds[(taken.map Operand.byte).length]? = some o.kind := by simp [hkinds, hi]
  obtain ⟨hbyte, hrest⟩ := hb
  induction os generalizing taken o s with
  | nil =>
    have hd : decode (i.opcode :: (taken.map Operand.byte ++ [s.memRead s.pc])) = .ok (i, []) := by
      simpa [encode, hi, hbyte] using decode_encode i []
    obtain ⟨t, he, hs⟩ := step_executes_collected hp hl hk hd
    refine ⟨t, ?_, by simp [run, hs]⟩
    simpa [State.decoded, hbyte, hi, collectEvents] using he
  | cons o' os ih =>
    have ha : accepts o.kind (s.memRead s.pc) = true := hbyte ▸ accepts_kind_byte o
    have hmore : (taken.map Operand.byte).length + 1 < d.n := by simp [Descriptor.n, hkinds, hi]
    have hs : step s = .next (s.advanced (some ⟨i.opcode, (taken ++ [o]).map Operand.byte, start⟩)
        (.parameterParsed o.kind o.byte s.pc)) := by
      simpa [hbyte] using step_of_accepted hp hl hk ha hmore
    obtain ⟨t, he, hrun⟩ := ih (taken := taken ++ [o]) (by simpa using hi) rfl
      (by simp [hkinds, hi]) hrest.1 (holdsBytes_congr (State.advanced_memory _ _ s) hrest.2)
    refine ⟨t, ?_, (run_succ hs _).trans hrun⟩
    simpa [State.advanced, collectEvents, add_one_add_ofNat] using he

/-- Settles O9: the opcode's cycle, then one for each operand (`run_operands`). -/
theorem instructionRunsOneCyclePerByte : Obligations.InstructionRunsOneCyclePerByte := by
  intro s i hp ⟨hopcode, hbytes⟩
  obtain ⟨d, hl, hkinds, -⟩ := Laws.RomRow.all i
  rw [← hopcode] at hl
  cases hops : i.operands with
  | nil =>
    have hd : decode [s.memRead s.pc] = .ok (i, []) := by
      simpa [encode, hops, hopcode] using decode_encode i []
    obtain ⟨t, he, hs⟩ := step_executes_opcode hp hd
    refine ⟨t, ?_, by simp [run, hs]⟩
    simpa [State.decoded, atFinalByte, decodeEvents, collectEvents, hops, hopcode] using he
  | cons o os =>
    have hs : step s = .next (s.advanced (some ⟨i.opcode, [], s.pc⟩)
        (.instructionParseBegun i.opcode s.pc)) := by
      simpa [hopcode] using step_of_opcode hp hl (by simp [Descriptor.n, hkinds, hops])
    obtain ⟨t, he, hrun⟩ := run_operands (taken := []) hops rfl
      (holdsBytes_congr (State.advanced_memory _ _ s) (hops ▸ hbytes))
    refine ⟨t, ?_, ?_⟩
    · simpa [State.advanced, atFinalByte, decodeEvents, collectEvents, hops, add_one_add_ofNat]
        using he
    · rw [Nat.add_comm]
      exact (run_succ hs _).trans hrun

/-! ## The self-loop (rule R127) -/

theorem atSelfLoop_iff (s : State) : s.atSelfLoop = true ↔
    s.pending = none ∧ s.memRead s.pc = 0x50#8 ∧ s.memRead (s.pc + 1#8) = s.pc := by
  simp [State.atSelfLoop, and_assoc]

/-- The events of one turn of the self-loop at `p`. -/
def loopEvents (p : Byte) : List Event :=
  [.instructionParseBegun 0x50#8 p, .programCounterChanged (p + 1#8),
    .parameterParsed .memoryAddress p (p + 1#8), .programCounterChanged p, .instructionExecuted 0x50#8]

/-- Two cycles at a self-loop are one turn: they run the jump, back to where it stands. -/
theorem run_two_of_selfLoop {s : State} (h : s.atSelfLoop = true) (hflag : s.suppressed = false) :
    run 2 s = .next { s with trace := s.trace ++ loopEvents s.pc } := by
  obtain ⟨hp, hopcode, htarget⟩ := (atSelfLoop_iff s).1 h
  obtain ⟨t, he, hrun⟩ :=
    instructionRunsOneCyclePerByte s (.jmp s.pc) hp ⟨hopcode, htarget, trivial⟩
  have ht : t = (atFinalByte (.jmp s.pc) s (decodeEvents (.jmp s.pc) s.pc)).transferTo s.pc := by
    cases he
    rfl
  have hloop : decodeEvents (.jmp s.pc) s.pc ++
      [.programCounterChanged s.pc, .instructionExecuted 0x50#8] = loopEvents s.pc := rfl
  refine hrun.trans (congrArg _ ?_)
  simp [ht, afterExecute, atFinalByte, State.transferTo, State.suppressAdvance, State.writePc,
    State.emit, ← hloop, Instr.opcode, hp, hflag]

/-- Settles O56, by induction on the turns: one cycle begins the jump, two change only the trace. -/
theorem selfLoopAlternatesForever : Obligations.SelfLoopAlternatesForever := by
  intro s k
  induction k using Nat.twoStepInduction generalizing s with
  | zero => exact fun h _ => ⟨[], rfl, by simp [run, ← ((atSelfLoop_iff s).1 h).1]⟩
  | one =>
    intro h hflag
    obtain ⟨hp, hopcode, -⟩ := (atSelfLoop_iff s).1 h
    obtain ⟨d, hl, hkinds, -⟩ := Laws.RomRow.all (.jmp s.pc)
    have hs := step_of_opcode hp ((congrArg lookup hopcode).trans hl)
      (by simp [Descriptor.n, hkinds, Instr.operands])
    exact ⟨[.instructionParseBegun 0x50#8 s.pc, .programCounterChanged (s.pc + 1#8)],
      by simp [noError], by simp [run, hs, State.advanced, hopcode, hflag]⟩
  | more k ih _ =>
    intro h hflag
    obtain ⟨events, hnone, hrun⟩ := ih { s with trace := s.trace ++ loopEvents s.pc } h hflag
    refine ⟨loopEvents s.pc ++ events, ?_, ?_⟩
    · simpa [noError, loopEvents] using hnone
    · rw [Nat.add_comm, run_add (run_two_of_selfLoop h hflag), hrun]
      simp

end Sys2Proof.Machine
end

section
/-! Data movement: the statements about 41_data_movement.md. Every form is one of the shared loads and
stores of Machine/Operands.lean over an addressing mode of rule R155, so each part is the encoding of
the form and the law of its load or store. -/

namespace Sys2Proof.Machine

/-! ## What an instruction is encoded as (30_encoding.md rules R76, R80, R95) -/

/-- Every instruction is encoded as its opcode and operand bytes, of the kinds its ROM row lists. -/
theorem encodedAs_operands (i : Instr) :
    EncodedAs i (i.opcode :: i.operands.map Operand.byte) (i.operands.map Operand.kind) := by
  obtain ⟨d, hlookup, hkinds, -⟩ := Laws.RomRow.all i
  exact ⟨rfl, d, hlookup, hkinds⟩

theorem pairByte_eq_ofNat (first second : Reg) :
    pairByte first second = BitVec.ofNat 8 (16 * first.val + second.val) := by
  revert first second; decide

/-- An instruction whose one operand is a register pair has the pair's number as its second byte. -/
theorem encodedAs_pair {i : Instr} {first second : Reg} (h : i.operands = [.pair first second]) :
    EncodedAs i [i.opcode, BitVec.ofNat 8 (16 * first.val + second.val)] [.registerPair] := by
  simpa [h, Operand.byte, Operand.kind, pairByte_eq_ofNat] using encodedAs_operands i

/-! ## The loads and stores -/

/-- Settles O25: two register moves and two loads from main memory, absolute and register-indirect. -/
theorem movLoadsRegister : Obligations.MovLoadsRegister := by
  intro s rs ra rd c m
  refine ⟨⟨encodedAs_operands _, _, rfl, ?_⟩, ⟨encodedAs_operands _, _, rfl, ?_⟩,
    ⟨encodedAs_operands _, _, rfl, ?_⟩, ⟨encodedAs_pair rfl, _, rfl, ?_⟩⟩
  · exact moveToRegister_spec rd (valueRegister rs) s
  · exact moveToRegister_spec rd (valueConstant c) s
  · exact loadMain_spec rd (addressAbsolute m) s
  · exact loadMain_spec rd (addressIndirect ra) s

/-- Settles O26: three stores to main memory, of a register or a constant, absolute and
register-indirect. -/
theorem movStoresByte : Obligations.MovStoresByte := by
  intro s rs ra c m hwf
  refine ⟨⟨encodedAs_operands _, _, rfl, ?_⟩, ⟨encodedAs_operands _, _, rfl, ?_⟩,
    ⟨encodedAs_pair rfl, _, rfl, ?_⟩⟩
  · exact storeMain_spec hwf (addressAbsolute m) (valueRegister rs)
  · exact storeMain_spec hwf (addressAbsolute m) (valueConstant c)
  · exact storeMain_spec hwf (addressIndirect ra) (valueRegister rs)

/-- Settles O27: two loads from video memory, absolute and register-indirect. -/
theorem vmovLoadsRegister : Obligations.VmovLoadsRegister := by
  intro s ra rd m
  refine ⟨⟨encodedAs_operands _, _, rfl, ?_⟩, ⟨encodedAs_pair rfl, _, rfl, ?_⟩⟩
  · exact loadVideo_spec rd (addressAbsolute m) s
  · exact loadVideo_spec rd (addressIndirect ra) s

/-- Settles O28: three stores to video memory, of a register or a constant, absolute and
register-indirect. -/
theorem vmovStoresByte : Obligations.VmovStoresByte := by
  intro s rs ra c m hwf
  refine ⟨⟨encodedAs_operands _, _, rfl, ?_⟩, ⟨encodedAs_operands _, _, rfl, ?_⟩,
    ⟨encodedAs_pair rfl, _, rfl, ?_⟩⟩
  · exact storeVideo_spec hwf (addressAbsolute m) (valueRegister rs)
  · exact storeVideo_spec hwf (addressAbsolute m) (valueConstant c)
  · exact storeVideo_spec hwf (addressIndirect ra) (valueRegister rs)

end Sys2Proof.Machine
end

section
/-! Arithmetic: the statements about 42_arithmetic.md. Each instruction is one of the shared
operations of Machine/Arithmetic.lean, so each part is the encoding of the form and the law of its
operation, with the result and carry of Machine/Flags.lean as numbers. -/

namespace Sys2Proof.Machine

/-! ## The operations in numbers -/

theorem addition_spec (rd : Reg) (value : State → Byte) (s : State) :
    RegisterAndCarryBecome s (arithmetic addResult addCarry rd value s) rd
      (((s.readReg rd).toNat + (value s).toNat) % 256)
      (256 ≤ (s.readReg rd).toNat + (value s).toNat) := by
  simpa [addResult, addCarry] using arithmetic_spec addResult addCarry rd value s

/-- Adding 256 before subtracting on naturals gives the difference of the integers modulo 256. -/
theorem subResult_toNat_eq_emod (a b : Byte) :
    (subResult a b).toNat = (((a.toNat : Int) - (b.toNat : Int)) % 256).toNat := by
  have hb := b.isLt
  rw [subResult_toNat]
  omega

theorem subtraction_spec (rd : Reg) (value : State → Byte) (s : State) :
    RegisterAndCarryBecome s (arithmetic subResult subBorrow rd value s) rd
      ((((s.readReg rd).toNat : Int) - ((value s).toNat : Int)) % 256).toNat
      ((s.readReg rd).toNat < (value s).toNat) := by
  simpa [subResult_toNat_eq_emod, subBorrow] using arithmetic_spec subResult subBorrow rd value s

theorem multiplication_spec (rd : Reg) (value : State → Byte) (s : State) :
    RegisterAndCarryBecome s (arithmetic mulResult mulCarry rd value s) rd
      ((s.readReg rd).toNat * (value s).toNat % 256)
      (256 ≤ (s.readReg rd).toNat * (value s).toNat) := by
  simpa [mulResult, mulCarry] using arithmetic_spec mulResult mulCarry rd value s

theorem increment_spec (rd : Reg) (s : State) :
    RegisterAndCarryBecome s (unaryWithCarry incResult incCarry rd s) rd
      (((s.readReg rd).toNat + 1) % 256) ((s.readReg rd).toNat = 255) := by
  simpa [incResult, incCarry] using unaryWithCarry_spec incResult incCarry rd s

theorem decrement_spec (rd : Reg) (s : State) :
    RegisterAndCarryBecome s (unaryWithCarry decResult decBorrow rd s) rd
      (((s.readReg rd).toNat + 255) % 256) ((s.readReg rd).toNat = 0) := by
  simpa [decResult, decBorrow] using unaryWithCarry_spec decResult decBorrow rd s

/-! ## The two answers of a division (42_arithmetic.md rules R166, R167) -/

theorem start_of_pending {s : State} {p : Pending} (h : s.pending = some p) :
    s.start = p.position := by
  simp [State.start, h]

section
variable (opcode : Byte) (result : Byte → Byte → Byte) (rs rd : Reg) (s : State)

theorem division_of_ne_zero (h : s.readReg rs ≠ 0#8) :
    RegisterBecomes s (division opcode result rs rd s) rd
      (result (s.readReg rd) (s.readReg rs)).toNat :=
  ((division_spec opcode result rs rd s).resolve_left fun hzero => h hzero.1).2

theorem division_of_eq_zero (h : s.readReg rs = 0#8) :
    OnlyRaises s (division opcode result rs rd s) (.divideByZero opcode s.start) :=
  ((division_spec opcode result rs rd s).resolve_right fun hne => hne.1 h).2

end

/-! ## The statements -/

/-- Settles O30: one subtraction of a register or a constant. -/
theorem subWrapsAndBorrows : Obligations.SubWrapsAndBorrows := by
  intro s rs rd c
  refine ⟨⟨encodedAs_operands _, _, rfl, ?_⟩, ⟨encodedAs_operands _, _, rfl, ?_⟩⟩
  · exact subtraction_spec rd (valueRegister rs) s
  · exact subtraction_spec rd (valueConstant c) s

/-- Settles O32: each is one division, whose two answers the divisor decides; the position raised is
that of the pending instruction. -/
theorem divAndModDivideOrRaise : Obligations.DivAndModDivideOrRaise := by
  intro s rs rd
  refine ⟨⟨encodedAs_operands _, fun hne => ⟨_, rfl, ?_⟩, fun hzero => ⟨_, s.start, rfl, ?_⟩⟩,
    ⟨encodedAs_operands _, fun hne => ⟨_, rfl, ?_⟩, fun hzero => ⟨_, s.start, rfl, ?_⟩⟩⟩
  · rw [← divResult_toNat]
    exact division_of_ne_zero 0x25#8 divResult rs rd s hne
  · exact ⟨division_of_eq_zero 0x25#8 divResult rs rd s hzero, fun _ => start_of_pending⟩
  · rw [← modResult_toNat]
    exact division_of_ne_zero 0x26#8 modResult rs rd s hne
  · exact ⟨division_of_eq_zero 0x26#8 modResult rs rd s hzero, fun _ => start_of_pending⟩

/-- Settles O29: one addition of a register or a constant. -/
theorem addWrapsAndCarries : Obligations.AddWrapsAndCarries := by
  intro s rs rd c
  refine ⟨⟨encodedAs_operands _, _, rfl, ?_⟩, ⟨encodedAs_operands _, _, rfl, ?_⟩⟩
  · exact addition_spec rd (valueRegister rs) s
  · exact addition_spec rd (valueConstant c) s

/-- Settles O31: one multiplication by a register. -/
theorem mulKeepsLowByte : Obligations.MulKeepsLowByte := by
  intro s rs rd
  exact ⟨encodedAs_operands _, _, rfl, multiplication_spec rd (valueRegister rs) s⟩

/-- Settles O33: the two unary operations with a carry. -/
theorem incAndDecWrap : Obligations.IncAndDecWrap := by
  intro s rd
  refine ⟨⟨encodedAs_operands _, _, rfl, ?_⟩, ⟨encodedAs_operands _, _, rfl, ?_⟩⟩
  · exact increment_spec rd s
  · exact decrement_spec rd s

end Sys2Proof.Machine
end

section
/-! Logic and shifts: the statements about 43_logic.md. AND, OR and XOR are one shared `bitwise`
operation of Machine/Logic.lean, NOT is one register write, and the shifts are the unary operation with
a carry; so each part is the encoding of the form and the law of its operation. -/

namespace Sys2Proof.Machine

/-! ## The operations on bits (43_logic.md rules R171 to R176) -/

/-- A bitwise operation whose result is `op` of the operands' bits gives the register those bits. -/
theorem bitwise_perBit {result : Byte → Byte → Byte} {op : Bool → Bool → Bool}
    (hop : ∀ a b n, (result a b).getLsbD n = op (a.getLsbD n) (b.getLsbD n))
    (rs rd : Reg) (s : State) :
    RegisterBecomes s (bitwise result rs rd s) rd ((bitwise result rs rd s).readReg rd).toNat ∧
      ∀ n, n < 8 → ((bitwise result rs rd s).readReg rd).getLsbD n =
        op ((s.readReg rd).getLsbD n) ((s.readReg rs).getLsbD n) := by
  have hvalue : (bitwise result rs rd s).readReg rd = result (s.readReg rd) (s.readReg rs) :=
    State.readReg_writeReg_same s rd _
  rw [hvalue]
  exact ⟨bitwise_spec result rs rd s, fun n _ => hop _ _ n⟩

/-- Subtracting from 255 complements every bit. -/
theorem notResult_eq_not (a : Byte) : notResult a = ~~~a :=
  BitVec.eq_of_toNat_eq (by rw [notResult_toNat, BitVec.toNat_not])

theorem getLsbD_notResult (a : Byte) {n : Nat} (hn : n < 8) :
    (notResult a).getLsbD n = !a.getLsbD n := by
  simp [notResult_eq_not, hn]

/-! ## The shifts in numbers (43_logic.md rules R177, R178) -/

/-- Bit 7 is the top bit: set from 128 on. -/
theorem shlCarry_iff (a : Byte) : shlCarry a = true ↔ 128 ≤ a.toNat := by
  have hbit : shlCarry a = decide (128 ≤ a.toNat) := BitVec.getLsbD_last a
  rw [hbit, decide_eq_true_iff]

/-- Bit 0 is the parity. -/
theorem shrCarry_iff (a : Byte) : shrCarry a = true ↔ a.toNat % 2 = 1 :=
  Nat.mod_two_eq_one_iff_testBit_zero.symm

theorem shiftLeft_spec (rd : Reg) (s : State) :
    RegisterAndCarryBecome s (unaryWithCarry shlResult shlCarry rd s) rd
      ((s.readReg rd).toNat * 2 % 256) (128 ≤ (s.readReg rd).toNat) := by
  simpa [shlResult, shlCarry_iff] using unaryWithCarry_spec shlResult shlCarry rd s

theorem shiftRight_spec (rd : Reg) (s : State) :
    RegisterAndCarryBecome s (unaryWithCarry shrResult shrCarry rd s) rd
      ((s.readReg rd).toNat / 2) ((s.readReg rd).toNat % 2 = 1) := by
  simpa only [shrResult_toNat, shrCarry_iff] using unaryWithCarry_spec shrResult shrCarry rd s

/-! ## The statements -/

/-- Settles O34: three bitwise operations with their operator's bits, and NOT as a register write. -/
theorem bitwiseOperationsActPerBit : Obligations.BitwiseOperationsActPerBit := by
  intro s rs rd
  refine ⟨⟨encodedAs_operands _, _, rfl, ?_⟩, ⟨encodedAs_operands _, _, rfl, ?_⟩,
    ⟨encodedAs_operands _, _, rfl, ?_⟩, ⟨encodedAs_operands _, _, rfl, ?_, fun n hn => ?_⟩⟩
  · exact bitwise_perBit (result := andResult) (fun _ _ _ => BitVec.getLsbD_and) rs rd s
  · exact bitwise_perBit (result := orResult) (fun _ _ _ => BitVec.getLsbD_or) rs rd s
  · exact bitwise_perBit (result := xorResult) (fun _ _ _ => BitVec.getLsbD_xor) rs rd s
  · rw [← notResult_toNat]
    exact registerBecomes_writeReg s rd _
  · rw [State.readReg_writeReg_same]
    exact getLsbD_notResult _ hn

/-- Settles O35: the two unary operations whose carry is the bit shifted out. -/
theorem shiftsMoveTheBitOutToCarry : Obligations.ShiftsMoveTheBitOutToCarry := by
  intro s rd
  refine ⟨⟨encodedAs_operands _, _, rfl, ?_⟩, ⟨encodedAs_operands _, _, rfl, ?_⟩⟩
  · exact shiftLeft_spec rd s
  · exact shiftRight_spec rd s

end Sys2Proof.Machine
end

section
/-! Compares and carry control: the statements about 44_compare_carry.md. The six compares are one
shared `compareOp` of Machine/CompareCarry.lean under three truth functions, and SETC and CLRC are one
carry write; so each part is the encoding of the form and the law of its operation. -/

namespace Sys2Proof.Machine

/-! ## The compares as relations (44_compare_carry.md rules R181 to R187) -/

theorem eqTruth_iff (a b : Byte) : eqTruth a b = true ↔ a = b :=
  decide_eq_true_iff.trans BitVec.toNat_inj

theorem ltTruth_iff (a b : Byte) : ltTruth a b = true ↔ a.toNat < b.toNat := decide_eq_true_iff

theorem gtTruth_iff (a b : Byte) : gtTruth a b = true ↔ a.toNat > b.toNat := decide_eq_true_iff

theorem equal_spec (ra : Reg) (value : State → Byte) (s : State) :
    CarryBecomes s (compareOp eqTruth ra value s) (s.readReg ra = value s) := by
  simpa only [eqTruth_iff] using compareOp_spec eqTruth ra value s

theorem below_spec (ra : Reg) (value : State → Byte) (s : State) :
    CarryBecomes s (compareOp ltTruth ra value s) ((s.readReg ra).toNat < (value s).toNat) := by
  simpa only [ltTruth_iff] using compareOp_spec ltTruth ra value s

theorem above_spec (ra : Reg) (value : State → Byte) (s : State) :
    CarryBecomes s (compareOp gtTruth ra value s) ((s.readReg ra).toNat > (value s).toNat) := by
  simpa only [gtTruth_iff] using compareOp_spec gtTruth ra value s

/-! ## The carry write (44_compare_carry.md rules R188, R189) -/

theorem carryBecomes_setCarry (s : State) (b : Bool) : CarryBecomes s (s.setCarry b) (b = true) :=
  ⟨by simp, by simp, { FrameExcept.refl {} s with carry := fun h => nomatch h }⟩

/-! ## The statements -/

/-- Settles O36: three compares of a register with a register or a constant. -/
theorem comparesWriteOnlyCarry : Obligations.ComparesWriteOnlyCarry := by
  intro s ra rb c
  refine ⟨⟨encodedAs_operands _, _, rfl, ?_⟩, ⟨encodedAs_operands _, _, rfl, ?_⟩,
    ⟨encodedAs_operands _, _, rfl, ?_⟩, ⟨encodedAs_operands _, _, rfl, ?_⟩,
    ⟨encodedAs_operands _, _, rfl, ?_⟩, ⟨encodedAs_operands _, _, rfl, ?_⟩⟩
  · exact equal_spec ra (valueRegister rb) s
  · exact equal_spec ra (valueConstant c) s
  · exact below_spec ra (valueRegister rb) s
  · exact below_spec ra (valueConstant c) s
  · exact above_spec ra (valueRegister rb) s
  · exact above_spec ra (valueConstant c) s

/-- Settles O37: the carry write of `true` and of `false`. -/
theorem setcAndClrcWriteOnlyCarry : Obligations.SetcAndClrcWriteOnlyCarry := by
  intro s
  refine ⟨⟨encodedAs_operands _, _, rfl, ?_⟩, ⟨encodedAs_operands _, _, rfl, ?_⟩⟩
  · simpa only using carryBecomes_setCarry s true
  · simpa only [Bool.false_eq_true] using carryBecomes_setCarry s false

end Sys2Proof.Machine
end

section
/-! Control transfer: the statements about 45_control.md. The jumps are one shared `transferTo`,
conditional for JC and JNC; CALL and RET are that transfer from the state with the longer or shorter
call stack, or a raise where the stack is full or empty. -/

namespace Sys2Proof.Machine

/-! ## A conditional transfer (45_control.md rules R204, R205) -/

theorem transferIf_taken {taken : Bool} (h : taken = true) (t : Byte) (s : State) :
    TransferTaken s (transferIf taken t s) t := by
  rw [h]
  exact transferTo_spec t s

theorem transferIf_not_taken {taken : Bool} (h : taken = false) (t : Byte) (s : State) :
    transferIf taken t s = s := by
  rw [h]
  rfl

/-! ## The answers of CALL and RET (45_control.md rules R206 to R209) -/

section
variable {s : State}

theorem execCall_of_lt (h : s.callStack.length < s.config.callStackDepth) (t : Byte) :
    execCall t s = .next ({ s with callStack := s.callStack ++ [s.pc + 1#8] }.transferTo t) :=
  ((execCall_cases t s).resolve_left fun hfull => absurd hfull.1 h.not_ge).2

theorem execCall_of_ge (h : s.config.callStackDepth ≤ s.callStack.length) (t : Byte) :
    execCall t s = .next (s.raise (.callStackOverflow 0x54#8 s.start s.config.callStackDepth)) :=
  ((execCall_cases t s).resolve_right fun hroom => absurd hroom.1 h.not_gt).2

theorem execRet_of_nil (h : s.callStack = []) :
    execRet s = .next (s.suppressAdvance.raise (.callStackUnderflow 0x55#8 s.start)) :=
  ((execRet_cases s).resolve_right fun ⟨_, _, hstack, _⟩ => by simp [h] at hstack).2

theorem execRet_of_concat {below : List Byte} {v : Byte} (h : s.callStack = below ++ [v]) :
    execRet s = .next ({ s with callStack := below }.transferTo v) := by
  obtain ⟨hnil, -⟩ | ⟨below', v', hstack, he⟩ := execRet_cases s
  · simp [h] at hnil
  · obtain ⟨rfl, rfl⟩ := List.concat_inj.1 (by simpa using h.symm.trans hstack)
    exact he

end

theorem frame_raise (s : State) (report : ErrorReport) : FrameExcept {} s (s.raise report) :=
  { FrameExcept.refl {} s with pending := rfl }

theorem frame_transferTo_withCallStack (s : State) (stack : List Byte) (t : Byte) :
    FrameExcept { stack := true, control := true } s ({ s with callStack := stack }.transferTo t) :=
  { FrameExcept.refl {} s with
    stack := fun h => nomatch h
    pc := fun h => nomatch h
    suppressed := fun h => nomatch h }

/-! ## RET at an empty stack (45_control.md rule R209) -/

/-- The events of one cycle of a RET at `a` on an empty call stack. -/
def underflowEvents (a : Byte) : List Event :=
  [.instructionParseBegun 0x55#8 a, .error (.callStackUnderflow 0x55#8 a), .instructionExecuted 0x55#8]

/-- One cycle of such a RET changes only the trace: the RET suppresses the advance before it raises. -/
theorem step_of_ret_nil {s : State} (hp : s.pending = none) (hflag : s.suppressed = false)
    (hret : s.memRead s.pc = 0x55#8) (hstack : s.callStack = []) :
    step s = .next { s with trace := s.trace ++ underflowEvents s.pc } := by
  have hd : decode [s.memRead s.pc] = .ok (.ret, []) := by
    rw [hret]
    exact decode_encode .ret []
  obtain ⟨t, he, hs⟩ := step_executes_opcode hp hd
  cases he.symm.trans (execRet_of_nil hstack)
  rw [hs]
  simp [afterExecute, State.decoded, State.start, underflowEvents, Instr.opcode, hret, hp, hflag]

/-! ## The statements -/

/-- Settles O43, by induction on the cycles: each changes only the trace (`step_of_ret_nil`). -/
theorem retOnEmptyStackRepeatsTheError : Obligations.RetOnEmptyStackRepeatsTheError := by
  intro s k hp hflag hret hstack
  induction k generalizing s with
  | zero => simp [run]
  | succ k ih =>
    rw [run_succ (step_of_ret_nil hp hflag hret hstack),
      ih { s with trace := s.trace ++ underflowEvents s.pc } hp hflag hret hstack]
    simp [underflowEvents, List.replicate_succ]

/-- Settles O40: below maximum depth CALL is a transfer from the state with the longer stack. -/
theorem callPushesReturnAddress : Obligations.CallPushesReturnAddress := fun s target h =>
  ⟨encodedAs_operands _, _, execCall_of_lt h target, rfl, rfl, rfl, rfl,
    frame_transferTo_withCallStack s _ target⟩

/-- Settles O42: with an entry to take RET is a transfer from the state with the shorter stack. -/
theorem retTakesTheLastEntry : Obligations.RetTakesTheLastEntry := fun s below v h =>
  ⟨encodedAs_operands _, _, execRet_of_concat h, rfl, rfl, rfl, rfl,
    frame_transferTo_withCallStack s below v⟩

/-- Settles O44: the entry that CALL pushes is the last one, which RET takes. -/
theorem callThenRetReturns : Obligations.CallThenRetReturns := by
  intro s target h
  obtain ⟨-, t, hcall, hpushed, hpc, -⟩ := callPushesReturnAddress s target h
  refine ⟨t, hcall, hpc, fun later hlater => ?_⟩
  obtain ⟨-, u, hret, hstack, hback, -⟩ :=
    retTakesTheLastEntry later s.callStack (s.pc + 1#8) (hlater.trans hpushed)
  exact ⟨u, hret, hback, hstack⟩

/-- Settles O38: both forms are one transfer, to the operand byte or to the register's value. -/
theorem jumpsGoToTheirTarget : Obligations.JumpsGoToTheirTarget := fun s target rr =>
  ⟨⟨encodedAs_operands _, _, rfl, transferTo_spec target s⟩,
    ⟨encodedAs_operands _, _, rfl, transferTo_spec (s.readReg rr) s⟩⟩

/-- Settles O39: JC is `transferIf` on carry and JNC on its negation. -/
theorem conditionalJumpsTestCarry : Obligations.ConditionalJumpsTestCarry := by
  intro s target
  refine ⟨⟨encodedAs_operands _, fun hc => ⟨_, rfl, transferIf_taken hc target s⟩, fun hc => ?_⟩,
    ⟨encodedAs_operands _, fun hc => ⟨_, rfl, transferIf_taken ?_ target s⟩, fun hc => ?_⟩⟩
  · exact congrArg _ (transferIf_not_taken hc target s)
  · rw [hc, Bool.not_false]
  · exact congrArg _ (transferIf_not_taken (by rw [hc, Bool.not_true]) target s)

/-- Settles O41: a full stack makes CALL raise; the position raised is that of the pending
instruction. -/
theorem callAtMaximumDepthRaises : Obligations.CallAtMaximumDepthRaises := fun s target h =>
  ⟨_, s.start, execCall_of_ge h.ge target, ⟨rfl, frame_raise s _⟩, fun _ => start_of_pending⟩

end Sys2Proof.Machine
end

section
/-! System instructions: the statements about 46_system.md. NOP is the identity, PRINT one published
event, BANK and PALETTE one control-register write each; what each of these leaves unchanged is the
frame of its law in Laws/Exec.lean. -/

namespace Sys2Proof.Machine

/-! ## The decimal numeral (46_system.md rule R214) -/

theorem toNat_digit {n : Nat} (h : n < 10) : (digit n).toNat = 48 + n := by
  revert n; decide

theorem digit_ne_zero {n : Nat} (hpos : 0 < n) (h : n < 10) : digit n ≠ '0' := by
  intro h0
  have hval : 48 + n = 48 := (toNat_digit h).symm.trans (congrArg Char.toNat h0)
  omega

/-- The numeral has one, two or three digits. -/
theorem decimalDigits_cases (v : Byte) :
    (v.toNat < 10 ∧ decimalDigits v = [digit v.toNat]) ∨
      (10 ≤ v.toNat ∧ v.toNat < 100 ∧
        decimalDigits v = [digit (v.toNat / 10), digit (v.toNat % 10)]) ∨
      (100 ≤ v.toNat ∧ decimalDigits v =
        [digit (v.toNat / 100), digit (v.toNat / 10 % 10), digit (v.toNat % 10)]) := by
  unfold decimalDigits
  by_cases h1 : v.toNat < 10
  · exact .inl ⟨h1, if_pos h1⟩
  by_cases h2 : v.toNat < 100
  · exact .inr (.inl ⟨not_lt.1 h1, h2, (if_neg h1).trans (if_pos h2)⟩)
  · exact .inr (.inr ⟨not_lt.1 h2, (if_neg h1).trans (if_neg h2)⟩)

theorem decimalDigits_ne_nil (v : Byte) : decimalDigits v ≠ [] := by
  obtain ⟨-, h⟩ | ⟨-, -, h⟩ | ⟨-, h⟩ := decimalDigits_cases v <;> simp [h]

/-- Every character of the numeral is the digit of a number below 10. -/
theorem exists_digit_of_mem_decimalDigits {v : Byte} {ch : Char} (hch : ch ∈ decimalDigits v) :
    ∃ n < 10, ch = digit n := by
  have hv := v.isLt
  obtain ⟨hlt, h⟩ | ⟨-, hlt, h⟩ | ⟨-, h⟩ := decimalDigits_cases v <;>
    simp only [h, List.mem_cons, List.not_mem_nil, or_false] at hch
  · exact ⟨_, hlt, hch⟩
  · obtain rfl | rfl := hch <;> exact ⟨_, by omega, rfl⟩
  · obtain rfl | rfl | rfl := hch <;> exact ⟨_, by omega, rfl⟩

theorem decimalDigits_head?_ne_zero {v : Byte} (hlen : 1 < (decimalDigits v).length) :
    (decimalDigits v).head? ≠ some '0' := by
  have hv := v.isLt
  obtain ⟨-, h⟩ | ⟨hle, hlt, h⟩ | ⟨hle, h⟩ := decimalDigits_cases v <;> rw [h] at hlen ⊢
  · simp at hlen
  · simpa using digit_ne_zero (by omega) (by omega)
  · simpa using digit_ne_zero (by omega) (by omega)

/-- Read as a decimal number, the numeral has the byte's value. -/
theorem foldl_decimalDigits (v : Byte) :
    (decimalDigits v).foldl (fun n ch => 10 * n + (ch.toNat - 48)) 0 = v.toNat := by
  have hv := v.isLt
  obtain ⟨hlt, h⟩ | ⟨-, hlt, h⟩ | ⟨-, h⟩ := decimalDigits_cases v <;>
    simp (disch := omega) only [h, List.foldl_cons, List.foldl_nil, toNat_digit] <;> omega

theorem toList_decimal (v : Byte) : (decimal v).toList = decimalDigits v := String.toList_ofList

/-! ## The statements -/

/-- Settles O46: one published event, whose text is `decimalDigits` of the register. -/
theorem printPublishesDecimal : Obligations.PrintPublishesDecimal := by
  intro s rr
  refine ⟨encodedAs_operands _, _, decimal (s.readReg rr), rfl, rfl,
    (effect_emit (i := .print rr) s _ rfl nofun).frame, ?_⟩
  rw [toList_decimal]
  refine ⟨decimalDigits_ne_nil _, fun ch hch => ?_, decimalDigits_head?_ne_zero,
    foldl_decimalDigits _⟩
  obtain ⟨n, hn, rfl⟩ := exists_digit_of_mem_decimalDigits hch
  rw [toNat_digit hn]
  omega

/-- Settles O45: the cycle of the one-byte instruction NOP (`step_executes_opcode`), whose execution
answers the state that the decode left. -/
theorem nopOnlyAdvances : Obligations.NopOnlyAdvances := by
  refine fun s => ⟨encodedAs_operands _, rfl, fun hp hnop => ?_⟩
  have hd : decode [s.memRead s.pc] = .ok (.nop, []) := by
    rw [hnop]
    exact decode_encode .nop []
  obtain ⟨t, he, hs⟩ := step_executes_opcode hp hd
  cases he
  rw [hs]
  simp [afterExecute, State.decoded, Instr.opcode, hnop, hp]

/-- Settles O47: each is the write of its control register. -/
theorem bankAndPaletteWriteTheirRegister : Obligations.BankAndPaletteWriteTheirRegister :=
  fun s c =>
    ⟨⟨encodedAs_operands _, _, rfl, rfl, rfl, (effect_setBank (i := .bank c) s rfl c).frame⟩,
      ⟨encodedAs_operands _, _, rfl, rfl, rfl, (effect_setPalette (i := .palette c) s rfl c).frame⟩⟩

end Sys2Proof.Machine
end

section
/-! Exceptions: the statements about 60_exceptions.md. A cycle reports an error either at its decode,
where nothing executes, or in the semantics of the instruction it executes, where `Effect.raised` says
that only the trace is written. -/

namespace Sys2Proof.Machine

@[simp] theorem noError_nil : noError [] = true := rfl

@[simp] theorem noError_cons (e : Event) (es : List Event) :
    noError (e :: es) = (e.errorKind.isNone && noError es) := rfl

@[simp] theorem noError_append (es fs : List Event) :
    noError (es ++ fs) = (noError es && noError fs) := List.all_append

/-- Settles O24: an error at the decode leaves nothing pending, and one in the semantics leaves only
the trace changed, with the advance suppressed exactly by RET. -/
theorem errorsLeaveNoPartialResult : Obligations.ErrorsLeaveNoPartialResult := by
  intro s t events h htrace herror
  obtain ⟨ev, q, _, ⟨hx, hq, rfl⟩ | ⟨i, u, sem, hx, hev, _, he, rfl⟩⟩ := step_next h
  · have hevents : [ev, .programCounterChanged (s.pc + 1#8)] = events := by
      simpa [State.endCycle_trace] using htrace
    obtain rfl : q = none := hq (by simpa [← hevents] using herror)
    exact ⟨State.readReg_endCycle _, by simp, by simp, by simp, by simp, State.memRead_endCycle _,
      State.vidRead_endCycle _, by simp, by simp [hx], by simp [State.endCycle_pc]⟩
  · have hsem : noError sem = false := by
      have hevents : ev :: (sem ++ .instructionExecuted i.opcode ::
          (if u.suppressed then [] else [.programCounterChanged (u.pc + 1#8)])) = events := by
        simpa [afterExecute, he.trace] using htrace
      simpa [← hevents, hev, apply_ite noError] using herror
    rw [he.raised hsem]
    refine ⟨fun _ => rfl, rfl, rfl, rfl, rfl, fun _ => rfl, fun _ => rfl, rfl, fun hret => ?_,
      fun hret => ?_⟩
    · have hi : i = .ret := by simpa [hx] using hret
      simp [afterExecute, hi]
    · have hi : i ≠ .ret := by simpa [hx] using hret
      simp [afterExecute, hi]

end Sys2Proof.Machine
end

section
/-! Reset, load and host edits: the statements about 70_reset_and_hazards.md. -/

namespace Sys2Proof.Machine

/-! ## Power-on (70_reset_and_hazards.md rule R261) -/

@[simp] theorem State.readReg_powerOn (c : Config) (r : Reg) :
    (State.powerOn c).readReg r = 0#8 := by
  simp [State.powerOn, State.readReg]

theorem Inv.powerOn {c : Config} (hc : c.valid = true) : Inv (State.powerOn c) :=
  ⟨hc, rfl, rfl, Nat.zero_le _, rfl, rfl⟩

/-- Settles O14: the registers are a replicated 0, and the rest are the fields as power-on writes
them. -/
theorem powerOnValues : Obligations.PowerOnValues := fun c =>
  ⟨State.readReg_powerOn c, rfl, rfl, rfl, rfl, rfl, rfl, fun _ => rfl, fun _ => rfl, rfl, rfl⟩

/-- Settles O15: reset is power-on with the default configuration, which is legal. -/
theorem resetMeetsInvariant : Obligations.ResetMeetsInvariant :=
  ⟨Inv.powerOn (by decide), rfl, fun _ hc => ⟨rfl, Inv.powerOn hc⟩⟩

/-! ## load (70_reset_and_hazards.md rules R262, R263) -/

@[simp] theorem State.load_trace (bytes : List Byte) (s : State) :
    (s.load bytes).trace = s.trace ++ [.reset] := rfl

@[simp] theorem State.load_config (bytes : List Byte) (s : State) :
    (s.load bytes).config = s.config := rfl

theorem State.memRead_load (bytes : List Byte) (s : State) (a : Byte) :
    (s.load bytes).memRead a = bytes.getD a.toNat 0#8 := by
  calc (s.load bytes).memRead a
    _ = (Memory.ofBytesFrom 0 (bytes.take 256)).read (0 + a.toNat) := by rw [Nat.zero_add]; rfl
    _ = (bytes.take 256).getD a.toNat 0#8 := (Memory.read_ofBytesFrom _ 0 _).1
    _ = bytes.getD a.toNat 0#8 := by
      simp only [List.getD_eq_getElem?_getD, List.getElem?_take_of_lt a.isLt]

/-- Settles O52: the copied memory by `memRead_load` and `Memory.wf_ofBytes`; the rest are the values
of power-on. -/
theorem loadResetsAndCopies : Obligations.LoadResetsAndCopies := fun s bytes =>
  ⟨State.memRead_load bytes s, Memory.wf_ofBytes bytes, State.readReg_powerOn s.config, rfl, rfl, rfl,
    fun _ => rfl, rfl, rfl, rfl, State.load_trace bytes s, State.load_config bytes s⟩

/-- Loads into two machines of one configuration differ at most in the output so far. -/
theorem State.load_eq_load {s u : State} (h : u.config = s.config) (bytes : List Byte) :
    { u.load bytes with trace := [] } = { s.load bytes with trace := [] } := by
  simp only [State.load, h]

/-! ## What an edit, accepted or refused, writes (10_state.md rules R38 to R40) -/

theorem setRegister_state_cases (s : State) (i v : Nat) :
    (s.setRegister i v).state = s ∨
      ∃ r, (s.setRegister i v).state = s.writeReg r (BitVec.ofNat 8 v) := by
  by_cases h : i < 8 ∧ v < 256
  · exact .inr ⟨⟨i, h.1⟩, by rw [setRegister_of_lt h.1 h.2]⟩
  · exact .inl (by rw [setRegister_of_le (by omega)])

theorem setMemory_state_cases (s : State) (a v : Nat) :
    (s.setMemory a v).state = s ∨
      (s.setMemory a v).state = s.memWrite (BitVec.ofNat 8 a) (BitVec.ofNat 8 v) := by
  by_cases h : a < 256 ∧ v < 256
  · exact .inr (by rw [setMemory_of_lt h.1 h.2])
  · exact .inl (by rw [setMemory_of_le (by omega)])

theorem setProgramCounter_state_cases (s : State) (v : Nat) :
    (s.setProgramCounter v).state = s ∨
      (s.setProgramCounter v).state = s.writePc (BitVec.ofNat 8 v) := by
  by_cases h : v < 256
  · exact .inr (by rw [setProgramCounter_of_lt h])
  · exact .inl (by rw [setProgramCounter_of_le (by omega)])

/-! ## The configuration along host sessions (10_state.md rule R42) -/

theorem step_config {s t : State} (h : step s = .next t) : t.config = s.config := by
  obtain ⟨_, _, _, ⟨_, _, rfl⟩ | ⟨_, _, _, _, _, _, he, rfl⟩⟩ := step_next h
  · exact State.endCycle_config _
  · exact (he.frame.config :)

/-- No host call that completes changes the configuration, from any state. -/
theorem hostCall_config {c : HostCall} {s t : State} (h : hostCall c s = .next t) :
    t.config = s.config := by
  cases c with
  | cycle => exact step_config h
  | load bytes => cases h; rfl
  | getState => cases h; rfl
  | setRegister i v =>
    cases h
    rcases setRegister_state_cases s i v with e | ⟨_, e⟩ <;> rw [e]
    rfl
  | setMemory a v =>
    cases h
    rcases setMemory_state_cases s a v with e | e <;> rw [e]
    rfl
  | setProgramCounter v =>
    cases h
    rcases setProgramCounter_state_cases s v with e | e <;> rw [e]
    rfl

/-- Nor does a session that completes. -/
theorem session_config {calls : List HostCall} {s u : State} (h : session calls s = .next u) :
    u.config = s.config := by
  induction calls generalizing s with
  | nil => cases h; rfl
  | cons c cs ih =>
    cases hc : hostCall c s with
    | next t =>
      rw [session_cons_of_next hc] at h
      exact (ih h).trans (hostCall_config hc)
    | fault f => simp [session, hc] at h
    | refused r => simp [session, hc] at h

/-- Settles O53: a load reads nothing of the machine but its configuration, which no session
changes. -/
theorem loadIsIdempotent : Obligations.LoadIsIdempotent := fun s u bytes _ h =>
  ⟨State.load_eq_load (session_config h) bytes, State.load_trace bytes u, State.load_trace bytes s⟩

/-! ## Edits while an instruction is pending (70_reset_and_hazards.md rule R270) -/

/-- The instruction a cycle executes is read off the pending instruction and the byte at pc. -/
theorem executing_congr {s t : State} (hp : t.pending = s.pending) (hb : t.fetch = s.fetch) :
    t.executing = s.executing := by
  unfold State.fetch at hb
  simp only [State.executing, hp, hb]

/-- A byte written anywhere but at pc is not the next byte fetched. -/
theorem fetch_memWrite {s : State} {a : Byte} (h : a ≠ s.pc) (v : Byte) :
    (s.memWrite a v).fetch = s.fetch := State.memRead_memWrite_other s h.symm v

/-- Settles O51: an accepted edit is one write of a register, a byte or pc, which keeps the pending
instruction; only a byte at pc is read by the next cycle. -/
theorem hostEditsKeepLatchedBytes : Obligations.HostEditsKeepLatchedBytes := by
  intro s p i a v hp
  obtain ⟨hregPending, hregExecuting⟩ : (s.setRegister i v).state.pending = s.pending ∧
      (s.setRegister i v).state.executing = s.executing := by
    rcases setRegister_state_cases s i v with e | ⟨r, e⟩ <;> rw [e]
    · exact ⟨rfl, rfl⟩
    · exact ⟨rfl, executing_congr rfl rfl⟩
  obtain ⟨hmemPending, hmemExecuting⟩ : (s.setMemory a v).state.pending = s.pending ∧
      (BitVec.ofNat 8 a ≠ s.pc → (s.setMemory a v).state.executing = s.executing) := by
    rcases setMemory_state_cases s a v with e | e <;> rw [e]
    · exact ⟨rfl, fun _ => rfl⟩
    · exact ⟨rfl, fun ha => executing_congr rfl (fetch_memWrite ha _)⟩
  have hpcPending : (s.setProgramCounter v).state.pending = s.pending := by
    rcases setProgramCounter_state_cases s v with e | e <;> rw [e]
    rfl
  exact ⟨hmemPending.trans hp, hregPending.trans hp, hpcPending.trans hp, fun _ => rfl, hregExecuting,
    hmemExecuting⟩

end Sys2Proof.Machine
end
